-- ==== Sys2Proof/Word.lean ====
section
/-! DEFINITION. The words and byte strings of the model (spec rule R7, R8, R9). -/

namespace Sys2Proof

/-- A byte; bit 7 is the most significant (R7). -/
abbrev Byte := BitVec 8

/-- A byte string; byte 0, the head, is the byte at the lowest offset (R7, R8). -/
abbrev Bytes := List Byte

/-- A 32-bit word: a command word, a register, a ChaCha20 word. -/
abbrev W32 := BitVec 32

/-- A 64-bit word of BLAKE2b, SHA-512 and the Argon2 block filler. -/
abbrev W64 := BitVec 64

/-- A 128-bit word: `P.r`, `P.pad`, the BLAKE2b byte counter, the SHA-512 bit counter. -/
abbrev W128 := BitVec 128

end Sys2Proof
end

