-- ==== Sys2Proof/Config.lean ====
section
/-! DEFINITION. The parameters of the block (spec rule R5) and the free values, which the spec leaves open. -/

namespace Sys2Proof.Config

/-- `IB_BYTES` of R5. -/
def ibBytes : Nat := 4096

/-- `OB_BYTES` of R5. -/
def obBytes : Nat := 1024

/-- `UPD_MAX` of R5: the largest LEN of an UPDATE command and of HMAC_INIT. -/
def updMax : Nat := 4096

/-- `CC_MAX` of R5: the largest LEN of CC20_XOR. -/
def ccMax : Nat := 1024

/-- The largest digest length and the largest key length of BLAKE2b (R5, R94). -/
def b2bMax : Nat := 64

/-- The size of the window (R60). -/
def windowBytes : Nat := 0x3000

/-- `BASE`, the window's address in the host's address map: an open parameter of the model (R60, U10).
Nothing is known of its value. DESIGN CHOICE, log 7, safe. -/
opaque base : Nat

/-- The 32 result bytes of MMUL when its precondition fails (R252, U1), as one little-endian number, for
each draw: `any value`, so nothing is known of it. DESIGN CHOICE, log 4, safe. -/
opaque mmulFree : Nat → BitVec 256

/-- The 160 result bytes of GE_SMUL_VAR with CIN = 0 on an invalid point (R301, U2), as one little-endian
number, for each draw: `any value`, so nothing is known of it. DESIGN CHOICE, log 5, safe. -/
opaque smulFree : Nat → BitVec 1280

end Sys2Proof.Config
end

