-- ==== Sys2Proof/Syntax.lean ====
section
/-! DEFINITION. The 25 commands (spec rules R93, R94): one constructor for each row of spec/opcode_table.json. -/

namespace Sys2Proof

/-- The nonce conventions of CC20_XOR, the values 0, 1 and 2 of CONV (R94, R122). CONV = 3 is reserved and
has no constructor: a word that holds it is illegal. -/
inductive Conv where
  /-- CONV = 0: 8-byte nonce, 64-bit counter. -/
  | djb
  /-- CONV = 1: 12-byte nonce, 32-bit counter. -/
  | ietf
  /-- CONV = 2: 24-byte nonce, 64-bit counter. -/
  | x
  deriving DecidableEq, Repr

/-- A command. The fields are the FLAGS sub-fields of R94, in that rule's order, then LEN. -/
inductive Instr where
  /-- WIPE (0x01), MASK = FLAGS[5:0]. -/
  | wipe (mask : BitVec 6)
  /-- CC20_XOR (0x10), CONV = FLAGS[1:0], KS = FLAGS[2], LEN = text length. -/
  | cc20Xor (conv : Conv) (ks : Bool) (len : BitVec 16)
  /-- CC20_H (0x11). -/
  | cc20H
  /-- P1305_INIT (0x20). -/
  | p1305Init
  /-- P1305_UPDATE (0x21), LEN = chunk length. -/
  | p1305Update (len : BitVec 16)
  /-- P1305_FINAL (0x22). -/
  | p1305Final
  /-- B2B_INIT (0x30), OUTLEN = FLAGS[6:0], LEN = key length. -/
  | b2bInit (outlen : BitVec 7) (len : BitVec 16)
  /-- B2B_UPDATE (0x31), LEN = chunk length. -/
  | b2bUpdate (len : BitVec 16)
  /-- B2B_FINAL (0x32). -/
  | b2bFinal
  /-- S512_INIT (0x40). -/
  | s512Init
  /-- S512_UPDATE (0x41), LEN = chunk length. -/
  | s512Update (len : BitVec 16)
  /-- S512_FINAL (0x42). -/
  | s512Final
  /-- HMAC_INIT (0x50), LEN = key length. -/
  | hmacInit (len : BitVec 16)
  /-- HMAC_UPDATE (0x51), LEN = chunk length. -/
  | hmacUpdate (len : BitVec 16)
  /-- HMAC_FINAL (0x52). -/
  | hmacFinal
  /-- A2_FILL (0x60), XOR = FLAGS[0]. -/
  | a2Fill (xor : Bool)
  /-- FE_INV (0x70). -/
  | feInv
  /-- FE_ISQRT (0x71). -/
  | feIsqrt
  /-- MMUL (0x80). -/
  | mmul
  /-- BRED (0x81). -/
  | bred
  /-- BMAD (0x82). -/
  | bmad
  /-- X_LADDER (0x90), TRIM = FLAGS[0], W = FLAGS[1]. -/
  | xLadder (trim w : Bool)
  /-- GE_ADD (0xA0), SUB = FLAGS[0]. -/
  | geAdd (sub : Bool)
  /-- GE_SMUL_BASE (0xA1). -/
  | geSmulBase
  /-- GE_SMUL_VAR (0xA2), CIN = FLAGS[0]. -/
  | geSmulVar (cin : Bool)
  deriving DecidableEq, Repr

end Sys2Proof
end

