-- ==== Sys2Proof/WellFormed.lean ====
section
/-! DEFINITION. The range conditions of spec rule R94: what a legal command's LEN and OUTLEN may be. -/

namespace Sys2Proof

/-- LEN of CC20_XOR is at most 1024 (R94). -/
def textLenOk (len : BitVec 16) : Bool := decide (len.toNat ≤ Config.ccMax)

/-- LEN of an UPDATE, and of HMAC_INIT, is at most 4096 (R94). -/
def chunkLenOk (len : BitVec 16) : Bool := decide (len.toNat ≤ Config.updMax)

/-- OUTLEN of B2B_INIT is 1 to 64 and its LEN at most 64 (R94). -/
def b2bParamsOk (outlen : BitVec 7) (len : BitVec 16) : Bool :=
  decide (1 ≤ outlen.toNat) && decide (outlen.toNat ≤ Config.b2bMax) && decide (len.toNat ≤ Config.b2bMax)

/-- The range conditions beyond the mask (last column of R94's table), for every command. -/
def Instr.wellFormed : Instr → Bool
  | .wipe _ => true
  | .cc20Xor _ _ len => textLenOk len
  | .cc20H => true
  | .p1305Init => true
  | .p1305Update len => chunkLenOk len
  | .p1305Final => true
  | .b2bInit outlen len => b2bParamsOk outlen len
  | .b2bUpdate len => chunkLenOk len
  | .b2bFinal => true
  | .s512Init => true
  | .s512Update len => chunkLenOk len
  | .s512Final => true
  | .hmacInit len => chunkLenOk len
  | .hmacUpdate len => chunkLenOk len
  | .hmacFinal => true
  | .a2Fill _ => true
  | .feInv => true
  | .feIsqrt => true
  | .mmul => true
  | .bred => true
  | .bmad => true
  | .xLadder _ _ => true
  | .geAdd _ => true
  | .geSmulBase => true
  | .geSmulVar _ => true

end Sys2Proof
end

