-- ==== Sys2Proof/Decode.lean ====
section
/-! DEFINITION. The decoder (spec rules R91 to R96, steps 1 to 3 of R95), total on all 2^32 words, and the encoder. -/

namespace Sys2Proof

/-- OP = bits 7:0 of the word (R91). -/
def opOf (w : W32) : BitVec 8 := w.extractLsb' 0 8

/-- FLAGS = bits 15:8 of the word (R91). -/
def flagsOf (w : W32) : BitVec 8 := w.extractLsb' 8 8

/-- LEN = bits 31:16 of the word, used as it is (R91, R102). -/
def lenOf (w : W32) : BitVec 16 := w.extractLsb' 16 16

/-- Why a word is illegal: the first of the three steps of R95 that fails. All three end the command with
ILLEGAL and are not told apart in the code (R337). -/
inductive DecodeError where
  /-- Step 1: OP is not in the table of R93. -/
  | reservedOp
  /-- Step 2: `(w & mask) ≠ match`: a bit the command does not use is 1. -/
  | unusedBits
  /-- Step 3: a range condition of R94 fails (CONV = 3, OUTLEN, or LEN too large). -/
  | badRange
  deriving DecidableEq, Repr

/-- The value of CONV (R94); 3 is reserved (R122). -/
def convOf (b : BitVec 2) : Option Conv :=
  match b.toNat with
  | 0 => some .djb
  | 1 => some .ietf
  | 2 => some .x
  | _ => none

/-- The number of a convention (R94). -/
def convBits : Conv → BitVec 2
  | .djb => 0#2
  | .ietf => 1#2
  | .x => 2#2

/-- One row of R94's table: match, mask, and the command that the word's sub-fields make (none where a
sub-field's value is reserved). -/
structure OpRow where
  pattern : W32
  mask : W32
  build : W32 → Option Instr

/-- The opcode map (R93) with match, mask and sub-fields (R94), row by row. -/
def opTable : List OpRow :=
  [ ⟨0x00000001#32, 0xFFFFC0FF#32, fun w => some (.wipe ((flagsOf w).extractLsb' 0 6))⟩,
    ⟨0x00000010#32, 0x0000F8FF#32, fun w =>
      (convOf ((flagsOf w).extractLsb' 0 2)).map fun c => .cc20Xor c ((flagsOf w).getLsbD 2) (lenOf w)⟩,
    ⟨0x00000011#32, 0xFFFFFFFF#32, fun _ => some .cc20H⟩,
    ⟨0x00000020#32, 0xFFFFFFFF#32, fun _ => some .p1305Init⟩,
    ⟨0x00000021#32, 0x0000FFFF#32, fun w => some (.p1305Update (lenOf w))⟩,
    ⟨0x00000022#32, 0xFFFFFFFF#32, fun _ => some .p1305Final⟩,
    ⟨0x00000030#32, 0x000080FF#32, fun w => some (.b2bInit ((flagsOf w).extractLsb' 0 7) (lenOf w))⟩,
    ⟨0x00000031#32, 0x0000FFFF#32, fun w => some (.b2bUpdate (lenOf w))⟩,
    ⟨0x00000032#32, 0xFFFFFFFF#32, fun _ => some .b2bFinal⟩,
    ⟨0x00000040#32, 0xFFFFFFFF#32, fun _ => some .s512Init⟩,
    ⟨0x00000041#32, 0x0000FFFF#32, fun w => some (.s512Update (lenOf w))⟩,
    ⟨0x00000042#32, 0xFFFFFFFF#32, fun _ => some .s512Final⟩,
    ⟨0x00000050#32, 0x0000FFFF#32, fun w => some (.hmacInit (lenOf w))⟩,
    ⟨0x00000051#32, 0x0000FFFF#32, fun w => some (.hmacUpdate (lenOf w))⟩,
    ⟨0x00000052#32, 0xFFFFFFFF#32, fun _ => some .hmacFinal⟩,
    ⟨0x00000060#32, 0xFFFFFEFF#32, fun w => some (.a2Fill ((flagsOf w).getLsbD 0))⟩,
    ⟨0x00000070#32, 0xFFFFFFFF#32, fun _ => some .feInv⟩,
    ⟨0x00000071#32, 0xFFFFFFFF#32, fun _ => some .feIsqrt⟩,
    ⟨0x00000080#32, 0xFFFFFFFF#32, fun _ => some .mmul⟩,
    ⟨0x00000081#32, 0xFFFFFFFF#32, fun _ => some .bred⟩,
    ⟨0x00000082#32, 0xFFFFFFFF#32, fun _ => some .bmad⟩,
    ⟨0x00000090#32, 0xFFFFFCFF#32, fun w => some (.xLadder ((flagsOf w).getLsbD 0) ((flagsOf w).getLsbD 1))⟩,
    ⟨0x000000A0#32, 0xFFFFFEFF#32, fun w => some (.geAdd ((flagsOf w).getLsbD 0))⟩,
    ⟨0x000000A1#32, 0xFFFFFFFF#32, fun _ => some .geSmulBase⟩,
    ⟨0x000000A2#32, 0xFFFFFEFF#32, fun w => some (.geSmulVar ((flagsOf w).getLsbD 0))⟩ ]

/-- The row of an OP value (R93); none where OP is reserved. -/
def rowOf (op : BitVec 8) : Option OpRow := opTable.find? fun r => opOf r.pattern == op

/-- Steps 1 to 3 of R95. -/
def decode (w : W32) : Except DecodeError Instr :=
  match rowOf (opOf w) with
  | none => .error .reservedOp
  | some r =>
    if w &&& r.mask ≠ r.pattern then .error .unusedBits
    else
      match r.build w with
      | none => .error .badRange
      | some i => if i.wellFormed then .ok i else .error .badRange

/-- Whether the decoder accepts a word: R94's "legal instance". -/
def isLegal (w : W32) : Bool :=
  match decode w with
  | .ok _ => true
  | .error _ => false

/-- The decoder read at a table word: a command is one 32-bit word (R90), so a number that does not fit
one is no command. -/
def decodeTableWord (nbits w : Nat) : Option Instr :=
  let v := w % 2 ^ nbits
  if v < 2 ^ 32 then (decode (BitVec.ofNat 32 v)).toOption else none

/-- The OP of each command (R93). -/
def opBits : Instr → BitVec 8
  | .wipe _ => 0x01#8
  | .cc20Xor _ _ _ => 0x10#8
  | .cc20H => 0x11#8
  | .p1305Init => 0x20#8
  | .p1305Update _ => 0x21#8
  | .p1305Final => 0x22#8
  | .b2bInit _ _ => 0x30#8
  | .b2bUpdate _ => 0x31#8
  | .b2bFinal => 0x32#8
  | .s512Init => 0x40#8
  | .s512Update _ => 0x41#8
  | .s512Final => 0x42#8
  | .hmacInit _ => 0x50#8
  | .hmacUpdate _ => 0x51#8
  | .hmacFinal => 0x52#8
  | .a2Fill _ => 0x60#8
  | .feInv => 0x70#8
  | .feIsqrt => 0x71#8
  | .mmul => 0x80#8
  | .bred => 0x81#8
  | .bmad => 0x82#8
  | .xLadder _ _ => 0x90#8
  | .geAdd _ => 0xA0#8
  | .geSmulBase => 0xA1#8
  | .geSmulVar _ => 0xA2#8

/-- The FLAGS of each command: its sub-fields at the places of R94, all other bits 0. -/
def flagBits : Instr → BitVec 8
  | .wipe mask => 0#2 ++ mask
  | .cc20Xor conv ks _ => 0#5 ++ BitVec.ofBool ks ++ convBits conv
  | .b2bInit outlen _ => 0#1 ++ outlen
  | .a2Fill xor => 0#7 ++ BitVec.ofBool xor
  | .xLadder trim w => 0#6 ++ BitVec.ofBool w ++ BitVec.ofBool trim
  | .geAdd sub => 0#7 ++ BitVec.ofBool sub
  | .geSmulVar cin => 0#7 ++ BitVec.ofBool cin
  | .cc20H | .p1305Init | .p1305Update _ | .p1305Final | .b2bUpdate _ | .b2bFinal | .s512Init
  | .s512Update _ | .s512Final | .hmacInit _ | .hmacUpdate _ | .hmacFinal | .feInv | .feIsqrt | .mmul
  | .bred | .bmad | .geSmulBase => 0#8

/-- The LEN of each command: 0 where it has no length (R94). -/
def lenBits : Instr → BitVec 16
  | .cc20Xor _ _ len | .p1305Update len | .b2bInit _ len | .b2bUpdate len | .s512Update len
  | .hmacInit len | .hmacUpdate len => len
  | .wipe _ | .cc20H | .p1305Init | .p1305Final | .b2bFinal | .s512Init | .s512Final | .hmacFinal
  | .a2Fill _ | .feInv | .feIsqrt | .mmul | .bred | .bmad | .xLadder _ _ | .geAdd _ | .geSmulBase
  | .geSmulVar _ => 0#16

/-- The word of a command, `LEN ‖ FLAGS ‖ OP` with bit 31 left (R92, R99). -/
def encode (i : Instr) : W32 := lenBits i ++ flagBits i ++ opBits i

end Sys2Proof
end

