-- ==== Sys2Proof/Machine/Bytes.lean ====
section
/-! DEFINITION. Byte strings and integers (spec rules R8, R9): the byte-order and bit helpers of every unit. -/

namespace Sys2Proof.Machine

/-- `le(S)`: the natural number whose little-endian bytes are `S` (R8). -/
def le : Bytes → Nat
  | [] => 0
  | b :: bs => b.toNat + 256 * le bs

/-- `be(S)`: the natural number whose big-endian bytes are `S` (R8). -/
def be (s : Bytes) : Nat := le s.reverse

/-- `tole_n(v)`: the `n`-byte string with `le(tole_n(v)) = v mod 256^n` (R8). -/
def tole : Nat → Nat → Bytes
  | 0, _ => []
  | n + 1, v => BitVec.ofNat 8 v :: tole n (v / 256)

/-- `tobe_n(v)`: the `n`-byte string with `be(tobe_n(v)) = v mod 256^n` (R8). -/
def tobe (n v : Nat) : Bytes := (tole n v).reverse

/-- `zeros(n)` (R8). -/
def zeros (n : Nat) : Bytes := List.replicate n 0#8

/-- `S[a..a+n)` (R8). -/
def slice (s : Bytes) (a n : Nat) : Bytes := (s.drop a).take n

/-- Bytewise exclusive or, as long as the shorter string. -/
def xorBytes (s t : Bytes) : Bytes := List.zipWith (fun x y => x ^^^ y) s t

/-- Every byte of a string xored with one byte (R189). -/
def xorByte (s : Bytes) (b : Byte) : Bytes := s.map fun x => x ^^^ b

/-- `S ‖ zeros(n - len(S))`: a string padded with zero bytes to `n` bytes. -/
def padTo (n : Nat) (s : Bytes) : Bytes := s ++ zeros (n - s.length)

/-- `le(S)` as a 32-bit word. -/
def le32 (s : Bytes) : W32 := BitVec.ofNat 32 (le s)

/-- `le(S)` as a 64-bit word. -/
def le64 (s : Bytes) : W64 := BitVec.ofNat 64 (le s)

/-- `be(S)` as a 64-bit word. -/
def be64 (s : Bytes) : W64 := BitVec.ofNat 64 (be s)

/-- `tole_4(x)`. -/
def bytes32 (x : W32) : Bytes := tole 4 x.toNat

/-- `tole_8(x)`. -/
def bytes64 (x : W64) : Bytes := tole 8 x.toNat

/-- `tobe_8(x)`. -/
def bytesBe64 (x : W64) : Bytes := tobe 8 x.toNat

/-- `rotl32(x, n)` (R9). -/
def rotl32 (x : W32) (n : Nat) : W32 := x <<< n ||| x >>> (32 - n)

/-- `rotr64(x, n)` (R9). -/
def rotr64 (x : W64) (n : Nat) : W64 := x >>> n ||| x <<< (64 - n)

/-- Word `i` of an array of 32-bit words. -/
def word32 (x : List W32) (i : Nat) : W32 := x.getD i 0#32

/-- Word `i` of an array of 64-bit words. -/
def word64 (x : List W64) (i : Nat) : W64 := x.getD i 0#64

/-- The `n` little-endian 32-bit words of a byte string. -/
def leWords32 (n : Nat) (s : Bytes) : List W32 := (List.range n).map fun i => le32 (slice s (4 * i) 4)

/-- The `n` little-endian 64-bit words of a byte string. -/
def leWords64 (n : Nat) (s : Bytes) : List W64 := (List.range n).map fun i => le64 (slice s (8 * i) 8)

/-- The `n` big-endian 64-bit words of a byte string. -/
def beWords64 (n : Nat) (s : Bytes) : List W64 := (List.range n).map fun i => be64 (slice s (8 * i) 8)

/-- `(k >> t) mod 2 = 1`: bit `t` of a natural number. -/
def bitAt (k t : Nat) : Bool := k / 2 ^ t % 2 == 1

/-- The positions `n-1, n-2, ..., 0`: "for t from n-1 down to 0". -/
def downFrom : Nat → List Nat
  | 0 => []
  | n + 1 => n :: downFrom n

end Sys2Proof.Machine
end

