-- ==== Sys2Proof/Machine/State.lean ====
section
/-! DEFINITION. The state of the block (spec 10_state.md), its value after reset (R40), and the reasons a step can stop. -/

namespace Sys2Proof.Machine

/-- A byte buffer: offset and byte pairs in ONE canonical form (`Memory.wf`). A byte that is not listed
reads as 0x00, its value after reset (R40). Log 13. -/
abbrev Memory := List Host.Cell

/-- The canonical form: offsets strictly rising and below `size`, and no listed byte equal to 0x00. -/
abbrev Memory.wf (size : Nat) (m : Memory) : Prop :=
  m.Pairwise (fun c d => c.1 < d.1) ∧ ∀ c ∈ m, c.1 < size ∧ c.2 ≠ 0#8

/-- The Poly1305 context (R32). -/
structure PolyCtx where
  /-- `P.r`, the clamped multiplier. -/
  r : W128
  /-- `P.pad`, the secret pad. -/
  pad : W128
  /-- `P.h`, the accumulator, a natural in `[0, p1305)`. -/
  h : Nat
  /-- `P.buf`, the last partial block not yet absorbed, 0 to 15 bytes. -/
  buf : Bytes
  deriving DecidableEq, Repr

/-- The BLAKE2b context (R33). -/
structure B2bCtx where
  /-- `B.h[0..7]`, the chaining value. -/
  h : Vector W64 8
  /-- `B.t`, the count of bytes compressed so far, mod 2^128 (R163). -/
  t : W128
  /-- `B.buf`, the bytes received and not yet compressed, 0 to 128. -/
  buf : Bytes
  /-- `B.outlen`, the digest length. -/
  outlen : Nat
  deriving DecidableEq, Repr

/-- A SHA-512 context (R34), also the inner hash of HMAC (R35). -/
structure ShaCtx where
  /-- `h[0..7]`, the chaining value. -/
  h : Vector W64 8
  /-- `buf`, the bytes received and not yet compressed, 0 to 127. -/
  buf : Bytes
  /-- `nbits`, the count of message bits received, mod 2^128 (R183). -/
  nbits : W128
  deriving DecidableEq, Repr

/-- The HMAC-SHA-512 context (R35). -/
structure HmacCtx where
  /-- `H.kblock`, the padded key, 128 bytes. -/
  kblock : Bytes
  /-- `H.in`, the inner hash in progress. -/
  inner : ShaCtx
  deriving DecidableEq, Repr

/-- What the host can do to the block (R365, 20_memory.md section 2). Offsets are relative to BASE (R60).
The bytes of an access stand in order of address, the lowest address first (R63, log 14). -/
inductive HostMove where
  /-- A bus write of `data` at offset `off`. -/
  | write (off : Nat) (data : Bytes)
  /-- A bus read of `n` bytes at offset `off`. -/
  | read (off n : Nat)
  /-- The block's one reset, applied from outside (R360; log 10). -/
  | reset
  deriving DecidableEq, Repr

/-- Everything the spec gives the block (10_state.md R21 to R35), and three fields of the model's own. -/
structure State where
  /-- IB (R21), by buffer offset. -/
  ib : Memory
  /-- OB (R22), by buffer offset. -/
  ob : Memory
  /-- STATUS: BUSY bit 0, RF bit 1, CODE bits 7:4 (R26). -/
  status : W32
  /-- RLEN: the number of result bytes of the last command (R27). -/
  rlen : W32
  /-- CTR_LO: the low half of the returned ChaCha20 counter (R28). -/
  ctrLo : W32
  /-- CTR_HI: the high half of the returned ChaCha20 counter (R28). -/
  ctrHi : W32
  /-- LIVE: one bit per streaming context (R29). -/
  live : W32
  /-- The Poly1305 context (R32). -/
  poly : PolyCtx
  /-- The BLAKE2b context (R33). -/
  b2b : B2bCtx
  /-- The SHA-512 context `S` (R34). -/
  sha : ShaCtx
  /-- The HMAC-SHA-512 context (R35). -/
  hmac : HmacCtx
  /-- The model's own: the host's moves not yet served, oldest first (log 1). -/
  pending : List HostMove
  /-- The model's own: the bytes the last host read returned (log 3). -/
  readData : Bytes
  /-- The model's own: how many unspecified results were drawn so far (log 4, 5, 6). -/
  draws : Nat
  deriving DecidableEq, Repr

/-- Why a step faults: never. "It never gets stuck, never hangs and never faults" (60_exceptions.md section
7); a failure code is an ordinary next state. So there is no constructor, and no step can fault. Log 8. -/
inductive Fault where
  deriving DecidableEq, Repr

/-- The host moves the spec gives no meaning ("a model refuses it", U6, U7), and the name the host of this
row asks for. Every refusal is safe: no claim about the block's behaviour is made for such a move. -/
inductive Refusal where
  /-- An instruction that has no meaning yet. Raised by no arm: every command has its meaning. Safe. -/
  | notModelled (mnemonic : String)
  /-- Raised by the bus: an access to 0x0000 to 0x0FFF that is not an aligned 32-bit word (R61, U6). Safe. -/
  | registerAccess
  /-- Raised by the bus: an access that starts inside IB or OB and runs past its end (R65, U7). Safe. -/
  | pastBufferEnd
  /-- Raised by the bus: an access that lies, or ends, outside the window (R65, U7). Safe. -/
  | outsideWindow
  /-- Raised by the bus: a write of no bytes; R62 asks for at least one. Safe. -/
  | emptyWrite
  deriving DecidableEq, Repr

/-- What a command, a bus access or a step answers. -/
abbrev Result := Host.Outcome State Fault Refusal

/-- Eight zero words. -/
def zeroHash : Vector W64 8 := #v[0#64, 0#64, 0#64, 0#64, 0#64, 0#64, 0#64, 0#64]

/-- The Poly1305 context of all-zero fields (R31, R40). -/
def PolyCtx.zero : PolyCtx := { r := 0#128, pad := 0#128, h := 0, buf := [] }

/-- The BLAKE2b context of all-zero fields (R31, R40). -/
def B2bCtx.zero : B2bCtx := { h := zeroHash, t := 0#128, buf := [], outlen := 0 }

/-- A SHA-512 context of all-zero fields (R31, R40). -/
def ShaCtx.zero : ShaCtx := { h := zeroHash, buf := [], nbits := 0#128 }

/-- The HMAC-SHA-512 context of all-zero fields (R31, R40). -/
def HmacCtx.zero : HmacCtx := { kblock := List.replicate 128 0#8, inner := ShaCtx.zero }

/-- The block right after reset (R40, R360): every part of the spec's state is zero. The three last fields are
the model's own (DESIGN CHOICE, log 1, 3, 6). -/
def State.reset : State :=
  { ib := [], ob := [], status := 0#32, rlen := 0#32, ctrLo := 0#32, ctrHi := 0#32, live := 0#32,
    poly := PolyCtx.zero, b2b := B2bCtx.zero, sha := ShaCtx.zero, hmac := HmacCtx.zero,
    pending := [], readData := [], draws := 0 }

end Sys2Proof.Machine
end

