-- ==== Sys2Proof/Machine/Flags.lean ====
section
/-! DEFINITION. STATUS and LIVE: every flag and every completion code of the block (spec rules R26, R29, R330). -/

namespace Sys2Proof.Machine

/-- The four completion codes (R330); 4 to 15 are never produced. -/
inductive Code where
  /-- The command ran to its `done`. -/
  | ok
  /-- The word is not a legal instance of any command (R331). -/
  | illegal
  /-- UPDATE or FINAL of a unit whose context is not live (R332). -/
  | seq
  /-- A compressed point operand does not decode (R333). -/
  | decodeFail
  deriving DecidableEq, Repr

/-- The number of a code in STATUS bits 7:4 (R26, R330). -/
def codeBits : Code → BitVec 4
  | .ok => 0#4
  | .illegal => 1#4
  | .seq => 2#4
  | .decodeFail => 3#4

/-- STATUS as a command leaves it: CODE in bits 7:4, bits 3:2 zero, RF in bit 1, BUSY = 0 in bit 0, bits 31:8
zero (R26). -/
def statusWord (c : Code) (rf : Bool) : W32 := 0#24 ++ codeBits c ++ 0#2 ++ BitVec.ofBool rf ++ 0#1

/-- STATUS.BUSY (R26). -/
def statusBusy (status : W32) : Bool := status.getLsbD 0

/-- STATUS.RF (R26). -/
def statusRf (status : W32) : Bool := status.getLsbD 1

/-- STATUS.CODE (R26). -/
def statusCode (status : W32) : BitVec 4 := status.extractLsb' 4 4

/-- The four streaming contexts (R30). -/
inductive Stream where
  | poly
  | b2b
  | sha
  | hmac
  deriving DecidableEq, Repr

/-- The LIVE bit of a context (R29). -/
def liveBit : Stream → Nat
  | .poly => 0
  | .b2b => 1
  | .sha => 2
  | .hmac => 3

/-- Whether a context is live (R29). -/
def isLive (c : Stream) (s : State) : Bool := s.live.getLsbD (liveBit c)

/-- `LIVE[i] <- 1`. -/
def setLive (c : Stream) (s : State) : State := { s with live := s.live ||| 1#32 <<< liveBit c }

/-- `LIVE[i] <- 0`. -/
def clearLive (c : Stream) (s : State) : State := { s with live := s.live &&& ~~~(1#32 <<< liveBit c) }

end Sys2Proof.Machine
end

