-- ==== Sys2Proof/Machine/Ops.lean ====
section
/-! DEFINITION. The named operations over the buffers and the registers: reading and writing bytes, the common ending
`done` (spec rule R97), the common failure `raise` (R334), and the free values (R14). -/

namespace Sys2Proof.Machine

/-- The byte at offset `a`; one that is not listed reads 0x00 (R40). -/
def memRead : Memory → Nat → Byte
  | [], _ => 0#8
  | c :: m, a => if c.1 = a then c.2 else memRead m a

/-- The buffer without an entry for offset `a`. -/
def memErase (m : Memory) (a : Nat) : Memory := m.filter fun c => c.1 != a

/-- An entry put before the first one at a higher offset. -/
def memInsert (a : Nat) (b : Byte) : Memory → Memory
  | [] => [(a, b)]
  | c :: m => if a < c.1 then (a, b) :: c :: m else c :: memInsert a b m

/-- Store one byte, keeping the canonical form: storing 0x00 removes the entry. -/
def memWrite (m : Memory) (a : Nat) (b : Byte) : Memory :=
  if b = 0#8 then memErase m a else memInsert a b (memErase m a)

/-- The `n` bytes at offsets `a` to `a+n-1`. -/
def memReadBytes (m : Memory) (a : Nat) : Nat → Bytes
  | 0 => []
  | n + 1 => memRead m a :: memReadBytes m (a + 1) n

/-- Store a byte string at offset `a`, byte by byte. -/
def memWriteBytes (m : Memory) (a : Nat) : Bytes → Memory
  | [] => m
  | b :: bs => memWriteBytes (memWrite m a b) (a + 1) bs

/-- `done(v, f)` (R12, R97): the result bytes go to OB from offset 0, the rest of OB stays, RLEN counts them, CODE is
OK, RF is `f`, BUSY is 0. -/
def done (v : Bytes) (rf : Bool) (s : State) : State :=
  { s with ob := memWriteBytes s.ob 0 v, rlen := BitVec.ofNat 32 v.length, status := statusWord .ok rf }

/-- `raise <CODE>` (R11, R334): CODE is written, RF, BUSY and RLEN become 0, nothing else changes. This is all that
"trap entry" is in this block (R335), and there is nothing to return from (R336). -/
def raise (c : Code) (s : State) : State := { s with status := statusWord c false, rlen := 0#32 }

/-- A command that ends well with the result bytes `v` and RF = 0. -/
def finish (v : Bytes) (s : State) : Result := .next (done v false s)

/-- A command that fails. -/
def fail (c : Code) (s : State) : Result := .next (raise c s)

/-- A range condition of R94 (R95 step 3): where it fails, ILLEGAL, else the command goes on. The decoder refuses such
a word before; the meanings check again so that they are total on every term of Instr (log 9). -/
def inRange (ok : Bool) (s : State) (body : Result) : Result := if ok then body else fail .illegal s

/-- Step 4 of R95: SEQ where the unit's LIVE bit is 0, else the command goes on. -/
def whenLive (c : Stream) (s : State) (body : Result) : Result := if isLive c s then body else fail .seq s

/-- An unspecified result (R14, `any value`) was drawn: the next draw is another free value. -/
def drawn (s : State) : State := { s with draws := s.draws + 1 }

/-- `P.r <- 0; P.pad <- 0; P.h <- 0; P.buf <- empty; LIVE[0] <- 0` (R143, R320). -/
def endPoly (s : State) : State := clearLive .poly { s with poly := PolyCtx.zero }

/-- `B.h <- 0; B.t <- 0; B.buf <- empty; B.outlen <- 0; LIVE[1] <- 0` (R166, R320). -/
def endB2b (s : State) : State := clearLive .b2b { s with b2b := B2bCtx.zero }

/-- `S.h <- 0; S.buf <- empty; S.nbits <- 0; LIVE[2] <- 0` (R186, R320). -/
def endSha (s : State) : State := clearLive .sha { s with sha := ShaCtx.zero }

/-- `H.kblock <- zeros(128); H.in <- 0; LIVE[3] <- 0` (R192, R320). -/
def endHmac (s : State) : State := clearLive .hmac { s with hmac := HmacCtx.zero }

end Sys2Proof.Machine
end

