-- ==== Sys2Proof/Machine/Operands.lean ====
section
/-! DEFINITION. Operand fetch (spec rules R10, R23, R71): the one addressing mode, fixed offsets of IB, and the forms
in which the commands read their operands. -/

namespace Sys2Proof.Machine

/-- `MemRead(a, n)`: `IB[a..a+n)` (R10, R71). -/
def ibBytes (s : State) (a n : Nat) : Bytes := memReadBytes s.ib a n

/-- The LEN bytes at `IB[0]`: the data of an UPDATE, or a key (R23). -/
def ibData (s : State) (len : BitVec 16) : Bytes := ibBytes s 0 len.toNat

/-- `le` of the 32 bytes at offset `a`: a scalar operand (R250). -/
def ibScalar (s : State) (a : Nat) : Nat := le (ibBytes s a 32)

end Sys2Proof.Machine
end

