-- ==== Sys2Proof/Machine/Argon2.lean ====
section
/-! DEFINITION. argon2_block_filler: A2_FILL (spec 44_argon2.md). -/

namespace Sys2Proof.Machine

/-- The low 32 bits of a word, `x mod 2^32`, as a 64-bit word. -/
def low32 (x : W64) : W64 := (x.setWidth 32).setWidth 64

/-- `mix(x,y) = (x + y + 2 * (x mod 2^32) * (y mod 2^32)) mod 2^64` (R211). -/
def a2Mix (x y : W64) : W64 := x + y + 2#64 * low32 x * low32 y

/-- `GB` on four words (R211). -/
def a2GbWords (a b c d : W64) : W64 × W64 × W64 × W64 :=
  let a := a2Mix a b
  let d := rotr64 (d ^^^ a) 32
  let c := a2Mix c d
  let b := rotr64 (b ^^^ c) 24
  let a := a2Mix a b
  let d := rotr64 (d ^^^ a) 16
  let c := a2Mix c d
  let b := rotr64 (b ^^^ c) 63
  (a, b, c, d)

/-- `GB(a,b,c,d)` on the words of `v` at four indices (R211). -/
def a2Gb (a b c d : Nat) (v : List W64) : List W64 :=
  let q := a2GbWords (word64 v a) (word64 v b) (word64 v c) (word64 v d)
  (((v.set a q.1).set b q.2.1).set c q.2.2.1).set d q.2.2.2

/-- `PB(i[0..15])`, on the 16 indices `i 0` to `i 15` (R211). -/
def a2Pb (i : Nat → Nat) (v : List W64) : List W64 :=
  let v := a2Gb (i 0) (i 4) (i 8) (i 12) v
  let v := a2Gb (i 1) (i 5) (i 9) (i 13) v
  let v := a2Gb (i 2) (i 6) (i 10) (i 14) v
  let v := a2Gb (i 3) (i 7) (i 11) (i 15) v
  let v := a2Gb (i 0) (i 5) (i 10) (i 15) v
  let v := a2Gb (i 1) (i 6) (i 11) (i 12) v
  let v := a2Gb (i 2) (i 7) (i 8) (i 13) v
  a2Gb (i 3) (i 4) (i 9) (i 14) v

/-- The indices of group `i` in the first round: 16 consecutive words (R212). -/
def a2First (i k : Nat) : Nat := 16 * i + k

/-- The indices of group `i` in the second round: word pairs at stride 16 (R212). -/
def a2Second (i k : Nat) : Nat := 2 * i + 16 * (k / 2) + k % 2

/-- `a2_rounds(v)`: `PB` sixteen times (R212). -/
def a2Rounds (v : List W64) : List W64 :=
  let v := (List.range 8).foldl (fun v i => a2Pb (a2First i) v) v
  (List.range 8).foldl (fun v i => a2Pb (a2Second i) v) v

/-- Two blocks xored word by word. -/
def a2Xor (x y : List W64) : List W64 := List.zipWith (fun a b => a ^^^ b) x y

/-- The new block's words from the previous and the reference block (R213). -/
def a2Words (prev ref : Bytes) : List W64 :=
  let r := a2Xor (leWords64 128 prev) (leWords64 128 ref)
  a2Xor r (a2Rounds r)

/-- The new block: with XOR = 1 it is xored onto the old one (R213). With XOR = 0 the old block is not read. -/
def a2Block (xor : Bool) (prev ref old : Bytes) : Bytes :=
  (if xor then a2Xor (a2Words prev ref) (leWords64 128 old) else a2Words prev ref).flatMap bytes64

/-- A2_FILL (R213). -/
def execA2Fill (xor : Bool) (s : State) : Result :=
  finish (a2Block xor (ibBytes s 0 1024) (ibBytes s 1024 1024) (ibBytes s 2048 1024)) s

end Sys2Proof.Machine
end

