-- ==== Sys2Proof/Machine/Blake2b.lean ====
section
/-! DEFINITION. blake2b_core: B2B_INIT, B2B_UPDATE, B2B_FINAL (spec 42_blake2b.md). -/

namespace Sys2Proof.Machine

/-- BLAKE2_G on four words with two message words (R162). -/
def b2Mix (a b c d x y : W64) : W64 × W64 × W64 × W64 :=
  let a := a + b + x
  let d := rotr64 (d ^^^ a) 32
  let c := c + d
  let b := rotr64 (b ^^^ c) 24
  let a := a + b + y
  let d := rotr64 (d ^^^ a) 16
  let c := c + d
  let b := rotr64 (b ^^^ c) 63
  (a, b, c, d)

/-- `G(a,b,c,d,x,y)` on the words of `v` at four indices (R162). -/
def b2G (a b c d : Nat) (x y : W64) (v : List W64) : List W64 :=
  let q := b2Mix (word64 v a) (word64 v b) (word64 v c) (word64 v d) x y
  (((v.set a q.1).set b q.2.1).set c q.2.2.1).set d q.2.2.2

/-- One of the 12 rounds, with its row of the sigma table (R162). -/
def b2Round (m : List W64) (v : List W64) (row : List Nat) : List W64 :=
  let w := fun k => word64 m (row.getD k 0)
  let v := b2G 0 4 8 12 (w 0) (w 1) v
  let v := b2G 1 5 9 13 (w 2) (w 3) v
  let v := b2G 2 6 10 14 (w 4) (w 5) v
  let v := b2G 3 7 11 15 (w 6) (w 7) v
  let v := b2G 0 5 10 15 (w 8) (w 9) v
  let v := b2G 1 6 11 12 (w 10) (w 11) v
  let v := b2G 2 7 8 13 (w 12) (w 13) v
  b2G 3 4 9 14 (w 14) (w 15) v

/-- The working vector before the rounds: `h`, the IV, the counter in words 12 and 13, and for the last block word 14
with all bits flipped (R162). -/
def b2Start (h : Vector W64 8) (t : W128) (last : Bool) : List W64 :=
  let v := h.toList ++ b2Iv.toList
  let v := v.set 12 (word64 v 12 ^^^ t.setWidth 64)
  let v := v.set 13 (word64 v 13 ^^^ (t >>> 64).setWidth 64)
  if last then v.set 14 (~~~(word64 v 14)) else v

/-- `b2_compress(h, blk, t, last)` (R162). -/
def b2Compress (h : Vector W64 8) (blk : Bytes) (t : W128) (last : Bool) : Vector W64 8 :=
  let v := sigma.foldl (b2Round (leWords64 16 blk)) (b2Start h t last)
  #v[h[0] ^^^ word64 v 0 ^^^ word64 v 8, h[1] ^^^ word64 v 1 ^^^ word64 v 9,
     h[2] ^^^ word64 v 2 ^^^ word64 v 10, h[3] ^^^ word64 v 3 ^^^ word64 v 11,
     h[4] ^^^ word64 v 4 ^^^ word64 v 12, h[5] ^^^ word64 v 5 ^^^ word64 v 13,
     h[6] ^^^ word64 v 6 ^^^ word64 v 14, h[7] ^^^ word64 v 7 ^^^ word64 v 15]

/-- A full buffer compressed because one more byte arrives: the counter grows first (R163, R165). -/
def b2Flush (c : B2bCtx) : B2bCtx :=
  let t := c.t + 128#128
  { c with h := b2Compress c.h c.buf t false, t := t, buf := [] }

/-- One message byte: compression is lazy, only when the buffer is full and a byte arrives (R165). -/
def b2Byte (c : B2bCtx) (x : Byte) : B2bCtx :=
  let c := if c.buf.length = 128 then b2Flush c else c
  { c with buf := c.buf ++ [x] }

/-- The message bytes in order (R165). -/
def b2Update (c : B2bCtx) (m : Bytes) : B2bCtx := m.foldl b2Byte c

/-- The context of a fresh hash: the parameter word enters `h[0]`, a key is the first block, zero padded (R164). -/
def b2Init (outlen : Nat) (key : Bytes) : B2bCtx :=
  { h := b2Iv.set 0 (b2Iv[0] ^^^ 0x01010000#64 ^^^ BitVec.ofNat 64 key.length <<< 8 ^^^ BitVec.ofNat 64 outlen),
    t := 0#128,
    buf := if 0 < key.length then padTo 128 key else [],
    outlen := outlen }

/-- The digest: the rest of the buffer, zero padded, is the last block (R166). -/
def b2Digest (c : B2bCtx) : Bytes :=
  let h := b2Compress c.h (padTo 128 c.buf) (c.t + BitVec.ofNat 128 c.buf.length) true
  (h.toList.flatMap bytes64).take c.outlen

/-- B2B_INIT (R164). -/
def execB2bInit (outlen : BitVec 7) (len : BitVec 16) (s : State) : Result :=
  inRange (b2bParamsOk outlen len) s <|
    finish [] (setLive .b2b { s with b2b := b2Init outlen.toNat (ibData s len) })

/-- B2B_UPDATE (R165). -/
def execB2bUpdate (len : BitVec 16) (s : State) : Result :=
  inRange (chunkLenOk len) s <| whenLive .b2b s <|
    finish [] { s with b2b := b2Update s.b2b (ibData s len) }

/-- B2B_FINAL (R166). -/
def execB2bFinal (s : State) : Result := whenLive .b2b s <| finish (b2Digest s.b2b) (endB2b s)

end Sys2Proof.Machine
end

