-- ==== Sys2Proof/Machine/ChaCha20.lean ====
section
/-! DEFINITION. chacha20_core: CC20_XOR and CC20_H (spec 40_chacha20.md). -/

namespace Sys2Proof.Machine

/-- The quarter round on four words (R121). -/
def ccQuarter (a b c d : W32) : W32 × W32 × W32 × W32 :=
  let a := a + b
  let d := rotl32 (d ^^^ a) 16
  let c := c + d
  let b := rotl32 (b ^^^ c) 12
  let a := a + b
  let d := rotl32 (d ^^^ a) 8
  let c := c + d
  let b := rotl32 (b ^^^ c) 7
  (a, b, c, d)

/-- `QR(a,b,c,d)` on the words of an array at four indices (R121). -/
def ccQr (a b c d : Nat) (x : List W32) : List W32 :=
  let q := ccQuarter (word32 x a) (word32 x b) (word32 x c) (word32 x d)
  (((x.set a q.1).set b q.2.1).set c q.2.2.1).set d q.2.2.2

/-- One column round and one diagonal round (R121). -/
def ccDoubleRound (x : List W32) : List W32 :=
  let x := ccQr 0 4 8 12 x
  let x := ccQr 1 5 9 13 x
  let x := ccQr 2 6 10 14 x
  let x := ccQr 3 7 11 15 x
  let x := ccQr 0 5 10 15 x
  let x := ccQr 1 6 11 12 x
  let x := ccQr 2 7 8 13 x
  ccQr 3 4 9 14 x

/-- `cc_rounds(s)`: the 20-round permutation (R121). -/
def ccRounds (s : List W32) : List W32 := Nat.iterate ccDoubleRound 10 s

/-- The 16 state words: the constants, the key, and the last four words (R120). -/
def ccState (key : Bytes) (tail : List W32) : List W32 := ccConstants ++ leWords32 8 key ++ tail

/-- `cc_block(s)`: the permuted state added word by word to the input state, serialised (R123). -/
def ccBlock (s : List W32) : Bytes := (List.zipWith (fun x y => x + y) (ccRounds s) s).flatMap bytes32

/-- `cc_h(K, I)`: words 0 to 3 and 12 to 15 of the permuted state, with no addition of the input state (R127). -/
def ccH (key input : Bytes) : Bytes :=
  let x := ccRounds (ccState key (leWords32 4 input))
  (x.take 4 ++ x.drop 12).flatMap bytes32

/-- What a nonce convention makes of the operands: the key used, the composite 64-bit counter `c0` and the last two
state words (R122). -/
structure CcParams where
  key : Bytes
  c0 : W64
  n0 : W32
  n1 : W32
  deriving DecidableEq, Repr

/-- The table of R122: `key` is K, `nonce` the 24-byte nonce field N, `ctr` the 8-byte counter field. -/
def ccParams (conv : Conv) (key nonce ctr : Bytes) : CcParams :=
  match conv with
  | .djb => { key := key, c0 := le64 ctr, n0 := le32 (slice nonce 0 4), n1 := le32 (slice nonce 4 4) }
  | .ietf =>
    { key := key, c0 := BitVec.ofNat 64 (le ctr % 2 ^ 32 + le (slice nonce 0 4) * 2 ^ 32),
      n0 := le32 (slice nonce 4 4), n1 := le32 (slice nonce 8 4) }
  | .x =>
    { key := ccH key (slice nonce 0 16), c0 := le64 ctr, n0 := le32 (slice nonce 16 4),
      n1 := le32 (slice nonce 20 4) }

/-- Block `i` of the keystream: the state holds `c = (c0 + i) mod 2^64` in words 12 and 13 (R122, R124, R125). -/
def ccKeystream (p : CcParams) (i : Nat) : Bytes :=
  let c := p.c0 + BitVec.ofNat 64 i
  ccBlock (ccState p.key [c.setWidth 32, (c >>> 32).setWidth 32, p.n0, p.n1])

/-- The number of blocks of a text of `n` bytes, `ceil(n / 64)` (R125). -/
def ccBlocks (n : Nat) : Nat := (n + 63) / 64

/-- The output of CC20_XOR: for every block the first `m` keystream bytes, alone (KS = 1) or xored onto the text
(R125). With KS = 1 the text is not read. -/
def ccOutput (p : CcParams) (ks : Bool) (text : Bytes) (n : Nat) : Bytes :=
  (List.range (ccBlocks n)).flatMap fun i =>
    let stream := (ccKeystream p i).take (min 64 (n - 64 * i))
    if ks then stream else xorBytes (slice text (64 * i) (min 64 (n - 64 * i))) stream

/-- The returned counter: CTR_LO and, but for the IETF convention, CTR_HI (R125, R28). -/
def ccReturnCounter (conv : Conv) (cN : W64) (s : State) : State :=
  { s with
    ctrLo := cN.setWidth 32
    ctrHi := match conv with
      | .ietf => 0#32
      | .djb | .x => (cN >>> 32).setWidth 32 }

/-- The operands of CC20_XOR: `K = IB[0..32)`, `N = IB[32..56)`, `C = IB[56..64)` (R125). -/
def ccOperands (conv : Conv) (s : State) : CcParams := ccParams conv (ibBytes s 0 32) (ibBytes s 32 24) (ibBytes s 56 8)

/-- CC20_XOR: encrypt, decrypt or generate keystream (R125). -/
def execCc20Xor (conv : Conv) (ks : Bool) (len : BitVec 16) (s : State) : Result :=
  inRange (textLenOk len) s <|
    let p := ccOperands conv s
    let out := ccOutput p ks (ibBytes s 64 len.toNat) len.toNat
    finish out (ccReturnCounter conv (p.c0 + BitVec.ofNat 64 (ccBlocks len.toNat)) s)

/-- CC20_H: the H function as a command (R126). -/
def execCc20H (s : State) : Result := finish (ccH (ibBytes s 0 32) (ibBytes s 32 16)) s

end Sys2Proof.Machine
end

