-- ==== Sys2Proof/Machine/Field.lean ====
section
/-! DEFINITION. field_inversion and field_sqrt: FE_INV and FE_ISQRT, and the field operations that the curve units share
(spec 45_field.md). A field value is a natural in `[0, p)` (R225). -/

namespace Sys2Proof.Machine

/-- `fe_in(S)`: bit 255 is ignored, the value is reduced mod p (R226). -/
def feIn (s : Bytes) : Nat := le s % 2 ^ 255 % fieldP

/-- `fe_out(v)` (R227). -/
def feOut (v : Nat) : Bytes := tole 32 (v % fieldP)

/-- `fadd` (R228). -/
def fadd (a b : Nat) : Nat := (a + b) % fieldP

/-- `fsub`: `(a - b) mod p` (R228); `p - b mod p` stands for `-b`. -/
def fsub (a b : Nat) : Nat := (a + (fieldP - b % fieldP)) % fieldP

/-- `fneg` (R228). -/
def fneg (a : Nat) : Nat := (fieldP - a % fieldP) % fieldP

/-- `fmul` (R228). -/
def fmul (a b : Nat) : Nat := a * b % fieldP

/-- `fsq` (R228). -/
def fsq (a : Nat) : Nat := a * a % fieldP

/-- Square and multiply, from the low bit up, for exponents below `2^fuel`; the accumulator holds what the bits below
have made. -/
def fpowLoop : Nat → Nat → Nat → Nat → Nat
  | 0, _, _, acc => acc
  | fuel + 1, a, e, acc => fpowLoop fuel (fsq a) (e / 2) (if e % 2 = 1 then fmul acc a else acc)

/-- `fpow(a, e) = a^e mod p`, with `fpow(a, 0) = 1` (R229). Any way to the value will do: the source's addition chain
"does not matter to the value". -/
def fpow (a e : Nat) : Nat := fpowLoop (Nat.log2 e + 1) a e 1

/-- `is_neg(a)` (R230). -/
def isNeg (a : Nat) : Bool := a % 2 == 1

/-- `x^(p-2)`: the inverse, and 0 for 0 (R232). -/
def feInverse (x : Nat) : Nat := fpow x (fieldP - 2)

/-- The value and the is-square bit of FE_ISQRT, with the four equality checks (R233). -/
def feInvSqrt (x : Nat) : Nat × Bool :=
  let t := fpow x ((fieldP - 5) / 8)
  let q := fmul (fsq t) x
  let z0 := x == 0
  let p1 := q == 1
  let m1 := q == fieldP - 1
  let ms := q == fieldP - sqrtm1
  (if m1 || ms then fmul t sqrtm1 else t, p1 || m1 || z0)

/-- FE_INV (R232). -/
def execFeInv (s : State) : Result := finish (feOut (feInverse (feIn (ibBytes s 0 32)))) s

/-- FE_ISQRT: the only command that can set RF (R233). -/
def execFeIsqrt (s : State) : Result :=
  let r := feInvSqrt (feIn (ibBytes s 0 32))
  .next (done (feOut r.1) r.2 s)

end Sys2Proof.Machine
end

