-- ==== Sys2Proof/Machine/Curve25519.lean ====
section
/-! DEFINITION. curve25519_ladder: X_LADDER (spec 47_curve25519.md). -/

namespace Sys2Proof.Machine

/-- `trim(S)`: clear the low 3 bits, clear the top bit, set the second-highest bit of a 32-byte string (R270). -/
def trim (s : Bytes) : Bytes :=
  let s := s.set 0 (s.getD 0 0#8 &&& 0xF8#8)
  let s := s.set 31 (s.getD 31 0#8 &&& 0x7F#8)
  s.set 31 (s.getD 31 0#8 ||| 0x40#8)

/-- The working values of the ladder (R272). -/
structure LadderVars where
  x2 : Nat
  z2 : Nat
  x3 : Nat
  z3 : Nat
  swap : Bool
  deriving DecidableEq, Repr

/-- The conditional swap of both pairs (R272, R231). -/
def ladderSwap (c : Bool) (v : LadderVars) : LadderVars :=
  if c then { v with x2 := v.x3, x3 := v.x2, z2 := v.z3, z3 := v.z2 } else v

/-- The arithmetic of one ladder step, after the swap (R272). -/
def ladderArith (x1 : Nat) (v : LadderVars) : LadderVars :=
  let a := fadd v.x2 v.z2
  let aa := fsq a
  let b := fsub v.x2 v.z2
  let bb := fsq b
  let e := fsub aa bb
  let c := fadd v.x3 v.z3
  let d := fsub v.x3 v.z3
  let da := fmul d a
  let cb := fmul c b
  { x3 := fsq (fadd da cb), z3 := fmul x1 (fsq (fsub da cb)), x2 := fmul aa bb,
    z2 := fmul e (fadd aa (fmul a24 e)), swap := v.swap }

/-- One iteration, for bit `t` of `k` (R272). -/
def ladderStep (k x1 : Nat) (v : LadderVars) (t : Nat) : LadderVars :=
  let kt := bitAt k t
  let v := ladderSwap (v.swap ^^ kt) v
  ladderArith x1 { v with swap := kt }

/-- `ladder(k, x1, nb)` (R272). -/
def ladder (k x1 nb : Nat) : Nat :=
  let v := (downFrom nb).foldl (ladderStep k x1) { x2 := 1, z2 := 0, x3 := x1, z3 := 1, swap := false }
  let v := ladderSwap v.swap v
  fmul v.x2 (fpow v.z2 (fieldP - 2))

/-- X_LADDER (R271). -/
def execXLadder (trim w : Bool) (s : State) : Result :=
  let scalar := ibBytes s 0 32
  let k := le (if trim then Sys2Proof.Machine.trim scalar else scalar)
  finish (feOut (ladder k (feIn (ibBytes s 32 32)) (if w then 256 else 255))) s

end Sys2Proof.Machine
end

