-- ==== Sys2Proof/Machine/Ed25519.lean ====
section
/-! DEFINITION. ed25519_point_add and ed25519_scalar_mult: GE_ADD, GE_SMUL_BASE, GE_SMUL_VAR (spec 48_ed25519.md). -/

namespace Sys2Proof.Machine

/-- A point in extended projective coordinates, four field values (R286). -/
structure Point where
  x : Nat
  y : Nat
  z : Nat
  t : Nat
  deriving DecidableEq, Repr

/-- The cached form `(Y+X, Y-X, Z, T*2d)` (R289). -/
structure Cached where
  yp : Nat
  ym : Nat
  z : Nat
  t2d : Nat
  deriving DecidableEq, Repr

/-- The neutral element `(0, 1, 1, 0)` (R286). -/
def geNeutral : Point := { x := 0, y := 1, z := 1, t := 0 }

/-- The base point `(Bx, By, 1, Bx*By)` (R285, R300). -/
def geBase : Point := { x := baseX, y := baseY, z := 1, t := fmul baseX baseY }

/-- The cached form of a point (R289). -/
def geCache (q : Point) : Cached := { yp := fadd q.y q.x, ym := fsub q.y q.x, z := q.z, t2d := fmul q.t edD2 }

/-- The cached form of `-Q` from that of `Q` (R289). -/
def geCacheNeg (c : Cached) : Cached := { yp := c.ym, ym := c.yp, z := c.z, t2d := fneg c.t2d }

/-- The addition formulas of R290, on a point and a cached point. -/
def geAddCached (q : Point) (c : Cached) : Point :=
  let a := fmul (fadd q.y q.x) c.yp
  let b := fmul (fsub q.y q.x) c.ym
  let cc := fmul q.t c.t2d
  let d := fmul (fmul 2 q.z) c.z
  let e := fsub a b
  let f := fsub d cc
  let g := fadd d cc
  let h := fadd a b
  { x := fmul e f, y := fmul h g, z := fmul g f, t := fmul e h }

/-- `P1 + Q` or, with SUB = 1, `P1 - Q` (R290). -/
def geSum (sub : Bool) (p q : Point) : Point := geAddCached p (if sub then geCacheNeg (geCache q) else geCache q)

/-- One iteration of the double-and-add of R292, for bit `t` of `k`. -/
def geSmulStep (k : Nat) (pt : Point) (q : Point) (t : Nat) : Point :=
  let q := geSum false q q
  if bitAt k t then geSum false q pt else q

/-- `ge_smul(k, Pt)` (R292). -/
def geSmul (k : Nat) (pt : Point) : Point := (downFrom 256).foldl (geSmulStep k pt) geNeutral

/-- The 128 bytes of a point (R286). -/
def pointBytes (q : Point) : Bytes := feOut q.x ++ feOut q.y ++ feOut q.z ++ feOut q.t

/-- The point of 128 operand bytes, each part read with `fe_in` (R286). -/
def pointOf (s : Bytes) : Point :=
  { x := feIn (slice s 0 32), y := feIn (slice s 32 32), z := feIn (slice s 64 32), t := feIn (slice s 96 32) }

/-- The compressed form of the affine point `(x, y)` (R287). -/
def geCompress (x y : Nat) : Bytes := tole 32 (y + 2 ^ 255 * (if isNeg x then 1 else 0))

/-- `ge_out(Q)`: the affine point with Z = 1, then its compressed form, 160 bytes (R293). -/
def geOut (q : Point) : Bytes :=
  let zi := fpow q.z (fieldP - 2)
  let x := fmul q.x zi
  let y := fmul q.y zi
  pointBytes { x := x, y := y, z := 1, t := fmul x y } ++ geCompress x y

/-- `-x^2 + y^2 = 1 + d x^2 y^2` (R285). -/
def onCurve (x y : Nat) : Bool := fsub (fsq y) (fsq x) == fadd 1 (fmul edD (fmul (fsq x) (fsq y)))

/-- The conditions of R286: `Z ≠ 0`, `T*Z = X*Y`, and `(X/Z, Y/Z)` on the curve. -/
def pointValid (q : Point) : Bool :=
  q.z != 0 && fmul q.t q.z == fmul q.x q.y &&
    onCurve (fmul q.x (fpow q.z (fieldP - 2))) (fmul q.y (fpow q.z (fieldP - 2)))

/-- `ge_decode(C)`: none where `u*v` is not a square (R288). -/
def geDecode (c : Bytes) : Option Point :=
  let y := feIn c
  let sign := (c.getD 31 0#8).getLsbD 7
  let u := fsub (fsq y) 1
  let v := fadd (fmul edD (fsq y)) 1
  let r := feInvSqrt (fmul u v)
  if r.2 then
    let x := fmul u r.1
    let x := if isNeg x != sign then fneg x else x
    some { x := x, y := y, z := 1, t := fmul x y }
  else none

/-- GE_ADD: total, the value of the formulas for any 256 bytes (R290). -/
def execGeAdd (sub : Bool) (s : State) : Result :=
  finish (pointBytes (geSum sub (pointOf (ibBytes s 0 128)) (pointOf (ibBytes s 128 128)))) s

/-- GE_SMUL_BASE (R300). -/
def execGeSmulBase (s : State) : Result := finish (geOut (geSmul (ibScalar s 0) geBase)) s

/-- GE_SMUL_VAR on a compressed point, CIN = 1: DECODE_FAIL where it does not decode (R301, R333). -/
def smulCompressed (s : State) : Result :=
  match geDecode (ibBytes s 32 32) with
  | none => fail .decodeFail s
  | some pt => finish (geOut (geSmul (ibScalar s 0) pt)) s

/-- GE_SMUL_VAR on an extended point, CIN = 0. For an invalid point the 160 result bytes are unspecified (R301, U2): a
free value, drawn afresh. -/
def smulExtended (s : State) : Result :=
  let pt := pointOf (ibBytes s 32 128)
  if pointValid pt then finish (geOut (geSmul (ibScalar s 0) pt)) s
  else finish (tole 160 (Config.smulFree s.draws).toNat) (drawn s)

/-- GE_SMUL_VAR (R301). -/
def execGeSmulVar (cin : Bool) (s : State) : Result := if cin then smulCompressed s else smulExtended s

end Sys2Proof.Machine
end

