-- ==== Sys2Proof/Machine/Sha512.lean ====
section
/-! DEFINITION. sha512_core: S512_INIT, S512_UPDATE, S512_FINAL, and the SHA-512 operations that hmac_sha512 shares (spec
43_sha512_hmac.md sections 1 and 2). Words are big-endian in byte strings (R67). -/

namespace Sys2Proof.Machine

/-- `s0` of the message schedule (R182). -/
def shaSmall0 (x : W64) : W64 := rotr64 x 1 ^^^ rotr64 x 8 ^^^ x >>> 7

/-- `s1` of the message schedule (R182). -/
def shaSmall1 (x : W64) : W64 := rotr64 x 19 ^^^ rotr64 x 61 ^^^ x >>> 6

/-- The next schedule word `w[t]`, where `w` holds words 0 to t-1 (R182). -/
def shaNext (w : List W64) : W64 :=
  let t := w.length
  word64 w (t - 16) + shaSmall0 (word64 w (t - 15)) + word64 w (t - 7) + shaSmall1 (word64 w (t - 2))

/-- The 80 schedule words of a block (R182). -/
def shaSchedule (blk : Bytes) : List W64 := Nat.iterate (fun w => w ++ [shaNext w]) 64 (beWords64 16 blk)

/-- The eight working variables `(a,b,c,d,e,f,g,hh)` (R182). -/
structure ShaVars where
  a : W64
  b : W64
  c : W64
  d : W64
  e : W64
  f : W64
  g : W64
  hh : W64
  deriving DecidableEq, Repr

/-- One of the 80 rounds, with its round constant and schedule word (R182). -/
def shaRound (v : ShaVars) (kw : W64 × W64) : ShaVars :=
  let s1 := rotr64 v.e 14 ^^^ rotr64 v.e 18 ^^^ rotr64 v.e 41
  let ch := (v.e &&& v.f) ^^^ (~~~v.e &&& v.g)
  let t1 := v.hh + s1 + ch + kw.1 + kw.2
  let s0 := rotr64 v.a 28 ^^^ rotr64 v.a 34 ^^^ rotr64 v.a 39
  let maj := (v.a &&& v.b) ^^^ (v.a &&& v.c) ^^^ (v.b &&& v.c)
  let t2 := s0 + maj
  { a := t1 + t2, b := v.a, c := v.b, d := v.c, e := v.d + t1, f := v.e, g := v.f, hh := v.g }

/-- `sha_compress(h, blk)` (R182). -/
def shaCompress (h : Vector W64 8) (blk : Bytes) : Vector W64 8 :=
  let v := (List.zip shaK (shaSchedule blk)).foldl shaRound
    { a := h[0], b := h[1], c := h[2], d := h[3], e := h[4], f := h[5], g := h[6], hh := h[7] }
  #v[h[0] + v.a, h[1] + v.b, h[2] + v.c, h[3] + v.d, h[4] + v.e, h[5] + v.f, h[6] + v.g, h[7] + v.hh]

/-- A fresh SHA-512 context: `h = H0`, buffer empty, `nbits = 0` (R184). -/
def shaFresh : ShaCtx := { h := shaH0, buf := [], nbits := 0#128 }

/-- One message byte: a full buffer is compressed at once (R188). -/
def shaByte (c : ShaCtx) (x : Byte) : ShaCtx :=
  let buf := c.buf ++ [x]
  let nbits := c.nbits + 8#128
  if buf.length = 128 then { h := shaCompress c.h buf, buf := [], nbits := nbits }
  else { c with buf := buf, nbits := nbits }

/-- `sha_absorb(C, M)` (R188). -/
def shaAbsorb (c : ShaCtx) (m : Bytes) : ShaCtx := m.foldl shaByte c

/-- The eight words of a chaining value as 64 bytes, big-endian (R187). -/
def shaBytes (h : Vector W64 8) : Bytes := h.toList.flatMap bytesBe64

/-- `sha_finish(C)`: the 64-byte digest, with one or two compressions of the padding (R187). -/
def shaFinish (c : ShaCtx) : Bytes :=
  let b := c.buf ++ [0x80#8]
  let long := decide (112 < b.length)
  let h := if long then shaCompress c.h (padTo 128 b) else c.h
  let b := if long then [] else b
  shaBytes (shaCompress h (padTo 112 b ++ tobe 16 c.nbits.toNat))

/-- `sha512(X)`: the digest of one string, with a private context (R189). -/
def sha512 (x : Bytes) : Bytes := shaFinish (shaAbsorb shaFresh x)

/-- S512_INIT (R184). -/
def execS512Init (s : State) : Result := finish [] (setLive .sha { s with sha := shaFresh })

/-- S512_UPDATE (R185). -/
def execS512Update (len : BitVec 16) (s : State) : Result :=
  inRange (chunkLenOk len) s <| whenLive .sha s <|
    finish [] { s with sha := shaAbsorb s.sha (ibData s len) }

/-- S512_FINAL (R186). -/
def execS512Final (s : State) : Result := whenLive .sha s <| finish (shaFinish s.sha) (endSha s)

end Sys2Proof.Machine
end

