-- ==== Sys2Proof/Machine/Hmac.lean ====
section
/-! DEFINITION. hmac_sha512: HMAC_INIT, HMAC_UPDATE, HMAC_FINAL (spec 43_sha512_hmac.md section 3). -/

namespace Sys2Proof.Machine

/-- `kblock`: the key, hashed first when longer than 128 bytes, padded with zeros to 128 bytes (R189, R190). -/
def hmacKeyBlock (key : Bytes) : Bytes := padTo 128 (if 128 < key.length then sha512 key else key)

/-- The context of a fresh MAC: the inner hash has absorbed the key block xored with 0x36 (R190). -/
def hmacStart (key : Bytes) : HmacCtx :=
  { kblock := hmacKeyBlock key, inner := shaAbsorb shaFresh (xorByte (hmacKeyBlock key) 0x36#8) }

/-- The MAC: the outer hash of the key block xored with 0x5c and the inner digest (R192). -/
def hmacMac (c : HmacCtx) : Bytes :=
  shaFinish (shaAbsorb shaFresh (xorByte c.kblock 0x5c#8 ++ shaFinish c.inner))

/-- HMAC_INIT (R190). -/
def execHmacInit (len : BitVec 16) (s : State) : Result :=
  inRange (chunkLenOk len) s <| finish [] (setLive .hmac { s with hmac := hmacStart (ibData s len) })

/-- HMAC_UPDATE (R191). -/
def execHmacUpdate (len : BitVec 16) (s : State) : Result :=
  inRange (chunkLenOk len) s <| whenLive .hmac s <|
    finish [] { s with hmac := { s.hmac with inner := shaAbsorb s.hmac.inner (ibData s len) } }

/-- HMAC_FINAL (R192). -/
def execHmacFinal (s : State) : Result := whenLive .hmac s <| finish (hmacMac s.hmac) (endHmac s)

end Sys2Proof.Machine
end

