-- ==== Sys2Proof/Machine/Poly1305.lean ====
section
/-! DEFINITION. poly1305_mac: P1305_INIT, P1305_UPDATE, P1305_FINAL (spec 41_poly1305.md). -/

namespace Sys2Proof.Machine

/-- The number a block of 1 to 16 bytes stands for: a full block gets bit 128, a partial block one 0x01 byte and then
zeros (R140). -/
def polyBlock (b : Bytes) : Nat :=
  if b.length = 16 then le b + 2 ^ 128 else le (b ++ 1#8 :: zeros (15 - b.length))

/-- `p_absorb(b)` (R140). -/
def polyAbsorb (b : Bytes) (c : PolyCtx) : PolyCtx := { c with h := (c.h + polyBlock b) * c.r.toNat % p1305 }

/-- One message byte enters the buffer; a full buffer is absorbed at once (R142). -/
def polyByte (c : PolyCtx) (x : Byte) : PolyCtx :=
  let buf := c.buf ++ [x]
  if buf.length = 16 then { polyAbsorb buf c with buf := [] } else { c with buf := buf }

/-- The message bytes in order (R142). -/
def polyUpdate (c : PolyCtx) (m : Bytes) : PolyCtx := m.foldl polyByte c

/-- The context of a fresh key (R141). -/
def polyInit (key : Bytes) : PolyCtx :=
  { r := BitVec.ofNat 128 (le (slice key 0 16)) &&& clampMask, pad := BitVec.ofNat 128 (le (slice key 16 16)),
    h := 0, buf := [] }

/-- The tag: the partial block, if any, is absorbed, then the pad is added mod 2^128 (R143). -/
def polyTag (c : PolyCtx) : Bytes :=
  let c := if 0 < c.buf.length then polyAbsorb c.buf c else c
  tole 16 ((c.h + c.pad.toNat) % 2 ^ 128)

/-- P1305_INIT (R141). -/
def execP1305Init (s : State) : Result := finish [] (setLive .poly { s with poly := polyInit (ibBytes s 0 32) })

/-- P1305_UPDATE (R142). -/
def execP1305Update (len : BitVec 16) (s : State) : Result :=
  inRange (chunkLenOk len) s <| whenLive .poly s <|
    finish [] { s with poly := polyUpdate s.poly (ibData s len) }

/-- P1305_FINAL (R143). -/
def execP1305Final (s : State) : Result := whenLive .poly s <| finish (polyTag s.poly) (endPoly s)

end Sys2Proof.Machine
end

