-- ==== Sys2Proof/Machine/Scalar.lean ====
section
/-! DEFINITION. montgomery_mult and barrett_reduce: MMUL, BRED, BMAD (spec 46_scalar.md). -/

namespace Sys2Proof.Machine

/-- MMUL's precondition, `a * b < L * 2^256` (R252). -/
def montOk (a b : Nat) : Bool := decide (a * b < groupL * 2 ^ 256)

/-- The Montgomery product, step by step (R252). -/
def montMul (a b : Nat) : Nat :=
  let prod := a * b
  let s := prod % 2 ^ 256 * kmont % 2 ^ 256
  let u := (prod + s * groupL) / 2 ^ 256
  if groupL ≤ u then u - groupL else u

/-- The Barrett steps (R254). -/
def barrett (x : Nat) : Nat :=
  let q := x * mu / 2 ^ 512
  let r := x - q * groupL
  if groupL ≤ r then r - groupL else r

/-- MMUL (R252). Where the precondition fails the 32 result bytes are unspecified (U1): a free value, drawn afresh. -/
def execMmul (s : State) : Result :=
  let a := ibScalar s 0
  let b := ibScalar s 32
  if montOk a b then finish (tole 32 (montMul a b)) s
  else finish (tole 32 (Config.mmulFree s.draws).toNat) (drawn s)

/-- BRED (R254). -/
def execBred (s : State) : Result := finish (tole 32 (barrett (le (ibBytes s 0 64)))) s

/-- BMAD (R255). -/
def execBmad (s : State) : Result :=
  finish (tole 32 (barrett (ibScalar s 0 * ibScalar s 32 + ibScalar s 64))) s

end Sys2Proof.Machine
end

