-- ==== Sys2Proof/Machine/Wipe.lean ====
section
/-! DEFINITION. The utility command WIPE (spec 49_system.md). -/

namespace Sys2Proof.Machine

/-- `if MASK[i] = 1`: apply one of WIPE's six effects. -/
def wipeIf (mask : BitVec 6) (i : Nat) (effect : State → State) (s : State) : State :=
  if mask.getLsbD i then effect s else s

/-- The six effects of WIPE, in R320's order: IB, OB, and the four contexts with their LIVE bits. -/
def wipeSelected (mask : BitVec 6) (s : State) : State :=
  let s := wipeIf mask 0 (fun s => { s with ib := [] }) s
  let s := wipeIf mask 1 (fun s => { s with ob := [] }) s
  let s := wipeIf mask 2 endPoly s
  let s := wipeIf mask 3 endB2b s
  let s := wipeIf mask 4 endSha s
  wipeIf mask 5 endHmac s

/-- WIPE: zero selected state (R320). -/
def execWipe (mask : BitVec 6) (s : State) : Result := finish [] (wipeSelected mask s)

end Sys2Proof.Machine
end

