-- ==== Sys2Proof/Machine/Dispatch.lean ====
section
/-! DEFINITION. One arm for each command: the meaning of an instruction in a state. -/

namespace Sys2Proof.Machine

def exec (i : Instr) (s : State) : Host.Outcome State Fault Refusal :=
  match i with
  | .wipe mask => Sys2Proof.Machine.execWipe mask s
  | .cc20Xor conv ks len => Sys2Proof.Machine.execCc20Xor conv ks len s
  | .cc20H => Sys2Proof.Machine.execCc20H s
  | .p1305Init => Sys2Proof.Machine.execP1305Init s
  | .p1305Update len => Sys2Proof.Machine.execP1305Update len s
  | .p1305Final => Sys2Proof.Machine.execP1305Final s
  | .b2bInit outlen len => Sys2Proof.Machine.execB2bInit outlen len s
  | .b2bUpdate len => Sys2Proof.Machine.execB2bUpdate len s
  | .b2bFinal => Sys2Proof.Machine.execB2bFinal s
  | .s512Init => Sys2Proof.Machine.execS512Init s
  | .s512Update len => Sys2Proof.Machine.execS512Update len s
  | .s512Final => Sys2Proof.Machine.execS512Final s
  | .hmacInit len => Sys2Proof.Machine.execHmacInit len s
  | .hmacUpdate len => Sys2Proof.Machine.execHmacUpdate len s
  | .hmacFinal => Sys2Proof.Machine.execHmacFinal s
  | .a2Fill xor => Sys2Proof.Machine.execA2Fill xor s
  | .feInv => Sys2Proof.Machine.execFeInv s
  | .feIsqrt => Sys2Proof.Machine.execFeIsqrt s
  | .mmul => Sys2Proof.Machine.execMmul s
  | .bred => Sys2Proof.Machine.execBred s
  | .bmad => Sys2Proof.Machine.execBmad s
  | .xLadder trim w => Sys2Proof.Machine.execXLadder trim w s
  | .geAdd sub => Sys2Proof.Machine.execGeAdd sub s
  | .geSmulBase => Sys2Proof.Machine.execGeSmulBase s
  | .geSmulVar cin => Sys2Proof.Machine.execGeSmulVar cin s

end Sys2Proof.Machine
end

