-- ==== Sys2Proof/Machine/Bus.lean ====
section
/-! DEFINITION. The window (spec 20_memory.md): what a bus write, a bus read and a reset do, and the command word that a
write to CMD carries. -/

namespace Sys2Proof.Machine

/-- The ranges of the address map (R66). The registers' range runs to 0x0FFF: above 0x0017 it is reserved. -/
inductive Region where
  | registers
  | ib
  | ob
  | reserved
  | outside
  deriving DecidableEq, Repr

/-- The range an offset lies in (R66). -/
def regionOf (off : Nat) : Region :=
  if off < 0x1000 then .registers
  else if off < 0x2000 then .ib
  else if off < 0x2400 then .ob
  else if off < Config.windowBytes then .reserved
  else .outside

/-- The offset of an address of the host's address map: none outside the window at BASE (R60). -/
def busOffset (addr : Nat) : Option Nat :=
  if Config.base ≤ addr ∧ addr < Config.base + Config.windowBytes then some (addr - Config.base) else none

/-- Execution of a command word (R95): an illegal word has the failure effect with code ILLEGAL (R96), a legal one
the meaning of its command. -/
def issue (w : W32) (s : State) : Result :=
  match decode w with
  | .error _ => fail .illegal s
  | .ok i => exec i s

/-- A register access is an aligned 32-bit word (R61). -/
def wordAccess (off n : Nat) : Bool := decide (off % 4 = 0) && decide (n = 4)

/-- A write to the registers' range: at CMD it executes the word (R66, R68), elsewhere it is ignored (R65). -/
def writeRegister (off : Nat) (data : Bytes) (s : State) : Result :=
  if wordAccess off data.length then (if off = 0 then issue (le32 data) s else .next s)
  else .refused .registerAccess

/-- A bus write of at least one byte (R62, R65, R66). -/
def busWrite (off : Nat) (data : Bytes) (s : State) : Result :=
  if data.length = 0 then .refused .emptyWrite
  else
    match regionOf off with
    | .registers => writeRegister off data s
    | .ib =>
      if off + data.length ≤ 0x2000 then .next { s with ib := memWriteBytes s.ib (off - 0x1000) data }
      else .refused .pastBufferEnd
    | .ob => if off + data.length ≤ 0x2400 then .next s else .refused .pastBufferEnd
    | .reserved => if off + data.length ≤ Config.windowBytes then .next s else .refused .outsideWindow
    | .outside => .refused .outsideWindow

/-- The value a host read of a register returns; CMD and the reserved offsets read 0 (R25, R66). -/
def registerValue (s : State) (off : Nat) : W32 :=
  if off = 0x04 then s.status
  else if off = 0x08 then s.rlen
  else if off = 0x0C then s.ctrLo
  else if off = 0x10 then s.ctrHi
  else if off = 0x14 then s.live
  else 0#32

/-- A read that returns some bytes: nothing of the block changes (R64). -/
def answer (bytes : Bytes) (s : State) : Result := .next { s with readData := bytes }

/-- A bus read (R61, R63, R64, R65, R66). -/
def busRead (off n : Nat) (s : State) : Result :=
  match regionOf off with
  | .registers => if wordAccess off n then answer (bytes32 (registerValue s off)) s else .refused .registerAccess
  | .ib => if off + n ≤ 0x2000 then answer (memReadBytes s.ib (off - 0x1000) n) s else .refused .pastBufferEnd
  | .ob => if off + n ≤ 0x2400 then answer (memReadBytes s.ob (off - 0x2000) n) s else .refused .pastBufferEnd
  | .reserved => if off + n ≤ Config.windowBytes then answer (zeros n) s else .refused .outsideWindow
  | .outside => .refused .outsideWindow

/-- The block's reset (R360): the whole architectural state takes its reset value. The host's later moves, what the host
last read, and the count of draws are no state of the block and stay (log 6, 10). -/
def applyReset (s : State) : State :=
  { State.reset with pending := s.pending, readData := s.readData, draws := s.draws }

/-- One host move (R73: in the order issued, each to its end). -/
def serve (m : HostMove) (s : State) : Result :=
  match m with
  | .write off data => busWrite off data s
  | .read off n => busRead off n s
  | .reset => .next (applyReset s)

/-- The next thing that happens: the oldest host move that is not yet served, or, where the host does nothing, an idle
block that "simply holds its state" (R341; log 2). -/
def serveNext (s : State) : Result :=
  match s.pending with
  | [] => .next s
  | m :: rest => serve m { s with pending := rest }

/-- The host move that executes a command word: a 32-bit write to CMD, at offset 0, lowest byte first (R63, R90). -/
def commandMove (w : W32) : HostMove := .write 0 (bytes32 w)

end Sys2Proof.Machine
end

