-- ==== Sys2Proof/Machine/Step.lean ====
section
/-! DEFINITION. One step of the block, and the placing of a command word where the next step takes it. -/

namespace Sys2Proof.Machine

/-- One step: the oldest host move is served (R70, R73). -/
def step (s : State) : Host.Outcome State Fault Refusal := serveNext s

/-- The state in which the host's next move writes this command word to CMD: the block fetches nothing (R24), its next
instruction is the word of the oldest move not yet served (log 1). -/
def State.withFetchWord (s : State) (nbits w : Nat) : State :=
  { s with pending := commandMove (BitVec.ofNat 32 (w % 2 ^ nbits)) :: s.pending }

end Sys2Proof.Machine
end

