-- ==== Sys2Proof/Safety.lean ====
section
/-! DEFINITION. What a good state of the block is: the ranges the spec gives its registers, buffers and contexts. -/

namespace Sys2Proof.Machine

/-- A SHA-512 context between commands: fewer than 128 bytes wait (R34, R188), and the bit count is that of whole blocks
and the bytes that wait (R183, R188). -/
structure ShaCtx.Ok (c : ShaCtx) : Prop where
  buf : c.buf.length ≤ 127
  nbits : c.nbits.toNat % 1024 = 8 * c.buf.length

/-- A good state. Every clause is a range or a value that a rule of the spec gives. -/
structure State.Inv (s : State) : Prop where
  /-- IB is canonical and has 4096 bytes (R21). -/
  ib : Memory.wf Config.ibBytes s.ib
  /-- OB is canonical and has 1024 bytes (R22). -/
  ob : Memory.wf Config.obBytes s.ob
  /-- STATUS holds one of the values of R330's table; BUSY is 0 (R26). -/
  status : s.status ∈ [0x00#32, 0x02#32, 0x10#32, 0x20#32, 0x30#32]
  /-- RLEN is 0 to 1024 (R27). -/
  rlen : s.rlen.toNat ≤ Config.obBytes
  /-- After a failed command RLEN is 0 (R27, R334). -/
  rlenFail : statusCode s.status ≠ 0#4 → s.rlen = 0#32
  /-- LIVE bits 31:4 are 0 (R29). -/
  live : s.live.toNat < 16
  /-- `P.h` is in `[0, p1305)` (R32). -/
  polyH : s.poly.h < p1305
  /-- `P.r` is clamped (R32, R141). -/
  polyR : s.poly.r &&& clampMask = s.poly.r
  /-- `P.buf` holds at most 15 bytes (R32). -/
  polyBuf : s.poly.buf.length ≤ 15
  /-- `B.buf` holds at most 128 bytes (R33). -/
  b2bBuf : s.b2b.buf.length ≤ 128
  /-- `B.outlen` is at most 64 (R33). -/
  b2bOutlen : s.b2b.outlen ≤ Config.b2bMax
  /-- A live BLAKE2b context has an output length of at least 1 (R33). -/
  b2bOutlenLive : isLive .b2b s = true → 1 ≤ s.b2b.outlen
  /-- The SHA-512 context (R34). -/
  sha : s.sha.Ok
  /-- The inner hash of HMAC (R35). -/
  hmacInner : s.hmac.inner.Ok
  /-- `H.kblock` has 128 bytes (R35). -/
  kblock : s.hmac.kblock.length = 128
  /-- A context whose LIVE bit is 0 holds all-zero fields (R31). -/
  polyIdle : isLive .poly s = false → s.poly = PolyCtx.zero
  b2bIdle : isLive .b2b s = false → s.b2b = B2bCtx.zero
  shaIdle : isLive .sha s = false → s.sha = ShaCtx.zero
  hmacIdle : isLive .hmac s = false → s.hmac = HmacCtx.zero

/-- A safe run: a step that answers a next state answers a good one. -/
def SafeStep (step : State → Result) : Prop := ∀ s t, s.Inv → step s = .next t → t.Inv

end Sys2Proof.Machine
end

