-- ==== Sys2Proof/Certificates/Slice0/Obligations.lean ====
section
/-! DEFINITION. The statements for the provers. The words they share come first, each written from the rules of the spec and not
from the model's own functions where the rule gives a closed form. -/

namespace Sys2Proof.Claims

open Sys2Proof.Machine

/-- The state `t` is `s` with the result bytes `v` at `OB[0..)`, RLEN their number and STATUS as given: every other field, and
every other byte of OB, is that of `s` (R97). -/
def Delivers (v : Bytes) (status : W32) (s t : State) : Prop :=
  t = { s with ob := t.ob, rlen := BitVec.ofNat 32 v.length, status := status } ∧
    memReadBytes t.ob 0 v.length = v ∧ ∀ a, v.length ≤ a → memRead t.ob a = memRead s.ob a

/-- The state after a failure whose STATUS value is given (R330, R334). -/
def failed (status : W32) (s : State) : State := { s with status := status, rlen := 0#32 }

/-- How the words of one OP are read: the command that FLAGS and LEN make, or ILLEGAL. -/
def Encoding (op : BitVec 8) (form : BitVec 8 → BitVec 16 → Option Instr) : Prop :=
  ∀ (flags : BitVec 8) (len : BitVec 16),
    match form flags len with
    | some i => decode (len ++ flags ++ op) = .ok i
    | none => ∀ s, issue (len ++ flags ++ op) s = .next (failed 0x10#32 s)

/-- Format N: FLAGS and LEN are 0 (R92). -/
def formN (i : Instr) (flags : BitVec 8) (len : BitVec 16) : Option Instr :=
  if flags.toNat = 0 ∧ len.toNat = 0 then some i else none

/-- Format L with a largest length: FLAGS is 0 (R92, R94). -/
def formL (max : Nat) (mk : BitVec 16 → Instr) (flags : BitVec 8) (len : BitVec 16) : Option Instr :=
  if flags.toNat = 0 ∧ len.toNat ≤ max then some (mk len) else none

/-- Format F with the one sub-field FLAGS[0] (R92, R94). -/
def formBit (mk : Bool → Instr) (flags : BitVec 8) (len : BitVec 16) : Option Instr :=
  if flags.toNat < 2 ∧ len.toNat = 0 then some (mk (flags.toNat == 1)) else none

/-- The full blocks of `n` bytes of a string, in order. -/
def blocks (n : Nat) (s : Bytes) : List Bytes := (List.range (s.length / n)).map fun i => slice s (n * i) n

/-- The bytes after the last full block of `n` bytes. -/
def rest (n : Nat) (s : Bytes) : Bytes := s.drop (n * (s.length / n))

/-- A message with the padding of R187: 0x80, zeros, the 16-byte big-endian bit count, to a multiple of 128 bytes. -/
def shaPadded (m : Bytes) (nbits : Nat) : Bytes :=
  m ++ [0x80#8] ++ zeros ((239 - m.length % 128) % 128) ++ tobe 16 nbits

/-- The chaining value after whole blocks (R188). -/
def shaBlocks (h : Vector W64 8) (s : Bytes) : Vector W64 8 := (blocks 128 s).foldl shaCompress h

/-- The field operand at `IB[a..a+32)` (R226). -/
def feOperand (s : State) (a : Nat) : Nat := le (memReadBytes s.ib a 32) % 2 ^ 255 % fieldP

/-- The scalar operand at `IB[a..a+32)` (R250). -/
def scalarOperand (s : State) (a : Nat) : Nat := le (memReadBytes s.ib a 32)

/-- The canonical 32 bytes of an integer mod p (R227). -/
def feBytes (v : Int) : Bytes := tole 32 (v % (fieldP : Int)).toNat

/-- R286 for a point with `Z`: `Z ≠ 0`, `T*Z = X*Y`, and the curve equation of R285 multiplied by `Z^4`. -/
def ValidPoint (q : Point) : Prop :=
  q.z % fieldP ≠ 0 ∧ q.t * q.z % fieldP = q.x * q.y % fieldP ∧
    q.y ^ 2 * q.z ^ 2 % fieldP = (q.z ^ 4 + edD * q.x ^ 2 * q.y ^ 2 + q.x ^ 2 * q.z ^ 2) % fieldP

/-- The point operand at `IB[a..a+128)` (R286). -/
def pointOperand (s : State) (a : Nat) : Point :=
  { x := feOperand s a, y := feOperand s (a + 32), z := feOperand s (a + 64), t := feOperand s (a + 96) }

/-- The words of block `i` of CC20_XOR (R120, R122, R125), read from IB by convention. -/
def ccBlockWords (conv : Conv) (s : State) (i : Nat) : List W32 :=
  let at4 := fun a => BitVec.ofNat 32 (le (memReadBytes s.ib a 4))
  let key := match conv with
    | .djb | .ietf => memReadBytes s.ib 0 32
    | .x => ccH (memReadBytes s.ib 0 32) (memReadBytes s.ib 32 16)
  let c0 := match conv with
    | .djb | .x => le (memReadBytes s.ib 56 8)
    | .ietf => le (memReadBytes s.ib 56 4) + le (memReadBytes s.ib 32 4) * 2 ^ 32
  let n := match conv with
    | .djb => [at4 32, at4 36]
    | .ietf => [at4 36, at4 40]
    | .x => [at4 48, at4 52]
  let c := (c0 + i) % 2 ^ 64
  ccConstants ++ (List.range 8).map (fun j => BitVec.ofNat 32 (le (slice key (4 * j) 4))) ++
    [BitVec.ofNat 32 c, BitVec.ofNat 32 (c / 2 ^ 32)] ++ n

/-- Keystream byte `j` of a CC20_XOR call (R123, R125). -/
def ccByte (conv : Conv) (s : State) (j : Nat) : Byte := (ccBlock (ccBlockWords conv s (j / 64))).getD (j % 64) 0#8

/-- The counter a CC20_XOR call of `n` bytes returns: CTR_LO, CTR_HI as one number (R125, R28). -/
def ccReturned (conv : Conv) (s : State) (n : Nat) : Nat :=
  match conv with
  | .djb | .x => (le (memReadBytes s.ib 56 8) + (n + 63) / 64) % 2 ^ 64
  | .ietf => (le (memReadBytes s.ib 56 4) + (n + 63) / 64) % 2 ^ 32

/-- The UPDATE command of a stream. -/
def updateOf : Stream → BitVec 16 → Instr
  | .poly => .p1305Update
  | .b2b => .b2bUpdate
  | .sha => .s512Update
  | .hmac => .hmacUpdate

/-- The stream that an UPDATE or a FINAL continues (R332): none for every other command. -/
def continues : Instr → Option Stream
  | .p1305Update _ | .p1305Final => some .poly
  | .b2bUpdate _ | .b2bFinal => some .b2b
  | .s512Update _ | .s512Final => some .sha
  | .hmacUpdate _ | .hmacFinal => some .hmac
  | .wipe _ | .cc20Xor _ _ _ | .cc20H | .p1305Init | .b2bInit _ _ | .s512Init | .hmacInit _ | .a2Fill _ | .feInv
  | .feIsqrt | .mmul | .bred | .bmad | .xLadder _ _ | .geAdd _ | .geSmulBase | .geSmulVar _ => none

/-- The stream of a command's unit: its INIT too. -/
def unitOf : Instr → Option Stream
  | .p1305Init => some .poly
  | .b2bInit _ _ => some .b2b
  | .s512Init => some .sha
  | .hmacInit _ => some .hmac
  | i => continues i

/-- The offsets of IB that a command's rule names as operands (R23 and the command rules). -/
def readsIb : Instr → Nat → Prop
  | .cc20Xor conv ks len, a =>
    a < 32 ∨
      (match conv with
        | .djb => 32 ≤ a ∧ a < 40 ∨ 56 ≤ a ∧ a < 64
        | .ietf => 32 ≤ a ∧ a < 44 ∨ 56 ≤ a ∧ a < 60
        | .x => 32 ≤ a ∧ a < 64) ∨
      ks = false ∧ 64 ≤ a ∧ a < 64 + len.toNat
  | .cc20H, a => a < 48
  | .p1305Init, a => a < 32
  | .p1305Update len, a | .b2bInit _ len, a | .b2bUpdate len, a | .s512Update len, a | .hmacInit len, a
  | .hmacUpdate len, a => a < len.toNat
  | .a2Fill xor, a => a < 2048 ∨ xor = true ∧ a < 3072
  | .feInv, a | .feIsqrt, a | .geSmulBase, a => a < 32
  | .mmul, a | .bred, a | .xLadder _ _, a => a < 64
  | .bmad, a => a < 96
  | .geAdd _, a => a < 256
  | .geSmulVar cin, a => if cin then a < 64 else a < 160
  | .wipe _, _ | .p1305Final, _ | .b2bFinal, _ | .s512Init, _ | .s512Final, _ | .hmacFinal, _ => False

/-- R94's table as numbers: which OP, FLAGS and LEN make a legal word. -/
def LegalFields (op flags len : Nat) : Prop :=
  op = 0x01 ∧ flags < 64 ∧ len = 0 ∨
    op = 0x10 ∧ flags < 8 ∧ flags % 4 ≠ 3 ∧ len ≤ 1024 ∨
    op ∈ [0x11, 0x20, 0x22, 0x32, 0x40, 0x42, 0x52, 0x70, 0x71, 0x80, 0x81, 0x82, 0xA1] ∧ flags = 0 ∧ len = 0 ∨
    op ∈ [0x21, 0x31, 0x41, 0x50, 0x51] ∧ flags = 0 ∧ len ≤ 4096 ∨
    op = 0x30 ∧ 1 ≤ flags ∧ flags ≤ 64 ∧ len ≤ 64 ∨
    op ∈ [0x60, 0xA0, 0xA2] ∧ flags < 2 ∧ len = 0 ∨
    op = 0x90 ∧ flags < 4 ∧ len = 0

/-- Every part of the spec's state is zero, field by field (R40). -/
def AllZero (s : State) : Prop :=
  (∀ a, memRead s.ib a = 0#8) ∧ (∀ a, memRead s.ob a = 0#8) ∧ s.status = 0#32 ∧ s.rlen = 0#32 ∧ s.ctrLo = 0#32 ∧
    s.ctrHi = 0#32 ∧ s.live = 0#32 ∧ (∀ c, isLive c s = false) ∧
    s.poly.r = 0#128 ∧ s.poly.pad = 0#128 ∧ s.poly.h = 0 ∧ s.poly.buf = [] ∧
    (∀ (i : Nat) (h : i < 8), s.b2b.h[i] = 0#64) ∧ s.b2b.t = 0#128 ∧ s.b2b.buf = [] ∧ s.b2b.outlen = 0 ∧
    (∀ (i : Nat) (h : i < 8), s.sha.h[i] = 0#64) ∧ s.sha.buf = [] ∧ s.sha.nbits = 0#128 ∧
    s.hmac.kblock = zeros 128 ∧
    (∀ (i : Nat) (h : i < 8), s.hmac.inner.h[i] = 0#64) ∧ s.hmac.inner.buf = [] ∧ s.hmac.inner.nbits = 0#128

/-- The writes of single bytes that a wide write stands for (R63). -/
def byteWrites (a : Nat) : Bytes → List HostMove
  | [] => []
  | b :: bs => .write (0x1000 + a) [b] :: byteWrites (a + 1) bs

end Sys2Proof.Claims

open Sys2Proof Sys2Proof.Machine Sys2Proof.Claims

/-! ## Reset and good states -/

/-- R40: every part of the state after reset is zero. -/
def Obligations.ResetLeavesEveryPartZero : Prop := AllZero State.reset

/-- The model's choice (log 10): the reset of R360 is a move of the host, served between commands; the host's later moves stay. -/
def Obligations.ResetMoveLeavesEveryPartZero : Prop :=
  ∀ s more, s.pending = .reset :: more → ∃ t, step s = .next t ∧ AllZero t ∧ t.pending = more

/-- The reset state is a good state. -/
def Obligations.ResetStateIsGood : Prop := State.reset.Inv

/-- From every good state, a step that answers a next state answers a good one. -/
def Obligations.EveryStepKeepsGoodStates : Prop := ∀ s t, s.Inv → step s = .next t → t.Inv

/-! ## The step and the window -/

/-- A 32-bit write to CMD executes its word: the meaning of the decoded command, or ILLEGAL (R90, R95). That the host's moves
wait in a list, and that a write's bytes stand lowest first, is the model's choice (log 1, log 14). -/
def Obligations.CommandWriteRunsTheDecodedCommand : Prop :=
  ∀ s data more, s.pending = .write 0 data :: more → data.length = 4 →
    (∀ i, decode (BitVec.ofNat 32 (le data)) = .ok i → step s = exec i { s with pending := more }) ∧
      ∀ e, decode (BitVec.ofNat 32 (le data)) = .error e → step s = .next (failed 0x10#32 { s with pending := more })

/-- The model's choice (log 1, log 2): moves are served one by one in order, and with none the state stays. -/
def Obligations.HostMovesAreServedOneByOne : Prop :=
  (∀ s, s.pending = [] → step s = .next s) ∧
    ∀ s t m more, s.pending = m :: more → step s = .next t → t.pending = more

/-- R62: a write to IB stores exactly its bytes, and a wide write is the sequence of its byte writes. -/
def Obligations.IbWritesStoreExactlyTheirBytes : Prop :=
  ∀ s a data more, 1 ≤ data.length → a + data.length ≤ 4096 →
    (s.pending = .write (0x1000 + a) data :: more →
      ∃ t, step s = .next t ∧ t = { s with pending := more, ib := t.ib } ∧
        ∀ x, memRead t.ib x = if a ≤ x ∧ x < a + data.length then data.getD (x - a) 0#8 else memRead s.ib x) ∧
      Sys2Proof.core.run data.length { s with pending := byteWrites a data ++ more } =
        step { s with pending := .write (0x1000 + a) data :: more }

/-- A read returns what is stored, changes nothing else, and is idempotent (R64; the registers' values are the read column of
R66). That the answer stands in `readData` is the model's choice (log 3); that a register's value stands there as four bytes,
least significant first, is the model's inference from R63 (log 14). -/
def Obligations.ReadsReturnTheStoredBytes : Prop :=
  (∀ s a n more, a + n ≤ 4096 → s.pending = .read (0x1000 + a) n :: more → 0 < n →
    step s = .next { s with pending := more, readData := memReadBytes s.ib a n }) ∧
  (∀ s a n more, a + n ≤ 1024 → s.pending = .read (0x2000 + a) n :: more → 0 < n →
    step s = .next { s with pending := more, readData := memReadBytes s.ob a n }) ∧
  (∀ s off v more, (off, v) ∈ [(0x00, 0#32), (0x04, s.status), (0x08, s.rlen), (0x0C, s.ctrLo), (0x10, s.ctrHi), (0x14, s.live)] →
    s.pending = .read off 4 :: more → step s = .next { s with pending := more, readData := tole 4 v.toNat }) ∧
  (∀ s t off n more, s.pending = .read off n :: more → step s = .next t →
    t = { s with pending := more, readData := t.readData } ∧
      ∀ u, step { t with pending := .read off n :: more } = .next u → u.readData = t.readData)

/-- What is ignored, what reads 0, and what is refused (R65, R66). That the reserved range 0x2400 to 0x2FFF takes any offset and
width, and that an access which starts there and ends outside the window is refused, is the model's inference (log 15); the
names of the refusals, and that a read of no bytes in that range answers, are the model's choice (log 8). -/
def Obligations.IgnoredAndRefusedAccesses : Prop :=
  (∀ s off data more, s.pending = .write off data :: more → 1 ≤ data.length →
    (0x2000 ≤ off ∧ off + data.length ≤ 0x2400 ∨ 0x2400 ≤ off ∧ off + data.length ≤ 0x3000 ∨
      4 ≤ off ∧ off < 0x1000 ∧ off % 4 = 0 ∧ data.length = 4) →
    step s = .next { s with pending := more }) ∧
  (∀ s off n more, s.pending = .read off n :: more →
    (0x2400 ≤ off ∧ off < 0x3000 ∧ off + n ≤ 0x3000 ∨ 0x18 ≤ off ∧ off < 0x1000 ∧ off % 4 = 0 ∧ n = 4) →
    step s = .next { s with pending := more, readData := zeros n }) ∧
  (∀ s off data n more, 1 ≤ data.length → n = data.length →
    s.pending = .write off data :: more ∨ s.pending = .read off n :: more →
    ((0x1000 ≤ off ∧ off < 0x2000 ∧ 0x2000 < off + n ∨ 0x2000 ≤ off ∧ off < 0x2400 ∧ 0x2400 < off + n →
        step s = .refused .pastBufferEnd) ∧
      (0x3000 ≤ off ∨ 0x2400 ≤ off ∧ 0x3000 < off + n → step s = .refused .outsideWindow)))

/-- R61: the registers' range answers aligned 32-bit accesses only; every other access there is refused. -/
def Obligations.OnlyAlignedWordsReachTheRegisters : Prop :=
  ∀ s off data n more, off < 0x1000 → 1 ≤ data.length → n = data.length →
    s.pending = .write off data :: more ∨ s.pending = .read off n :: more →
    (¬(off % 4 = 0 ∧ n = 4) → step s = .refused .registerAccess) ∧
      (off % 4 = 0 ∧ n = 4 → ∃ t, step s = .next t)

/-! ## Encoding -/

/-- Decode and encode agree, for every well-formed command. -/
def Obligations.DecodeOfEncodeIsTheCommand : Prop := ∀ i : Instr, i.wellFormed = true → decode (encode i) = .ok i

/-- Each legal word has one meaning: the word that the decoder reads a command from is that command's word. -/
def Obligations.EncodeOfDecodeIsTheWord : Prop :=
  ∀ w i, decode w = .ok i → encode i = w ∧ i.wellFormed = true

/-- Words written out from the spec (30_encoding.md sections 6 and 7) decode to the commands they stand for. -/
def Obligations.WrittenOutWordsDecode : Prop :=
  decode 0x00720110#32 = .ok (.cc20Xor .ietf false 114#16) ∧ decode 0x00004030#32 = .ok (.b2bInit 64#7 0#16) ∧
    decode 0x00102030#32 = .ok (.b2bInit 32#7 16#16) ∧ decode 0x00030041#32 = .ok (.s512Update 3#16) ∧
    decode 0x10000021#32 = .ok (.p1305Update 4096#16) ∧ decode 0x00000190#32 = .ok (.xLadder true false) ∧
    decode 0x000001A2#32 = .ok (.geSmulVar true) ∧ decode 0x00003F01#32 = .ok (.wipe 0x3F#6) ∧
    decode 0x00000160#32 = .ok (.a2Fill true) ∧ decode 0x000001A0#32 = .ok (.geAdd true) ∧
    decode 0x10010021#32 = .error .badRange ∧ decode 0x00000310#32 = .error .badRange ∧
    decode 0x00010080#32 = .error .unusedBits ∧ decode 0x00000000#32 = .error .reservedOp

/-- R331: ILLEGAL for exactly the words outside R94's table, whatever the state; a legal word never raises it. -/
def Obligations.IllegalExactlyForIllegalWords : Prop :=
  ∀ (w : W32) (s : State),
    (¬LegalFields (w.toNat % 256) (w.toNat / 256 % 256) (w.toNat / 65536) → issue w s = .next (failed 0x10#32 s)) ∧
      (LegalFields (w.toNat % 256) (w.toNat / 256 % 256) (w.toNat / 65536) →
        ∃ i t, decode w = .ok i ∧ issue w s = exec i s ∧ issue w s = .next t ∧ t.status ≠ 0x10#32)

/-! ## Rules about every command -/

/-- R334: a command that ends with a code other than OK changes STATUS and RLEN alone. -/
def Obligations.FailedCommandsChangeOnlyStatusAndRlen : Prop :=
  ∀ w s t, issue w s = .next t → statusCode t.status ≠ 0#4 →
    t = { s with status := t.status, rlen := 0#32 } ∧ t.status ∈ [0x10#32, 0x20#32, 0x30#32] ∧
      statusRf t.status = false ∧ statusBusy t.status = false

/-- A successful command but WIPE writes `OB[0..RLEN)` at most and leaves the rest of OB (10_state.md section 2). -/
def Obligations.SuccessWritesOnlyTheResultBytes : Prop :=
  ∀ i s t, exec i s = .next t → statusCode t.status = 0#4 → (∀ mask, i ≠ .wipe mask) →
    t.rlen.toNat ≤ 1024 ∧ statusBusy t.status = false ∧ ∀ a, t.rlen.toNat ≤ a → memRead t.ob a = memRead s.ob a

/-- Every command word completes in every state: "total on all 2^32 command words and all states" (60_exceptions.md section 7).
That every term of Instr does, those that no word decodes to included, is the model's choice (log 9). -/
def Obligations.EveryCommandCompletes : Prop :=
  (∀ (w : W32) (s : State), ∃ t, issue w s = .next t) ∧ ∀ (i : Instr) (s : State), ∃ t, exec i s = .next t

/-- R332: SEQ for exactly the legal UPDATE and FINAL commands of a context that is not live. -/
def Obligations.SeqExactlyWithoutALiveContext : Prop :=
  ∀ i s, (∀ c, continues i = some c → i.wellFormed = true → isLive c s = false → exec i s = .next (failed 0x20#32 s)) ∧
    ∀ t, exec i s = .next t → t.status = 0x20#32 → ∃ c, continues i = some c ∧ isLive c s = false

/-- R333: DECODE_FAIL for exactly GE_SMUL_VAR with CIN = 1 on a y whose `(y^2-1)(d*y^2+1)` is not a square. -/
def Obligations.DecodeFailExactlyForNonSquares : Prop :=
  (∀ s, exec (.geSmulVar true) s = .next (failed 0x30#32 s) ↔
    ¬∃ z : Int, z * z % (fieldP : Int) =
      ((feOperand s 32 : Int) ^ 2 - 1) * ((edD : Int) * (feOperand s 32 : Int) ^ 2 + 1) % (fieldP : Int)) ∧
    ∀ i s t, exec i s = .next t → t.status = 0x30#32 → i = .geSmulVar true

/-- RF, the counter registers and IB have one writer each among the commands (10_state.md sections 2 and 4). -/
def Obligations.EachOfThemHasOneWriter : Prop :=
  ∀ i s t, exec i s = .next t →
    (statusRf t.status = true → i = .feIsqrt) ∧
      (t.ctrLo ≠ s.ctrLo ∨ t.ctrHi ≠ s.ctrHi → ∃ conv ks len, i = .cc20Xor conv ks len ∧ t.status = 0#32) ∧
      (t.ib ≠ s.ib → ∃ mask, i = .wipe mask ∧ mask.getLsbD 0 = true)

/-- R30: the contexts are disjoint, no command of one unit reads or writes another's, and no host access reads or writes
one. -/
def Obligations.ContextsAreDisjoint : Prop :=
  (∀ i s t, exec i s = .next t → (∀ mask, i ≠ .wipe mask) →
    (unitOf i ≠ some .poly → t.poly = s.poly ∧ isLive .poly t = isLive .poly s ∧
      ∀ x, exec i { s with poly := x } = .next { t with poly := x }) ∧
    (unitOf i ≠ some .b2b → t.b2b = s.b2b ∧ isLive .b2b t = isLive .b2b s ∧
      ∀ x, exec i { s with b2b := x } = .next { t with b2b := x }) ∧
    (unitOf i ≠ some .sha → t.sha = s.sha ∧ isLive .sha t = isLive .sha s ∧
      ∀ x, exec i { s with sha := x } = .next { t with sha := x }) ∧
    (unitOf i ≠ some .hmac → t.hmac = s.hmac ∧ isLive .hmac t = isLive .hmac s ∧
      ∀ x, exec i { s with hmac := x } = .next { t with hmac := x })) ∧
  ∀ m s t, (∀ data, m ≠ .write 0 data) → m ≠ .reset → serve m s = .next t →
    t.poly = s.poly ∧ t.b2b = s.b2b ∧ t.sha = s.sha ∧ t.hmac = s.hmac ∧
      ∀ p b h k, serve m { s with poly := p, b2b := b, sha := h, hmac := k } =
        .next { t with poly := p, b2b := b, sha := h, hmac := k }

/-- Bytes of IB that a command's rule does not name have no effect on it (10_state.md section 2, U13). -/
def Obligations.UnnamedInputBytesHaveNoInfluence : Prop :=
  ∀ i s t m, (∀ mask, i ≠ .wipe mask) → (∀ a, readsIb i a → memRead m a = memRead s.ib a) → exec i s = .next t →
    exec i { s with ib := m } = .next { t with ib := m }

/-! ## The commands, in the table's order: encoding, completion, result and frame -/

/-- R320. -/
def Obligations.WipeZeroesTheSelectedState : Prop :=
  Encoding 0x01#8 (fun flags len =>
    if flags.toNat < 64 ∧ len.toNat = 0 then some (.wipe (BitVec.ofNat 6 flags.toNat)) else none) ∧
  ∀ mask s, ∃ t, exec (.wipe mask) s = .next t ∧
    (∀ a, memRead t.ib a = if mask.getLsbD 0 then 0#8 else memRead s.ib a) ∧
    (∀ a, memRead t.ob a = if mask.getLsbD 1 then 0#8 else memRead s.ob a) ∧
    t.poly = (if mask.getLsbD 2 then { r := 0#128, pad := 0#128, h := 0, buf := [] } else s.poly) ∧
    t.b2b = (if mask.getLsbD 3 then { h := zeroHash, t := 0#128, buf := [], outlen := 0 } else s.b2b) ∧
    t.sha = (if mask.getLsbD 4 then { h := zeroHash, buf := [], nbits := 0#128 } else s.sha) ∧
    t.hmac = (if mask.getLsbD 5 then { kblock := zeros 128, inner := { h := zeroHash, buf := [], nbits := 0#128 } } else s.hmac) ∧
    (∀ j, t.live.getLsbD j = (s.live.getLsbD j && !(decide (j < 4) && mask.getLsbD (j + 2)))) ∧
    t.status = 0#32 ∧ t.rlen = 0#32 ∧ t.ctrLo = s.ctrLo ∧ t.ctrHi = s.ctrHi ∧ t.pending = s.pending ∧
    t.readData = s.readData ∧ t.draws = s.draws

/-- R125, with R122 to R124: every output byte is a keystream byte, xored onto the text byte unless KS = 1; the counter
returned; nothing else changes. -/
def Obligations.Cc20XorAppliesTheKeystream : Prop :=
  Encoding 0x10#8 (fun flags len =>
    if flags.toNat < 8 ∧ len.toNat ≤ 1024 then
      match flags.toNat % 4 with
      | 0 => some (.cc20Xor .djb (flags.toNat / 4 == 1) len)
      | 1 => some (.cc20Xor .ietf (flags.toNat / 4 == 1) len)
      | 2 => some (.cc20Xor .x (flags.toNat / 4 == 1) len)
      | _ => none
    else none) ∧
  ∀ conv ks (len : BitVec 16) s, len.toNat ≤ 1024 →
    ∃ t out, exec (.cc20Xor conv ks len) s = .next t ∧ out.length = len.toNat ∧
      (∀ j, j < len.toNat → out.getD j 0#8 =
        if ks then ccByte conv s j else memRead s.ib (64 + j) ^^^ ccByte conv s j) ∧
      Delivers out 0#32
        { s with
          ctrLo := BitVec.ofNat 32 (ccReturned conv s len.toNat)
          ctrHi := BitVec.ofNat 32 (ccReturned conv s len.toNat / 2 ^ 32) } t

/-- R126, R127: words 0 to 3 and 12 to 15 of the permuted state, with no addition of the input state. -/
def Obligations.Cc20HReturnsTheSubkey : Prop :=
  Encoding 0x11#8 (formN .cc20H) ∧
  ∀ s, ∃ t, exec .cc20H s = .next t ∧ t = { s with ob := t.ob, rlen := 32#32, status := 0#32 } ∧
    (∀ j, j < 8 → le (memReadBytes t.ob (4 * j) 4) =
      (word32 (ccRounds (ccConstants ++
        (List.range 12).map fun i => BitVec.ofNat 32 (le (memReadBytes s.ib (4 * i) 4)))) (if j < 4 then j else j + 8)).toNat) ∧
    ∀ a, 32 ≤ a → memRead t.ob a = memRead s.ob a

/-- R141. -/
def Obligations.P1305InitSetsTheKey : Prop :=
  Encoding 0x20#8 (formN .p1305Init) ∧
  ∀ s, exec .p1305Init s = .next { s with
    poly :=
      { r := BitVec.ofNat 128 (le (memReadBytes s.ib 0 16) &&& 0x0ffffffc0ffffffc0ffffffc0fffffff)
        pad := BitVec.ofNat 128 (le (memReadBytes s.ib 16 16)), h := 0, buf := [] }
    live := s.live ||| 1#32, rlen := 0#32, status := 0#32 }

/-- R142: the full 16-byte blocks of what waited and what came are absorbed in order, the rest waits. -/
def Obligations.P1305UpdateAbsorbsFullBlocks : Prop :=
  Encoding 0x21#8 (formL 4096 .p1305Update) ∧
  ∀ (len : BitVec 16) s, len.toNat ≤ 4096 →
    (isLive .poly s = false → exec (.p1305Update len) s = .next (failed 0x20#32 s)) ∧
    (isLive .poly s = true → s.poly.buf.length ≤ 15 →
      exec (.p1305Update len) s = .next { s with
        poly := { s.poly with
          h := (blocks 16 (s.poly.buf ++ memReadBytes s.ib 0 len.toNat)).foldl
            (fun h b => (h + (le b + 2 ^ 128)) * s.poly.r.toNat % p1305) s.poly.h
          buf := rest 16 (s.poly.buf ++ memReadBytes s.ib 0 len.toNat) }
        rlen := 0#32, status := 0#32 })

/-- R143: the partial block with its 1-bit, the pad, and the wiped context. -/
def Obligations.P1305FinalReturnsTheTag : Prop :=
  Encoding 0x22#8 (formN .p1305Final) ∧
  ∀ s, (isLive .poly s = false → exec .p1305Final s = .next (failed 0x20#32 s)) ∧
    (isLive .poly s = true → ∃ t, exec .p1305Final s = .next t ∧
      Delivers
        (tole 16 (((if s.poly.buf = [] then s.poly.h
          else (s.poly.h + (le s.poly.buf + 2 ^ (8 * s.poly.buf.length))) * s.poly.r.toNat % p1305) +
            s.poly.pad.toNat) % 2 ^ 128)) 0#32
        { s with
          poly := { r := 0#128, pad := 0#128, h := 0, buf := [] }
          live := s.live &&& 0xFFFFFFFE#32 } t)

/-- R164. -/
def Obligations.B2bInitSetsTheParameters : Prop :=
  Encoding 0x30#8 (fun flags len =>
    if 1 ≤ flags.toNat ∧ flags.toNat ≤ 64 ∧ len.toNat ≤ 64 then
      some (.b2bInit (BitVec.ofNat 7 flags.toNat) len) else none) ∧
  ∀ (outlen : BitVec 7) (len : BitVec 16) s, 1 ≤ outlen.toNat → outlen.toNat ≤ 64 → len.toNat ≤ 64 →
    exec (.b2bInit outlen len) s = .next { s with
      b2b :=
        { h := #v[b2Iv[0] ^^^ 0x01010000#64 ^^^ BitVec.ofNat 64 (256 * len.toNat) ^^^ BitVec.ofNat 64 outlen.toNat,
            b2Iv[1], b2Iv[2], b2Iv[3], b2Iv[4], b2Iv[5], b2Iv[6], b2Iv[7]]
          t := 0#128
          buf := if len.toNat = 0 then [] else memReadBytes s.ib 0 len.toNat ++ zeros (128 - len.toNat)
          outlen := outlen.toNat }
      live := s.live ||| 2#32, rlen := 0#32, status := 0#32 }

/-- R165: every 128-byte block but the last of what waited and what came is compressed, with the count so far. -/
def Obligations.B2bUpdateCompressesAllButTheLastBlock : Prop :=
  Encoding 0x31#8 (formL 4096 .b2bUpdate) ∧
  ∀ (len : BitVec 16) s, len.toNat ≤ 4096 →
    (isLive .b2b s = false → exec (.b2bUpdate len) s = .next (failed 0x20#32 s)) ∧
    (isLive .b2b s = true → s.b2b.buf.length ≤ 128 →
      ∀ m q, m = s.b2b.buf ++ memReadBytes s.ib 0 len.toNat → q = (m.length - 1) / 128 →
      exec (.b2bUpdate len) s = .next { s with
        b2b := { s.b2b with
          h := (List.range q).foldl
            (fun h i => b2Compress h (slice m (128 * i) 128) (s.b2b.t + BitVec.ofNat 128 (128 * (i + 1))) false) s.b2b.h
          t := s.b2b.t + BitVec.ofNat 128 (128 * q)
          buf := m.drop (128 * q) }
        rlen := 0#32, status := 0#32 })

/-- R166: the last block, zero padded, with the final count and the last flag; the context is wiped. -/
def Obligations.B2bFinalReturnsTheDigest : Prop :=
  Encoding 0x32#8 (formN .b2bFinal) ∧
  ∀ s, (isLive .b2b s = false → exec .b2bFinal s = .next (failed 0x20#32 s)) ∧
    (isLive .b2b s = true → s.b2b.outlen ≤ 64 → ∃ t v, exec .b2bFinal s = .next t ∧ v.length = s.b2b.outlen ∧
      (∀ j, j < s.b2b.outlen → v.getD j 0#8 =
        BitVec.ofNat 8 ((b2Compress s.b2b.h (s.b2b.buf ++ zeros (128 - s.b2b.buf.length))
          (s.b2b.t + BitVec.ofNat 128 s.b2b.buf.length) true).toList.getD (j / 8) 0#64 >>> (8 * (j % 8))).toNat) ∧
      Delivers v 0#32
        { s with
          b2b := { h := zeroHash, t := 0#128, buf := [], outlen := 0 }
          live := s.live &&& 0xFFFFFFFD#32 } t)

/-- R184. -/
def Obligations.S512InitStartsAHash : Prop :=
  Encoding 0x40#8 (formN .s512Init) ∧
  ∀ s, exec .s512Init s = .next { s with
    sha := { h := shaH0, buf := [], nbits := 0#128 }, live := s.live ||| 4#32, rlen := 0#32, status := 0#32 }

/-- R185, R188: the full 128-byte blocks of what waited and what came are compressed, the rest waits, the bits are counted. -/
def Obligations.S512UpdateCompressesFullBlocks : Prop :=
  Encoding 0x41#8 (formL 4096 .s512Update) ∧
  ∀ (len : BitVec 16) s, len.toNat ≤ 4096 →
    (isLive .sha s = false → exec (.s512Update len) s = .next (failed 0x20#32 s)) ∧
    (isLive .sha s = true → s.sha.buf.length ≤ 127 →
      exec (.s512Update len) s = .next { s with
        sha :=
          { h := shaBlocks s.sha.h (s.sha.buf ++ memReadBytes s.ib 0 len.toNat)
            buf := rest 128 (s.sha.buf ++ memReadBytes s.ib 0 len.toNat)
            nbits := s.sha.nbits + BitVec.ofNat 128 (8 * len.toNat) }
        rlen := 0#32, status := 0#32 })

/-- R186, R187: the padded rest is compressed, the digest is big-endian, the context is wiped. -/
def Obligations.S512FinalReturnsTheDigest : Prop :=
  Encoding 0x42#8 (formN .s512Final) ∧
  ∀ s, (isLive .sha s = false → exec .s512Final s = .next (failed 0x20#32 s)) ∧
    (isLive .sha s = true → s.sha.buf.length ≤ 127 → ∃ t, exec .s512Final s = .next t ∧
      Delivers (shaBytes (shaBlocks s.sha.h (shaPadded s.sha.buf s.sha.nbits.toNat))) 0#32
        { s with sha := { h := zeroHash, buf := [], nbits := 0#128 }, live := s.live &&& 0xFFFFFFFB#32 } t)

/-- R190: the key block, and the inner hash after it. -/
def Obligations.HmacInitSetsTheKeyBlock : Prop :=
  Encoding 0x50#8 (formL 4096 .hmacInit) ∧
  ∀ (len : BitVec 16) s k0, len.toNat ≤ 4096 →
    k0 = (if 128 < len.toNat then sha512 (memReadBytes s.ib 0 len.toNat) else memReadBytes s.ib 0 len.toNat) →
    exec (.hmacInit len) s = .next { s with
      hmac :=
        { kblock := k0 ++ zeros (128 - k0.length)
          inner :=
            { h := shaCompress shaH0 ((k0 ++ zeros (128 - k0.length)).map fun x => x ^^^ 0x36#8)
              buf := [], nbits := 1024#128 } }
      live := s.live ||| 8#32, rlen := 0#32, status := 0#32 }

/-- R191. -/
def Obligations.HmacUpdateAbsorbsIntoTheInnerHash : Prop :=
  Encoding 0x51#8 (formL 4096 .hmacUpdate) ∧
  ∀ (len : BitVec 16) s, len.toNat ≤ 4096 →
    (isLive .hmac s = false → exec (.hmacUpdate len) s = .next (failed 0x20#32 s)) ∧
    (isLive .hmac s = true → s.hmac.inner.buf.length ≤ 127 →
      exec (.hmacUpdate len) s = .next { s with
        hmac := { s.hmac with
          inner :=
            { h := shaBlocks s.hmac.inner.h (s.hmac.inner.buf ++ memReadBytes s.ib 0 len.toNat)
              buf := rest 128 (s.hmac.inner.buf ++ memReadBytes s.ib 0 len.toNat)
              nbits := s.hmac.inner.nbits + BitVec.ofNat 128 (8 * len.toNat) } }
        rlen := 0#32, status := 0#32 })

/-- R192: the outer hash of the key block xored with 0x5c and the inner digest; the context is wiped. -/
def Obligations.HmacFinalReturnsTheMac : Prop :=
  Encoding 0x52#8 (formN .hmacFinal) ∧
  ∀ s ih o, (isLive .hmac s = false → exec .hmacFinal s = .next (failed 0x20#32 s)) ∧
    (isLive .hmac s = true → s.hmac.inner.buf.length ≤ 127 → s.hmac.kblock.length = 128 →
      ih = shaBytes (shaBlocks s.hmac.inner.h (shaPadded s.hmac.inner.buf s.hmac.inner.nbits.toNat)) →
      o = (s.hmac.kblock.map fun x => x ^^^ 0x5c#8) ++ ih →
      ∃ t, exec .hmacFinal s = .next t ∧
        Delivers (shaBytes (shaBlocks shaH0 (shaPadded o 1536))) 0#32
          { s with
            hmac := { kblock := zeros 128, inner := { h := zeroHash, buf := [], nbits := 0#128 } }
            live := s.live &&& 0xFFFFFFF7#32 } t)

/-- R213: word by word, `R ^ Z`, and with XOR = 1 the old word. -/
def Obligations.A2FillComputesTheBlock : Prop :=
  Encoding 0x60#8 (formBit .a2Fill) ∧
  ∀ xor s r, r = (List.range 128).map (fun i =>
      BitVec.ofNat 64 (le (memReadBytes s.ib (8 * i) 8)) ^^^ BitVec.ofNat 64 (le (memReadBytes s.ib (1024 + 8 * i) 8))) →
    ∃ t, exec (.a2Fill xor) s = .next t ∧ t = { s with ob := t.ob, rlen := 1024#32, status := 0#32 } ∧
      (∀ i, i < 128 → BitVec.ofNat 64 (le (memReadBytes t.ob (8 * i) 8)) =
        word64 r i ^^^ word64 (a2Rounds r) i ^^^
          (if xor then BitVec.ofNat 64 (le (memReadBytes s.ib (2048 + 8 * i) 8)) else 0#64)) ∧
      ∀ a, 1024 ≤ a → memRead t.ob a = memRead s.ob a

/-- R232, with its corner cases (a) and (b): the power `p - 2`, which is the inverse, and 0 for 0. -/
def Obligations.FeInvReturnsTheInverse : Prop :=
  Encoding 0x70#8 (formN .feInv) ∧
  ∀ s, ∃ t y, exec .feInv s = .next t ∧ Delivers (tole 32 y) 0#32 s t ∧ y < fieldP ∧
    y = feOperand s 0 ^ (fieldP - 2) % fieldP ∧ (feOperand s 0 = 0 → y = 0) ∧
    (feOperand s 0 ≠ 0 → feOperand s 0 * y % fieldP = 1)

/-- R233: the value by the four equality checks, and RF. -/
def Obligations.FeIsqrtReturnsValueAndFlag : Prop :=
  Encoding 0x71#8 (formN .feIsqrt) ∧
  ∀ s x r q, x = feOperand s 0 → r = x ^ ((fieldP - 5) / 8) % fieldP → q = r ^ 2 * x % fieldP →
    ∃ t, exec .feIsqrt s = .next t ∧
      Delivers (tole 32 (if q = fieldP - 1 ∨ q = fieldP - sqrtm1 then r * sqrtm1 % fieldP else r))
        (if q = 1 ∨ q = fieldP - 1 ∨ x = 0 then 0x02#32 else 0x00#32) s t

/-- R252: the Montgomery product under the precondition; outside it 32 bytes of any value, everything else as on success
(U1; the count of draws is the model's own and nothing is said of it, log 4). -/
def Obligations.MmulReturnsTheMontgomeryProduct : Prop :=
  Encoding 0x80#8 (formN .mmul) ∧
  ∀ s, (scalarOperand s 0 * scalarOperand s 32 < groupL * 2 ^ 256 →
      ∃ t u, exec .mmul s = .next t ∧ Delivers (tole 32 u) 0#32 s t ∧ u < groupL ∧
        u * 2 ^ 256 % groupL = scalarOperand s 0 * scalarOperand s 32 % groupL) ∧
    (groupL * 2 ^ 256 ≤ scalarOperand s 0 * scalarOperand s 32 →
      ∃ t v, exec .mmul s = .next t ∧ v.length = 32 ∧ Delivers v 0#32 { s with draws := t.draws } t)

/-- R254: the Barrett steps give exactly `x mod L`. -/
def Obligations.BredReturnsTheResidue : Prop :=
  Encoding 0x81#8 (formN .bred) ∧
  ∀ s, ∃ t, exec .bred s = .next t ∧ Delivers (tole 32 (le (memReadBytes s.ib 0 64) % groupL)) 0#32 s t

/-- R255. -/
def Obligations.BmadReturnsTheMultiplyAdd : Prop :=
  Encoding 0x82#8 (formN .bmad) ∧
  ∀ s, ∃ t, exec .bmad s = .next t ∧
    Delivers (tole 32 ((scalarOperand s 0 * scalarOperand s 32 + scalarOperand s 64) % groupL)) 0#32 s t

/-- R271, with the trimming of R270 as arithmetic. -/
def Obligations.XLadderMultipliesTheCoordinate : Prop :=
  Encoding 0x90#8 (fun flags len =>
    if flags.toNat < 4 ∧ len.toNat = 0 then some (.xLadder (flags.toNat % 2 == 1) (flags.toNat / 2 == 1)) else none) ∧
  ∀ trim w s k, k = (if trim then scalarOperand s 0 % 2 ^ 254 - scalarOperand s 0 % 8 + 2 ^ 254 else scalarOperand s 0) →
    ∃ t, exec (.xLadder trim w) s = .next t ∧
      Delivers (tole 32 (ladder k (feOperand s 32) (if w then 256 else 255))) 0#32 s t

/-- R290: the formulas as integer arithmetic, reduced once at the end. -/
def Obligations.GeAddReturnsTheFormulas : Prop :=
  Encoding 0xA0#8 (formBit .geAdd) ∧
  ∀ sub s (x1 y1 z1 t1 x2 y2 z2 t2 yp ym t2d a b c d : Int),
    x1 = feOperand s 0 → y1 = feOperand s 32 → z1 = feOperand s 64 → t1 = feOperand s 96 →
    x2 = feOperand s 128 → y2 = feOperand s 160 → z2 = feOperand s 192 → t2 = feOperand s 224 →
    yp = (if sub then y2 - x2 else y2 + x2) → ym = (if sub then y2 + x2 else y2 - x2) →
    t2d = (if sub then -(t2 * edD2) else t2 * edD2) →
    a = (y1 + x1) * yp → b = (y1 - x1) * ym → c = t1 * t2d → d = 2 * z1 * z2 →
    ∃ t, exec (.geAdd sub) s = .next t ∧
      Delivers (feBytes ((a - b) * (d - c)) ++ feBytes ((a + b) * (d + c)) ++ feBytes ((d + c) * (d - c)) ++
        feBytes ((a - b) * (a + b))) 0#32 s t

/-- R300. -/
def Obligations.GeSmulBaseReturnsTheProduct : Prop :=
  Encoding 0xA1#8 (formN .geSmulBase) ∧
  ∀ s, ∃ t, exec .geSmulBase s = .next t ∧ t.rlen = 160#32 ∧
    Delivers (geOut (geSmul (scalarOperand s 0) { x := baseX, y := baseY, z := 1, t := baseX * baseY % fieldP })) 0#32 s t

/-- R301: CIN = 1 decodes first; CIN = 0 on a valid point; on an invalid one 160 bytes of any value, everything else as on
success (U2; nothing is said of the count of draws, log 5). -/
def Obligations.GeSmulVarReturnsTheProduct : Prop :=
  Encoding 0xA2#8 (formBit .geSmulVar) ∧
  ∀ s,
    (∀ pt, geDecode (memReadBytes s.ib 32 32) = some pt →
      ∃ t, exec (.geSmulVar true) s = .next t ∧ t.rlen = 160#32 ∧ Delivers (geOut (geSmul (scalarOperand s 0) pt)) 0#32 s t) ∧
    (geDecode (memReadBytes s.ib 32 32) = none → exec (.geSmulVar true) s = .next (failed 0x30#32 s)) ∧
    (ValidPoint (pointOperand s 32) →
      ∃ t, exec (.geSmulVar false) s = .next t ∧ t.rlen = 160#32 ∧
        Delivers (geOut (geSmul (scalarOperand s 0) (pointOperand s 32))) 0#32 s t) ∧
    (¬ValidPoint (pointOperand s 32) →
      ∃ t v, exec (.geSmulVar false) s = .next t ∧ v.length = 160 ∧ Delivers v 0#32 { s with draws := t.draws } t)

/-! ## Laws of the units -/

/-- Any chunking gives the same state: two UPDATEs of one stream leave what one UPDATE of the joined bytes leaves, but for IB,
which the host wrote (41, 42, 43: "any chunking"). -/
def Obligations.ChunkingDoesNotMatter : Prop :=
  ∀ (c : Stream) (m1 m2 m12 : Memory) (n1 n2 n12 : BitVec 16) (s t1 t2 t12 : State),
    n1.toNat + n2.toNat = n12.toNat → n12.toNat ≤ 4096 →
    memReadBytes m12 0 n12.toNat = memReadBytes m1 0 n1.toNat ++ memReadBytes m2 0 n2.toNat →
    exec (updateOf c n1) { s with ib := m1 } = .next t1 → exec (updateOf c n2) { t1 with ib := m2 } = .next t2 →
    exec (updateOf c n12) { s with ib := m12 } = .next t12 → t2 = { t12 with ib := m2 }

/-- The tag as one polynomial over the whole message: the sentence `tag = tole_16(...)` at the end of 41_poly1305.md, which the
spec derives from its rules. -/
def Obligations.PolyTagIsThePolynomial : Prop :=
  ∀ (key m : Bytes) (n : Nat), n = (m.length + 15) / 16 →
    polyTag (polyUpdate (polyInit key) m) =
      tole 16 (((∑ i ∈ Finset.range n,
        (le (slice m (16 * i) 16) + 2 ^ (8 * min 16 (m.length - 16 * i))) * (polyInit key).r.toNat ^ (n - i)) % p1305 +
          (polyInit key).pad.toNat) % 2 ^ 128)

/-- Streaming SHA-512 is the one-shot hash of the padded message (R187, R188). -/
def Obligations.ShaStreamingIsTheOneShotHash : Prop :=
  ∀ m : Bytes, sha512 m = shaBytes (shaBlocks shaH0 (shaPadded m (8 * m.length)))

/-- R189: INIT, UPDATEs and FINAL compute `sha512((kblock ^ 0x5c...) ‖ sha512((kblock ^ 0x36...) ‖ M))`. -/
def Obligations.HmacIsTheNestedHash : Prop :=
  ∀ key m kb : Bytes,
    kb = (if 128 < key.length then sha512 key else key) ++
      zeros (128 - (if 128 < key.length then sha512 key else key).length) →
    hmacMac { hmacStart key with inner := shaAbsorb (hmacStart key).inner m } =
      sha512 ((kb.map fun x => x ^^^ 0x5c#8) ++ sha512 ((kb.map fun x => x ^^^ 0x36#8) ++ m))

/-- Chaining with the returned counter (40_chacha20.md section 3, which the spec derives). The IETF wrap is left out: there R124
carries into the nonce word inside one call, and the returned counter does not hold that carry. -/
def Obligations.Cc20ChainingContinuesTheStream : Prop :=
  ∀ conv ks (n1 n2 n12 : BitVec 16) s s' t1 t2 t12 q,
    n1.toNat = 64 * q → n1.toNat + n2.toNat = n12.toNat → n12.toNat ≤ 1024 →
    (conv = .ietf → le (memReadBytes s.ib 56 4) + q < 2 ^ 32) →
    exec (.cc20Xor conv ks n1) s = .next t1 →
    (∀ a, a < 56 → memRead s'.ib a = memRead s.ib a) →
    memReadBytes s'.ib 56 8 = tole 4 t1.ctrLo.toNat ++ tole 4 t1.ctrHi.toNat →
    (∀ j, j < n2.toNat → memRead s'.ib (64 + j) = memRead s.ib (64 + n1.toNat + j)) →
    exec (.cc20Xor conv ks n2) s' = .next t2 → exec (.cc20Xor conv ks n12) s = .next t12 →
    memReadBytes t12.ob 0 n12.toNat = memReadBytes t1.ob 0 n1.toNat ++ memReadBytes t2.ob 0 n2.toNat ∧
      (conv ≠ .ietf → t12.ctrLo = t2.ctrLo ∧ t12.ctrHi = t2.ctrHi)

/-- Decryption is the same command: applied to its own result it gives the text back (R125 corner case (d)). -/
def Obligations.Cc20XorUndoesItself : Prop :=
  ∀ conv (len : BitVec 16) s s' t t', len.toNat ≤ 1024 → exec (.cc20Xor conv false len) s = .next t →
    (∀ a, a < 64 → memRead s'.ib a = memRead s.ib a) →
    (∀ j, j < len.toNat → memRead s'.ib (64 + j) = memRead t.ob j) →
    exec (.cc20Xor conv false len) s' = .next t' →
    memReadBytes t'.ob 0 len.toNat = memReadBytes s.ib 64 len.toNat

/-- The X convention is the DJB convention under the subkey, and the IETF one is the DJB one with the first nonce word in the
counter (40_chacha20.md section 3, which the spec derives). -/
def Obligations.Cc20ConventionsAgree : Prop :=
  ∀ ks (len : BitVec 16) s s' t t', len.toNat ≤ 1024 → (∀ j, 64 ≤ j → memRead s'.ib j = memRead s.ib j) →
    exec (.cc20Xor .djb ks len) s' = .next t' →
    (memReadBytes s'.ib 0 32 = ccH (memReadBytes s.ib 0 32) (memReadBytes s.ib 32 16) →
      memReadBytes s'.ib 32 8 = memReadBytes s.ib 48 8 → memReadBytes s'.ib 56 8 = memReadBytes s.ib 56 8 →
      exec (.cc20Xor .x ks len) s = .next t →
      memReadBytes t.ob 0 len.toNat = memReadBytes t'.ob 0 len.toNat ∧ t.ctrLo = t'.ctrLo ∧ t.ctrHi = t'.ctrHi) ∧
    (memReadBytes s'.ib 0 32 = memReadBytes s.ib 0 32 → memReadBytes s'.ib 32 8 = memReadBytes s.ib 36 8 →
      memReadBytes s'.ib 56 8 = memReadBytes s.ib 56 4 ++ memReadBytes s.ib 32 4 →
      exec (.cc20Xor .ietf ks len) s = .next t →
      memReadBytes t.ob 0 len.toNat = memReadBytes t'.ob 0 len.toNat ∧ t.ctrLo = t'.ctrLo ∧ t.ctrHi = 0#32)

/-- The laws of FE_ISQRT for every input (45_field.md, the list of laws that ends the file, which the spec derives). -/
def Obligations.FeIsqrtLaws : Prop :=
  ∀ s t x r, exec .feIsqrt s = .next t → x = feOperand s 0 → r = le (memReadBytes t.ob 0 32) →
    r < fieldP ∧ (statusRf t.status = true → x ≠ 0 → r ^ 2 * x % fieldP = 1) ∧
      (statusRf t.status = false → r ^ 2 * x % fieldP = sqrtm1) ∧
      (statusRf t.status = true ↔ x ^ ((fieldP - 1) / 2) % fieldP = 0 ∨ x ^ ((fieldP - 1) / 2) % fieldP = 1)

/-- Montgomery and Barrett agree, and reduction is idempotent (46_scalar.md, the laws that end sections 2 and 3, which the
spec derives). -/
def Obligations.ScalarReductionsAgree : Prop :=
  (∀ a b, a < groupL → b < groupL → montMul (montMul a b) (2 ^ 512 % groupL) = barrett (a * b)) ∧
    ∀ x, x < 2 ^ 512 → barrett x < groupL ∧ barrett (barrett x) = barrett x ∧ barrett x % groupL = x % groupL

/-- The ladder reads the low `nb` bits alone, gives 0 for the scalar 0 and for `x1 = 0`, and `x1` for the scalar 1
(47_curve25519.md, corner cases (c), (d), (e), (h) and law (3)). -/
def Obligations.LadderOfSmallScalars : Prop :=
  ∀ k x1 nb, x1 < fieldP → nb = 255 ∨ nb = 256 →
    ladder k x1 nb = ladder (k % 2 ^ nb) x1 nb ∧ (k % 2 ^ nb = 0 → ladder k x1 nb = 0) ∧ ladder k 0 nb = 0 ∧
      (x1 ≠ 0 → ladder 1 x1 nb = x1)

/-- A point that decodes is a valid point with `Z = 1`, the y of the operand, and for `x ≠ 0` the sign asked for
(48_ed25519.md section 1). -/
def Obligations.DecodedPointsAreValid : Prop :=
  ∀ c pt, c.length = 32 → geDecode c = some pt →
    ValidPoint pt ∧ pt.x < fieldP ∧ pt.z = 1 ∧ pt.y = le c % 2 ^ 255 % fieldP ∧ pt.t = pt.x * pt.y % fieldP ∧
      (pt.x ≠ 0 → pt.x % 2 = le c / 2 ^ 255)

/-- Subtraction is addition of the negative, bit for bit (48_ed25519.md section 2, law (3), which the spec derives). -/
def Obligations.GeSubIsAdditionOfTheNegative : Prop :=
  ∀ s s' t t', (∀ a, a < 128 → memRead s'.ib a = memRead s.ib a) →
    memReadBytes s'.ib 128 128 =
      feBytes (-(feOperand s 128 : Int)) ++ feBytes (feOperand s 160) ++ feBytes (feOperand s 192) ++
        feBytes (-(feOperand s 224 : Int)) →
    exec (.geAdd true) s = .next t → exec (.geAdd false) s' = .next t' →
    memReadBytes t.ob 0 128 = memReadBytes t'.ob 0 128

/-- R6: the constants are what their definitions say. -/
def Obligations.ConstantsMeetTheirDefinitions : Prop :=
  fieldP = 2 ^ 255 - 19 ∧ p1305 = 2 ^ 130 - 5 ∧ groupL = 2 ^ 252 + 27742317777372353535851937790883648493 ∧
    (edD * 121666 + 121665) % fieldP = 0 ∧ edD2 = 2 * edD % fieldP ∧ sqrtm1 = 2 ^ ((fieldP - 1) / 4) % fieldP ∧
    baseX = 0x216936d3cd6e53fec0a4e231fdd6dc5c692cc7609525a7b2c9562d608f25d51a ∧ baseY * 5 % fieldP = 4 ∧
    baseY < fieldP ∧ edD < fieldP ∧ a24 = 121665 ∧ kmont < 2 ^ 256 ∧ (groupL * kmont + 1) % 2 ^ 256 = 0 ∧
    mu = 2 ^ 512 / groupL
end

