-- ==== Sys2Proof/Laws/Bytes.lean ====
section
/-! SUPPORT. The laws of byte strings as integers (spec rule R8). -/

namespace Sys2Proof.Machine

@[simp] theorem tole_length (n v : Nat) : (tole n v).length = n := by
  induction n generalizing v with
  | zero => rfl
  | succ n ih => simp [tole, ih]

@[simp] theorem tobe_length (n v : Nat) : (tobe n v).length = n := by simp [tobe]

@[simp] theorem zeros_length (n : Nat) : (zeros n).length = n := by simp [zeros]

@[simp] theorem bytes32_length (x : W32) : (bytes32 x).length = 4 := tole_length 4 _

@[simp] theorem bytes64_length (x : W64) : (bytes64 x).length = 8 := tole_length 8 _

@[simp] theorem bytesBe64_length (x : W64) : (bytesBe64 x).length = 8 := tobe_length 8 _

theorem padTo_length (n : Nat) (s : Bytes) (h : s.length ≤ n) : (padTo n s).length = n := by
  simp [padTo]; omega

theorem xorBytes_length (s t : Bytes) : (xorBytes s t).length = min s.length t.length := by
  simp [xorBytes]

theorem le_append (s t : Bytes) : le (s ++ t) = le s + 256 ^ s.length * le t := by
  induction s with
  | nil => simp [le]
  | cons b s ih => simp [le, ih, Nat.pow_succ]; ring

theorem le_lt (s : Bytes) : le s < 256 ^ s.length := by
  induction s with
  | nil => simp [le]
  | cons b s ih =>
    have := b.isLt
    simp only [le, List.length_cons, Nat.pow_succ]
    omega

/-- `le(tole_n(v)) = v mod 256^n` (R8). -/
theorem le_tole (n v : Nat) : le (tole n v) = v % 256 ^ n := by
  induction n generalizing v with
  | zero => simp [tole, le, Nat.mod_one]
  | succ n ih =>
    have h : (256 : Nat) ^ (n + 1) = 256 * 256 ^ n := by ring
    rw [tole, le, ih, BitVec.toNat_ofNat, h, Nat.mod_mul]

/-- `be(tobe_n(v)) = v mod 256^n` (R8). -/
theorem be_tobe (n v : Nat) : be (tobe n v) = v % 256 ^ n := by
  simp [be, tobe, le_tole]

/-- A byte string is the little-endian bytes of its number. -/
theorem tole_le (s : Bytes) : tole s.length (le s) = s := by
  induction s with
  | nil => rfl
  | cons b s ih =>
    have hb := b.isLt
    have h1 : (b.toNat + 256 * le s) / 256 = le s := by omega
    simp only [List.length_cons, tole, le, h1, ih, List.cons.injEq, and_true]
    apply BitVec.eq_of_toNat_eq
    simp only [BitVec.toNat_ofNat]
    omega

theorem le_zeros (n : Nat) : le (zeros n) = 0 := by
  induction n with
  | zero => rfl
  | succ n ih => simp_all [zeros, List.replicate_succ, le]

end Sys2Proof.Machine
end

