-- ==== Sys2Proof/Laws/Field.lean ====
section
/-! SUPPORT. The value of the shared field operations (spec rules R226 to R229). -/

namespace Sys2Proof.Machine

theorem fieldP_pos : 0 < fieldP := by decide

theorem fieldP_eq : fieldP = 2 ^ 255 - 19 := by decide

theorem fadd_lt (a b : Nat) : fadd a b < fieldP := Nat.mod_lt _ fieldP_pos
theorem fsub_lt (a b : Nat) : fsub a b < fieldP := Nat.mod_lt _ fieldP_pos
theorem fneg_lt (a : Nat) : fneg a < fieldP := Nat.mod_lt _ fieldP_pos
theorem fmul_lt (a b : Nat) : fmul a b < fieldP := Nat.mod_lt _ fieldP_pos
theorem fsq_lt (a : Nat) : fsq a < fieldP := Nat.mod_lt _ fieldP_pos
theorem feIn_lt (s : Bytes) : feIn s < fieldP := Nat.mod_lt _ fieldP_pos

/-- `fsub(a,b) = (a - b) mod p`, the least non-negative residue (R9, R228). -/
theorem fsub_eq (a b : Nat) : (fsub a b : Int) = ((a : Int) - b) % fieldP := by
  have h : b % fieldP ≤ fieldP := (Nat.mod_lt b fieldP_pos).le
  rw [fsub, Int.natCast_mod, Nat.cast_add, Nat.cast_sub h, Int.natCast_mod]
  simp [← add_sub_assoc, Int.sub_emod]

theorem fpowLoop_eq (fuel a e acc : Nat) (he : e < 2 ^ fuel) (hacc : acc < fieldP) :
    fpowLoop fuel a e acc = acc * a ^ e % fieldP := by
  induction fuel generalizing a e acc with
  | zero =>
    have : e = 0 := by omega
    subst this
    simp [fpowLoop, Nat.mod_eq_of_lt hacc]
  | succ n ih =>
    have hlt : (if e % 2 = 1 then fmul acc a else acc) < fieldP := by
      split
      · exact fmul_lt _ _
      · exact hacc
    have hp : e / 2 < 2 ^ n := by rw [Nat.pow_succ] at he; omega
    rw [fpowLoop, ih _ _ _ hp hlt, fsq]
    have hpow : a ^ e = (a * a) ^ (e / 2) * a ^ (e % 2) := by
      rw [← pow_two, ← pow_mul, ← pow_add]; congr 1; omega
    rw [hpow]
    split
    · next h1 =>
      rw [h1, pow_one, fmul]
      conv_lhs => rw [Nat.mul_mod, Nat.mod_mod, Nat.pow_mod, Nat.mod_mod, ← Nat.pow_mod, ← Nat.mul_mod]
      congr 1; ring
    · next h1 =>
      have h0 : e % 2 = 0 := by omega
      rw [h0, pow_zero, mul_one]
      conv_lhs => rw [Nat.mul_mod, Nat.pow_mod, Nat.mod_mod, ← Nat.pow_mod, ← Nat.mul_mod]

/-- `fpow(a, e) = a^e mod p` (R229). -/
theorem fpow_eq (a e : Nat) : fpow a e = a ^ e % fieldP := by
  have h : e < 2 ^ (Nat.log2 e + 1) := Nat.lt_log2_self
  rw [fpow, fpowLoop_eq _ _ _ _ h (by decide), one_mul]

end Sys2Proof.Machine
end

