-- ==== Sys2Proof/Laws/Memory.lean ====
section
/-! SUPPORT. The laws of the byte buffers: a read after a write, and that every operation keeps the canonical form. -/

namespace Sys2Proof.Machine

theorem memRead_memErase (m : Memory) (a x : Nat) :
    memRead (memErase m a) x = if x = a then 0#8 else memRead m x := by
  induction m with
  | nil => simp [memErase, memRead]
  | cons c m ih =>
    simp only [memErase] at ih
    by_cases hc : c.1 = a
    · by_cases hx : x = a
      · subst hx; simpa [memErase, hc] using ih
      · have : ¬a = x := fun h => hx h.symm
        simp [memErase, memRead, hc, ih, hx, this]
    · by_cases hx : x = a
      · subst hx; simp [memErase, memRead, hc, ih]
      · simp [memErase, memRead, hc, ih, hx]

theorem memRead_memInsert (m : Memory) (a x : Nat) (b : Byte) (h : ∀ c ∈ m, c.1 ≠ a) :
    memRead (memInsert a b m) x = if x = a then b else memRead m x := by
  induction m with
  | nil => simp [memInsert, memRead, eq_comm]
  | cons c m ih =>
    have hc := h c (by simp)
    have ih := ih fun d hd => h d (by simp [hd])
    by_cases hx : x = a
    · subst hx
      rw [if_pos rfl] at ih ⊢
      unfold memInsert
      split
      · simp [memRead]
      · rw [memRead, if_neg hc, ih]
    · have : ¬a = x := fun e => hx e.symm
      rw [if_neg hx] at ih ⊢
      unfold memInsert
      split
      · simp [memRead, this]
      · rw [memRead, ih, memRead]

theorem memErase_not_mem (m : Memory) (a : Nat) : ∀ c ∈ memErase m a, c.1 ≠ a := by simp [memErase]

/-- A read after a write: the byte written at its own offset, every other offset as before. -/
theorem memRead_memWrite (m : Memory) (a x : Nat) (b : Byte) :
    memRead (memWrite m a b) x = if x = a then b else memRead m x := by
  unfold memWrite
  split
  · next hb => rw [memRead_memErase, hb]
  · rw [memRead_memInsert _ _ _ _ (memErase_not_mem m a), memRead_memErase]
    split <;> simp_all

/-- A read after a write of a byte string. -/
theorem memRead_memWriteBytes (m : Memory) (a x : Nat) (v : Bytes) :
    memRead (memWriteBytes m a v) x = if a ≤ x ∧ x < a + v.length then v.getD (x - a) 0#8 else memRead m x := by
  induction v generalizing m a with
  | nil => simp [memWriteBytes]
  | cons b v ih =>
    rw [memWriteBytes, ih, memRead_memWrite]
    by_cases hx : x = a
    · subst hx; simp
    · by_cases hr : a + 1 ≤ x ∧ x < a + 1 + v.length
      · have h2 : a ≤ x ∧ x < a + (b :: v).length := by simp; omega
        rw [if_pos hr, if_pos h2]
        have : x - a = x - (a + 1) + 1 := by omega
        simp [this]
      · have h2 : ¬(a ≤ x ∧ x < a + (b :: v).length) := by simp; omega
        rw [if_neg hr, if_neg hx, if_neg h2]

@[simp] theorem memReadBytes_length (m : Memory) (a n : Nat) : (memReadBytes m a n).length = n := by
  induction n generalizing a with
  | zero => rfl
  | succ n ih => simp [memReadBytes, ih]

theorem memReadBytes_getD (m : Memory) (a n i : Nat) (h : i < n) :
    (memReadBytes m a n).getD i 0#8 = memRead m (a + i) := by
  induction n generalizing a i with
  | zero => omega
  | succ n ih =>
    cases i with
    | zero => simp [memReadBytes]
    | succ i =>
      have := ih (a + 1) i (by omega)
      simp only [memReadBytes, List.getD_cons_succ, this]
      congr 1; omega

/-- Two buffers that read the same in a range give the same bytes. -/
theorem memReadBytes_congr (m m' : Memory) (a n : Nat) (h : ∀ x, a ≤ x → x < a + n → memRead m x = memRead m' x) :
    memReadBytes m a n = memReadBytes m' a n := by
  induction n generalizing a with
  | zero => rfl
  | succ n ih =>
    rw [memReadBytes, memReadBytes, h a (by omega) (by omega), ih (a + 1) fun x h1 h2 => h x (by omega) (by omega)]

/-- Reading back the bytes just written. -/
theorem memReadBytes_memWriteBytes (m : Memory) (a : Nat) (v : Bytes) :
    memReadBytes (memWriteBytes m a v) a v.length = v := by
  apply List.ext_getElem (by simp)
  intro i h1 h2
  have h1' : i < v.length := by simpa using h1
  have e := memReadBytes_getD (memWriteBytes m a v) a v.length i h1'
  rw [memRead_memWriteBytes, if_pos ⟨by omega, by omega⟩] at e
  simpa [List.getD_eq_getElem?_getD, h1, h1'] using e

theorem memErase_wf {size : Nat} {m : Memory} (h : Memory.wf size m) (a : Nat) : Memory.wf size (memErase m a) :=
  ⟨h.1.filter _, fun c hc => h.2 c (List.mem_of_mem_filter hc)⟩

theorem memInsert_mem (m : Memory) (a : Nat) (b : Byte) (c : Host.Cell) :
    c ∈ memInsert a b m ↔ c = (a, b) ∨ c ∈ m := by
  induction m with
  | nil => simp [memInsert]
  | cons d m ih =>
    unfold memInsert
    split
    · simp
    · simp [ih]; tauto

theorem memInsert_wf {size : Nat} {m : Memory} (h : Memory.wf size m) (a : Nat) (b : Byte) (ha : a < size)
    (hb : b ≠ 0#8) (hm : ∀ c ∈ m, c.1 ≠ a) : Memory.wf size (memInsert a b m) := by
  refine ⟨?_, ?_⟩
  · have hp := h.1
    clear h
    induction m with
    | nil => simp [memInsert]
    | cons d m ih =>
      have hd := hm d (by simp)
      rw [List.pairwise_cons] at hp
      unfold memInsert
      split
      · next hlt =>
        refine List.pairwise_cons.2 ⟨?_, List.pairwise_cons.2 hp⟩
        intro c hc
        rcases List.mem_cons.1 hc with rfl | hc
        · exact hlt
        · exact Nat.lt_trans hlt (hp.1 c hc)
      · next hlt =>
        refine List.pairwise_cons.2 ⟨?_, ih (fun c hc => hm c (by simp [hc])) hp.2⟩
        intro c hc
        rcases (memInsert_mem m a b c).1 hc with rfl | hc
        · show d.1 < a; omega
        · exact hp.1 c hc
  · intro c hc
    rcases (memInsert_mem m a b c).1 hc with rfl | hc
    · exact ⟨ha, hb⟩
    · exact h.2 c hc

/-- A write inside the buffer keeps the canonical form. -/
theorem memWrite_wf {size : Nat} {m : Memory} (h : Memory.wf size m) (a : Nat) (b : Byte) (ha : a < size) :
    Memory.wf size (memWrite m a b) := by
  unfold memWrite
  split
  · exact memErase_wf h a
  · next hb => exact memInsert_wf (memErase_wf h a) a b ha hb (memErase_not_mem m a)

/-- A write of a byte string inside the buffer keeps the canonical form. -/
theorem memWriteBytes_wf {size : Nat} {m : Memory} (h : Memory.wf size m) (a : Nat) (v : Bytes)
    (hv : a + v.length ≤ size) : Memory.wf size (memWriteBytes m a v) := by
  induction v generalizing m a with
  | nil => exact h
  | cons b v ih =>
    simp only [List.length_cons] at hv
    exact ih (memWrite_wf h a b (by omega)) (a + 1) (by omega)

/-- An empty buffer is canonical, whatever its size: the buffers of reset, and of WIPE. -/
theorem nil_wf (size : Nat) : Memory.wf size ([] : Memory) := ⟨List.Pairwise.nil, by simp⟩

theorem reset_ib_wf : Memory.wf Config.ibBytes State.reset.ib := nil_wf _

theorem reset_ob_wf : Memory.wf Config.obBytes State.reset.ob := nil_wf _

theorem memRead_eq_of_lt {m : Memory} {a : Nat} (h : ∀ c ∈ m, a < c.1) : memRead m a = 0#8 := by
  induction m with
  | nil => rfl
  | cons c m ih =>
    have := h c (by simp)
    rw [memRead, if_neg (by omega)]
    exact ih fun d hd => h d (by simp [hd])

/-- One canonical form: two canonical buffers that read the same everywhere are the same list. -/
theorem Memory.wf_ext {size : Nat} {m n : Memory} (hm : Memory.wf size m) (hn : Memory.wf size n)
    (h : ∀ a, memRead m a = memRead n a) : m = n := by
  induction m generalizing n with
  | nil =>
    cases n with
    | nil => rfl
    | cons d n =>
      have := h d.1
      simp only [memRead, if_true] at this
      exact absurd this.symm (hn.2 d (by simp)).2
  | cons c m ih =>
    obtain ⟨hmp, hm2⟩ := hm
    rw [List.pairwise_cons] at hmp
    cases n with
    | nil =>
      have := h c.1
      simp only [memRead, if_true] at this
      exact absurd this (hm2 c (by simp)).2
    | cons d n =>
      obtain ⟨hnp, hn2⟩ := hn
      rw [List.pairwise_cons] at hnp
      have h1 : ¬c.1 < d.1 := by
        intro hlt
        have e := h c.1
        rw [memRead, if_pos rfl, memRead, if_neg (by omega),
          memRead_eq_of_lt fun x hx => Nat.lt_trans hlt (hnp.1 x hx)] at e
        exact (hm2 c (by simp)).2 e
      have h2 : ¬d.1 < c.1 := by
        intro hlt
        have e := h d.1
        rw [memRead, if_neg (by omega), memRead_eq_of_lt fun x hx => Nat.lt_trans hlt (hmp.1 x hx), memRead,
          if_pos rfl] at e
        exact (hn2 d (by simp)).2 e.symm
      have h3 : c.1 = d.1 := by omega
      have h4 : c.2 = d.2 := by simpa [memRead, h3] using h c.1
      have hcd : c = d := Prod.ext h3 h4
      subst hcd
      congr 1
      refine ih ⟨hmp.2, fun x hx => hm2 x (by simp [hx])⟩ ⟨hnp.2, fun x hx => hn2 x (by simp [hx])⟩ fun a => ?_
      by_cases ha : c.1 = a
      · rw [memRead_eq_of_lt fun x hx => ha ▸ hmp.1 x hx, memRead_eq_of_lt fun x hx => ha ▸ hnp.1 x hx]
      · simpa [memRead, ha] using h a

end Sys2Proof.Machine
end

