-- ==== Sys2Proof/Laws/State.lean ====
section
/-! SUPPORT. One lemma per field per update of State: what each named operation does to each field. -/

namespace Sys2Proof.Machine

/-! ## done -/

@[simp] theorem done_ib (v : Bytes) (rf : Bool) (s : State) : (done v rf s).ib = s.ib := rfl
@[simp] theorem done_ob (v : Bytes) (rf : Bool) (s : State) : (done v rf s).ob = memWriteBytes s.ob 0 v := rfl
@[simp] theorem done_status (v : Bytes) (rf : Bool) (s : State) : (done v rf s).status = statusWord .ok rf := rfl
@[simp] theorem done_rlen (v : Bytes) (rf : Bool) (s : State) : (done v rf s).rlen = BitVec.ofNat 32 v.length := rfl
@[simp] theorem done_ctrLo (v : Bytes) (rf : Bool) (s : State) : (done v rf s).ctrLo = s.ctrLo := rfl
@[simp] theorem done_ctrHi (v : Bytes) (rf : Bool) (s : State) : (done v rf s).ctrHi = s.ctrHi := rfl
@[simp] theorem done_live (v : Bytes) (rf : Bool) (s : State) : (done v rf s).live = s.live := rfl
@[simp] theorem done_poly (v : Bytes) (rf : Bool) (s : State) : (done v rf s).poly = s.poly := rfl
@[simp] theorem done_b2b (v : Bytes) (rf : Bool) (s : State) : (done v rf s).b2b = s.b2b := rfl
@[simp] theorem done_sha (v : Bytes) (rf : Bool) (s : State) : (done v rf s).sha = s.sha := rfl
@[simp] theorem done_hmac (v : Bytes) (rf : Bool) (s : State) : (done v rf s).hmac = s.hmac := rfl
@[simp] theorem done_pending (v : Bytes) (rf : Bool) (s : State) : (done v rf s).pending = s.pending := rfl
@[simp] theorem done_readData (v : Bytes) (rf : Bool) (s : State) : (done v rf s).readData = s.readData := rfl
@[simp] theorem done_draws (v : Bytes) (rf : Bool) (s : State) : (done v rf s).draws = s.draws := rfl

/-! ## raise -/

@[simp] theorem raise_ib (c : Code) (s : State) : (raise c s).ib = s.ib := rfl
@[simp] theorem raise_ob (c : Code) (s : State) : (raise c s).ob = s.ob := rfl
@[simp] theorem raise_status (c : Code) (s : State) : (raise c s).status = statusWord c false := rfl
@[simp] theorem raise_rlen (c : Code) (s : State) : (raise c s).rlen = 0#32 := rfl
@[simp] theorem raise_ctrLo (c : Code) (s : State) : (raise c s).ctrLo = s.ctrLo := rfl
@[simp] theorem raise_ctrHi (c : Code) (s : State) : (raise c s).ctrHi = s.ctrHi := rfl
@[simp] theorem raise_live (c : Code) (s : State) : (raise c s).live = s.live := rfl
@[simp] theorem raise_poly (c : Code) (s : State) : (raise c s).poly = s.poly := rfl
@[simp] theorem raise_b2b (c : Code) (s : State) : (raise c s).b2b = s.b2b := rfl
@[simp] theorem raise_sha (c : Code) (s : State) : (raise c s).sha = s.sha := rfl
@[simp] theorem raise_hmac (c : Code) (s : State) : (raise c s).hmac = s.hmac := rfl
@[simp] theorem raise_pending (c : Code) (s : State) : (raise c s).pending = s.pending := rfl
@[simp] theorem raise_readData (c : Code) (s : State) : (raise c s).readData = s.readData := rfl
@[simp] theorem raise_draws (c : Code) (s : State) : (raise c s).draws = s.draws := rfl

/-! ## setLive -/

@[simp] theorem setLive_ib (c : Stream) (s : State) : (setLive c s).ib = s.ib := rfl
@[simp] theorem setLive_ob (c : Stream) (s : State) : (setLive c s).ob = s.ob := rfl
@[simp] theorem setLive_status (c : Stream) (s : State) : (setLive c s).status = s.status := rfl
@[simp] theorem setLive_rlen (c : Stream) (s : State) : (setLive c s).rlen = s.rlen := rfl
@[simp] theorem setLive_ctrLo (c : Stream) (s : State) : (setLive c s).ctrLo = s.ctrLo := rfl
@[simp] theorem setLive_ctrHi (c : Stream) (s : State) : (setLive c s).ctrHi = s.ctrHi := rfl
@[simp] theorem setLive_live (c : Stream) (s : State) : (setLive c s).live = s.live ||| 1#32 <<< liveBit c := rfl
@[simp] theorem setLive_poly (c : Stream) (s : State) : (setLive c s).poly = s.poly := rfl
@[simp] theorem setLive_b2b (c : Stream) (s : State) : (setLive c s).b2b = s.b2b := rfl
@[simp] theorem setLive_sha (c : Stream) (s : State) : (setLive c s).sha = s.sha := rfl
@[simp] theorem setLive_hmac (c : Stream) (s : State) : (setLive c s).hmac = s.hmac := rfl
@[simp] theorem setLive_pending (c : Stream) (s : State) : (setLive c s).pending = s.pending := rfl
@[simp] theorem setLive_readData (c : Stream) (s : State) : (setLive c s).readData = s.readData := rfl
@[simp] theorem setLive_draws (c : Stream) (s : State) : (setLive c s).draws = s.draws := rfl

/-! ## clearLive -/

@[simp] theorem clearLive_ib (c : Stream) (s : State) : (clearLive c s).ib = s.ib := rfl
@[simp] theorem clearLive_ob (c : Stream) (s : State) : (clearLive c s).ob = s.ob := rfl
@[simp] theorem clearLive_status (c : Stream) (s : State) : (clearLive c s).status = s.status := rfl
@[simp] theorem clearLive_rlen (c : Stream) (s : State) : (clearLive c s).rlen = s.rlen := rfl
@[simp] theorem clearLive_ctrLo (c : Stream) (s : State) : (clearLive c s).ctrLo = s.ctrLo := rfl
@[simp] theorem clearLive_ctrHi (c : Stream) (s : State) : (clearLive c s).ctrHi = s.ctrHi := rfl
@[simp] theorem clearLive_live (c : Stream) (s : State) : (clearLive c s).live = s.live &&& ~~~(1#32 <<< liveBit c) := rfl
@[simp] theorem clearLive_poly (c : Stream) (s : State) : (clearLive c s).poly = s.poly := rfl
@[simp] theorem clearLive_b2b (c : Stream) (s : State) : (clearLive c s).b2b = s.b2b := rfl
@[simp] theorem clearLive_sha (c : Stream) (s : State) : (clearLive c s).sha = s.sha := rfl
@[simp] theorem clearLive_hmac (c : Stream) (s : State) : (clearLive c s).hmac = s.hmac := rfl
@[simp] theorem clearLive_pending (c : Stream) (s : State) : (clearLive c s).pending = s.pending := rfl
@[simp] theorem clearLive_readData (c : Stream) (s : State) : (clearLive c s).readData = s.readData := rfl
@[simp] theorem clearLive_draws (c : Stream) (s : State) : (clearLive c s).draws = s.draws := rfl

/-! ## drawn -/

@[simp] theorem drawn_ib (s : State) : (drawn s).ib = s.ib := rfl
@[simp] theorem drawn_ob (s : State) : (drawn s).ob = s.ob := rfl
@[simp] theorem drawn_status (s : State) : (drawn s).status = s.status := rfl
@[simp] theorem drawn_rlen (s : State) : (drawn s).rlen = s.rlen := rfl
@[simp] theorem drawn_ctrLo (s : State) : (drawn s).ctrLo = s.ctrLo := rfl
@[simp] theorem drawn_ctrHi (s : State) : (drawn s).ctrHi = s.ctrHi := rfl
@[simp] theorem drawn_live (s : State) : (drawn s).live = s.live := rfl
@[simp] theorem drawn_poly (s : State) : (drawn s).poly = s.poly := rfl
@[simp] theorem drawn_b2b (s : State) : (drawn s).b2b = s.b2b := rfl
@[simp] theorem drawn_sha (s : State) : (drawn s).sha = s.sha := rfl
@[simp] theorem drawn_hmac (s : State) : (drawn s).hmac = s.hmac := rfl
@[simp] theorem drawn_pending (s : State) : (drawn s).pending = s.pending := rfl
@[simp] theorem drawn_readData (s : State) : (drawn s).readData = s.readData := rfl
@[simp] theorem drawn_draws (s : State) : (drawn s).draws = s.draws + 1 := rfl

/-! ## endPoly -/

@[simp] theorem endPoly_ib (s : State) : (endPoly s).ib = s.ib := rfl
@[simp] theorem endPoly_ob (s : State) : (endPoly s).ob = s.ob := rfl
@[simp] theorem endPoly_status (s : State) : (endPoly s).status = s.status := rfl
@[simp] theorem endPoly_rlen (s : State) : (endPoly s).rlen = s.rlen := rfl
@[simp] theorem endPoly_ctrLo (s : State) : (endPoly s).ctrLo = s.ctrLo := rfl
@[simp] theorem endPoly_ctrHi (s : State) : (endPoly s).ctrHi = s.ctrHi := rfl
@[simp] theorem endPoly_live (s : State) : (endPoly s).live = s.live &&& ~~~(1#32 <<< liveBit .poly) := rfl
@[simp] theorem endPoly_poly (s : State) : (endPoly s).poly = PolyCtx.zero := rfl
@[simp] theorem endPoly_b2b (s : State) : (endPoly s).b2b = s.b2b := rfl
@[simp] theorem endPoly_sha (s : State) : (endPoly s).sha = s.sha := rfl
@[simp] theorem endPoly_hmac (s : State) : (endPoly s).hmac = s.hmac := rfl
@[simp] theorem endPoly_pending (s : State) : (endPoly s).pending = s.pending := rfl
@[simp] theorem endPoly_readData (s : State) : (endPoly s).readData = s.readData := rfl
@[simp] theorem endPoly_draws (s : State) : (endPoly s).draws = s.draws := rfl

/-! ## endB2b -/

@[simp] theorem endB2b_ib (s : State) : (endB2b s).ib = s.ib := rfl
@[simp] theorem endB2b_ob (s : State) : (endB2b s).ob = s.ob := rfl
@[simp] theorem endB2b_status (s : State) : (endB2b s).status = s.status := rfl
@[simp] theorem endB2b_rlen (s : State) : (endB2b s).rlen = s.rlen := rfl
@[simp] theorem endB2b_ctrLo (s : State) : (endB2b s).ctrLo = s.ctrLo := rfl
@[simp] theorem endB2b_ctrHi (s : State) : (endB2b s).ctrHi = s.ctrHi := rfl
@[simp] theorem endB2b_live (s : State) : (endB2b s).live = s.live &&& ~~~(1#32 <<< liveBit .b2b) := rfl
@[simp] theorem endB2b_poly (s : State) : (endB2b s).poly = s.poly := rfl
@[simp] theorem endB2b_b2b (s : State) : (endB2b s).b2b = B2bCtx.zero := rfl
@[simp] theorem endB2b_sha (s : State) : (endB2b s).sha = s.sha := rfl
@[simp] theorem endB2b_hmac (s : State) : (endB2b s).hmac = s.hmac := rfl
@[simp] theorem endB2b_pending (s : State) : (endB2b s).pending = s.pending := rfl
@[simp] theorem endB2b_readData (s : State) : (endB2b s).readData = s.readData := rfl
@[simp] theorem endB2b_draws (s : State) : (endB2b s).draws = s.draws := rfl

/-! ## endSha -/

@[simp] theorem endSha_ib (s : State) : (endSha s).ib = s.ib := rfl
@[simp] theorem endSha_ob (s : State) : (endSha s).ob = s.ob := rfl
@[simp] theorem endSha_status (s : State) : (endSha s).status = s.status := rfl
@[simp] theorem endSha_rlen (s : State) : (endSha s).rlen = s.rlen := rfl
@[simp] theorem endSha_ctrLo (s : State) : (endSha s).ctrLo = s.ctrLo := rfl
@[simp] theorem endSha_ctrHi (s : State) : (endSha s).ctrHi = s.ctrHi := rfl
@[simp] theorem endSha_live (s : State) : (endSha s).live = s.live &&& ~~~(1#32 <<< liveBit .sha) := rfl
@[simp] theorem endSha_poly (s : State) : (endSha s).poly = s.poly := rfl
@[simp] theorem endSha_b2b (s : State) : (endSha s).b2b = s.b2b := rfl
@[simp] theorem endSha_sha (s : State) : (endSha s).sha = ShaCtx.zero := rfl
@[simp] theorem endSha_hmac (s : State) : (endSha s).hmac = s.hmac := rfl
@[simp] theorem endSha_pending (s : State) : (endSha s).pending = s.pending := rfl
@[simp] theorem endSha_readData (s : State) : (endSha s).readData = s.readData := rfl
@[simp] theorem endSha_draws (s : State) : (endSha s).draws = s.draws := rfl

/-! ## endHmac -/

@[simp] theorem endHmac_ib (s : State) : (endHmac s).ib = s.ib := rfl
@[simp] theorem endHmac_ob (s : State) : (endHmac s).ob = s.ob := rfl
@[simp] theorem endHmac_status (s : State) : (endHmac s).status = s.status := rfl
@[simp] theorem endHmac_rlen (s : State) : (endHmac s).rlen = s.rlen := rfl
@[simp] theorem endHmac_ctrLo (s : State) : (endHmac s).ctrLo = s.ctrLo := rfl
@[simp] theorem endHmac_ctrHi (s : State) : (endHmac s).ctrHi = s.ctrHi := rfl
@[simp] theorem endHmac_live (s : State) : (endHmac s).live = s.live &&& ~~~(1#32 <<< liveBit .hmac) := rfl
@[simp] theorem endHmac_poly (s : State) : (endHmac s).poly = s.poly := rfl
@[simp] theorem endHmac_b2b (s : State) : (endHmac s).b2b = s.b2b := rfl
@[simp] theorem endHmac_sha (s : State) : (endHmac s).sha = s.sha := rfl
@[simp] theorem endHmac_hmac (s : State) : (endHmac s).hmac = HmacCtx.zero := rfl
@[simp] theorem endHmac_pending (s : State) : (endHmac s).pending = s.pending := rfl
@[simp] theorem endHmac_readData (s : State) : (endHmac s).readData = s.readData := rfl
@[simp] theorem endHmac_draws (s : State) : (endHmac s).draws = s.draws := rfl

/-! ## ccReturnCounter -/

@[simp] theorem ccReturnCounter_ib (conv : Conv) (n : W64) (s : State) : (ccReturnCounter conv n s).ib = s.ib := rfl
@[simp] theorem ccReturnCounter_ob (conv : Conv) (n : W64) (s : State) : (ccReturnCounter conv n s).ob = s.ob := rfl
@[simp] theorem ccReturnCounter_status (conv : Conv) (n : W64) (s : State) : (ccReturnCounter conv n s).status = s.status := rfl
@[simp] theorem ccReturnCounter_rlen (conv : Conv) (n : W64) (s : State) : (ccReturnCounter conv n s).rlen = s.rlen := rfl
@[simp] theorem ccReturnCounter_ctrLo (conv : Conv) (n : W64) (s : State) : (ccReturnCounter conv n s).ctrLo = n.setWidth 32 := rfl
@[simp] theorem ccReturnCounter_live (conv : Conv) (n : W64) (s : State) : (ccReturnCounter conv n s).live = s.live := rfl
@[simp] theorem ccReturnCounter_poly (conv : Conv) (n : W64) (s : State) : (ccReturnCounter conv n s).poly = s.poly := rfl
@[simp] theorem ccReturnCounter_b2b (conv : Conv) (n : W64) (s : State) : (ccReturnCounter conv n s).b2b = s.b2b := rfl
@[simp] theorem ccReturnCounter_sha (conv : Conv) (n : W64) (s : State) : (ccReturnCounter conv n s).sha = s.sha := rfl
@[simp] theorem ccReturnCounter_hmac (conv : Conv) (n : W64) (s : State) : (ccReturnCounter conv n s).hmac = s.hmac := rfl
@[simp] theorem ccReturnCounter_pending (conv : Conv) (n : W64) (s : State) : (ccReturnCounter conv n s).pending = s.pending := rfl
@[simp] theorem ccReturnCounter_readData (conv : Conv) (n : W64) (s : State) : (ccReturnCounter conv n s).readData = s.readData := rfl
@[simp] theorem ccReturnCounter_draws (conv : Conv) (n : W64) (s : State) : (ccReturnCounter conv n s).draws = s.draws := rfl
@[simp] theorem ccReturnCounter_ctrHi_ietf (n : W64) (s : State) : (ccReturnCounter .ietf n s).ctrHi = 0#32 := rfl
@[simp] theorem ccReturnCounter_ctrHi_djb (n : W64) (s : State) :
    (ccReturnCounter .djb n s).ctrHi = (n >>> 32).setWidth 32 := rfl
@[simp] theorem ccReturnCounter_ctrHi_x (n : W64) (s : State) :
    (ccReturnCounter .x n s).ctrHi = (n >>> 32).setWidth 32 := rfl

/-! ## applyReset -/

@[simp] theorem applyReset_ib (s : State) : (applyReset s).ib = [] := rfl
@[simp] theorem applyReset_ob (s : State) : (applyReset s).ob = [] := rfl
@[simp] theorem applyReset_status (s : State) : (applyReset s).status = 0#32 := rfl
@[simp] theorem applyReset_rlen (s : State) : (applyReset s).rlen = 0#32 := rfl
@[simp] theorem applyReset_ctrLo (s : State) : (applyReset s).ctrLo = 0#32 := rfl
@[simp] theorem applyReset_ctrHi (s : State) : (applyReset s).ctrHi = 0#32 := rfl
@[simp] theorem applyReset_live (s : State) : (applyReset s).live = 0#32 := rfl
@[simp] theorem applyReset_poly (s : State) : (applyReset s).poly = PolyCtx.zero := rfl
@[simp] theorem applyReset_b2b (s : State) : (applyReset s).b2b = B2bCtx.zero := rfl
@[simp] theorem applyReset_sha (s : State) : (applyReset s).sha = ShaCtx.zero := rfl
@[simp] theorem applyReset_hmac (s : State) : (applyReset s).hmac = HmacCtx.zero := rfl
@[simp] theorem applyReset_pending (s : State) : (applyReset s).pending = s.pending := rfl
@[simp] theorem applyReset_readData (s : State) : (applyReset s).readData = s.readData := rfl
@[simp] theorem applyReset_draws (s : State) : (applyReset s).draws = s.draws := rfl

/-! ## withFetchWord -/

@[simp] theorem withFetchWord_ib (s : State) (nbits w : Nat) : (s.withFetchWord nbits w).ib = s.ib := rfl
@[simp] theorem withFetchWord_ob (s : State) (nbits w : Nat) : (s.withFetchWord nbits w).ob = s.ob := rfl
@[simp] theorem withFetchWord_status (s : State) (nbits w : Nat) : (s.withFetchWord nbits w).status = s.status := rfl
@[simp] theorem withFetchWord_rlen (s : State) (nbits w : Nat) : (s.withFetchWord nbits w).rlen = s.rlen := rfl
@[simp] theorem withFetchWord_ctrLo (s : State) (nbits w : Nat) : (s.withFetchWord nbits w).ctrLo = s.ctrLo := rfl
@[simp] theorem withFetchWord_ctrHi (s : State) (nbits w : Nat) : (s.withFetchWord nbits w).ctrHi = s.ctrHi := rfl
@[simp] theorem withFetchWord_live (s : State) (nbits w : Nat) : (s.withFetchWord nbits w).live = s.live := rfl
@[simp] theorem withFetchWord_poly (s : State) (nbits w : Nat) : (s.withFetchWord nbits w).poly = s.poly := rfl
@[simp] theorem withFetchWord_b2b (s : State) (nbits w : Nat) : (s.withFetchWord nbits w).b2b = s.b2b := rfl
@[simp] theorem withFetchWord_sha (s : State) (nbits w : Nat) : (s.withFetchWord nbits w).sha = s.sha := rfl
@[simp] theorem withFetchWord_hmac (s : State) (nbits w : Nat) : (s.withFetchWord nbits w).hmac = s.hmac := rfl
@[simp] theorem withFetchWord_pending (s : State) (nbits w : Nat) : (s.withFetchWord nbits w).pending = commandMove (BitVec.ofNat 32 (w % 2 ^ nbits)) :: s.pending := rfl
@[simp] theorem withFetchWord_readData (s : State) (nbits w : Nat) : (s.withFetchWord nbits w).readData = s.readData := rfl
@[simp] theorem withFetchWord_draws (s : State) (nbits w : Nat) : (s.withFetchWord nbits w).draws = s.draws := rfl

end Sys2Proof.Machine
end

