-- ==== Sys2Proof/Laws/Ops.lean ====
section
/-! SUPPORT. What each shared operation can do, said once: if it answers a next state, then which one. -/

namespace Sys2Proof.Machine

/-! ## STATUS (R26, R330) -/

theorem statusWord_ok : statusWord .ok false = 0x00000000#32 := by decide
theorem statusWord_ok_rf : statusWord .ok true = 0x00000002#32 := by decide
theorem statusWord_illegal : statusWord .illegal false = 0x00000010#32 := by decide
theorem statusWord_seq : statusWord .seq false = 0x00000020#32 := by decide
theorem statusWord_decodeFail : statusWord .decodeFail false = 0x00000030#32 := by decide

@[simp] theorem statusCode_statusWord (c : Code) (rf : Bool) : statusCode (statusWord c rf) = codeBits c := by
  cases c <;> cases rf <;> decide

@[simp] theorem statusRf_statusWord (c : Code) (rf : Bool) : statusRf (statusWord c rf) = rf := by
  cases c <;> cases rf <;> decide

@[simp] theorem statusBusy_statusWord (c : Code) (rf : Bool) : statusBusy (statusWord c rf) = false := by
  cases c <;> cases rf <;> decide

/-! ## LIVE (R29) -/

theorem isLive_setLive (c d : Stream) (s : State) : isLive d (setLive c s) = (decide (d = c) || isLive d s) := by
  cases c <;> cases d <;> simp [isLive, setLive, liveBit]

theorem isLive_clearLive (c d : Stream) (s : State) : isLive d (clearLive c s) = (!decide (d = c) && isLive d s) := by
  cases c <;> cases d <;> simp [isLive, clearLive, liveBit]

/-! ## The common endings (R97, R334) and the checks before them (R95) -/

theorem finish_next {v : Bytes} {s t : State} : finish v s = .next t ↔ t = done v false s := by
  simp [finish, eq_comm]

theorem fail_next {c : Code} {s t : State} : fail c s = .next t ↔ t = raise c s := by
  simp [fail, eq_comm]

theorem inRange_next {ok : Bool} {s t : State} {body : Result} (h : inRange ok s body = .next t) :
    ok = true ∧ body = .next t ∨ ok = false ∧ t = raise .illegal s := by
  cases ok
  · exact .inr ⟨rfl, fail_next.1 h⟩
  · exact .inl ⟨rfl, h⟩

theorem whenLive_next {c : Stream} {s t : State} {body : Result} (h : whenLive c s body = .next t) :
    isLive c s = true ∧ body = .next t ∨ isLive c s = false ∧ t = raise .seq s := by
  unfold whenLive at h
  cases hl : isLive c s
  · exact .inr ⟨rfl, fail_next.1 (by simpa [hl] using h)⟩
  · exact .inl ⟨rfl, by simpa [hl] using h⟩

/-- Every byte of OB after `done`: the result bytes, then what was there (R97). -/
theorem memRead_done (v : Bytes) (rf : Bool) (s : State) (a : Nat) :
    memRead (done v rf s).ob a = if a < v.length then v.getD a 0#8 else memRead s.ob a := by
  simp [memRead_memWriteBytes]

/-- The result bytes of `done`, read back (R97). -/
theorem memReadBytes_done (v : Bytes) (rf : Bool) (s : State) :
    memReadBytes (done v rf s).ob 0 v.length = v := memReadBytes_memWriteBytes s.ob 0 v

/-! ## The window (R61 to R66) -/

/-- A command word: the failure effect with ILLEGAL, or the command's meaning (R95, R96). -/
theorem issue_cases (w : W32) (s : State) :
    (∃ e, decode w = .error e ∧ issue w s = .next (raise .illegal s)) ∨
      ∃ i, decode w = .ok i ∧ issue w s = exec i s := by
  unfold issue
  cases h : decode w with
  | error e => exact .inl ⟨e, rfl, rfl⟩
  | ok i => exact .inr ⟨i, rfl, rfl⟩

/-- A bus write that is served executes a command word, stores bytes in IB, or is ignored. -/
theorem busWrite_next {off : Nat} {data : Bytes} {s t : State} (h : busWrite off data s = .next t) :
    off = 0 ∧ data.length = 4 ∧ issue (le32 data) s = .next t ∨
      0x1000 ≤ off ∧ off + data.length ≤ 0x2000 ∧ t = { s with ib := memWriteBytes s.ib (off - 0x1000) data } ∨
      t = s := by
  unfold busWrite at h
  split at h
  · cases h
  · split at h
    · unfold writeRegister at h
      split at h
      · next hw =>
        split at h
        · next h0 => exact .inl ⟨h0, by simpa using (Bool.and_eq_true_iff.1 hw).2, h⟩
        · cases h; exact .inr (.inr rfl)
      · cases h
    · next hr =>
      split at h
      · next hl =>
        cases h
        refine .inr (.inl ⟨?_, hl, rfl⟩)
        by_contra hlt
        simp [regionOf, show off < 0x1000 by omega] at hr
      · cases h
    all_goals first
      | (split at h <;> cases h; exact .inr (.inr rfl))
      | cases h

/-- A bus read that is served changes the returned bytes alone (R64). -/
theorem busRead_next {off n : Nat} {s t : State} (h : busRead off n s = .next t) :
    ∃ bytes, t = { s with readData := bytes } := by
  unfold busRead at h
  split at h
  all_goals first
    | (split at h <;> cases h; exact ⟨_, rfl⟩)
    | cases h

/-- What a step can do: nothing where the host does nothing, else the oldest move is served. -/
theorem step_next {s t : State} (h : step s = .next t) :
    s.pending = [] ∧ t = s ∨ ∃ m rest, s.pending = m :: rest ∧ serve m { s with pending := rest } = .next t := by
  unfold step serveNext at h
  split at h
  · next hp => cases h; exact .inl ⟨hp, rfl⟩
  · next m rest hp => exact .inr ⟨m, rest, hp, h⟩

/-- The command word that `withFetchWord` places is the one that the next step executes. -/
theorem step_withFetchWord (s : State) (nbits w : Nat) :
    step (s.withFetchWord nbits w) = issue (BitVec.ofNat 32 (w % 2 ^ nbits)) s := by
  have hle : ∀ x : W32, le32 (bytes32 x) = x := fun x => by
    apply BitVec.eq_of_toNat_eq
    have := x.isLt
    simp only [le32, bytes32, le_tole, BitVec.toNat_ofNat]
    omega
  simp only [step, serveNext, State.withFetchWord, commandMove, serve, busWrite, regionOf, writeRegister, wordAccess,
    bytes32_length, hle]
  rfl

end Sys2Proof.Machine
end

