-- ==== Sys2Proof/Laws/PerInstr.lean ====
section
/-! SUPPORT. One statement about every command as syntax: the three fields of its word are its OP, its FLAGS and its LEN
(spec rules R91, R94, R99). -/

namespace Sys2Proof.Laws

/-- The fields of a word built as `LEN ‖ FLAGS ‖ OP`. -/
theorem fields_of_append (len : BitVec 16) (flags op : BitVec 8) :
    opOf (len ++ flags ++ op) = op ∧ flagsOf (len ++ flags ++ op) = flags ∧ lenOf (len ++ flags ++ op) = len := by
  refine ⟨?_, ?_, ?_⟩
  all_goals
    apply BitVec.eq_of_getLsbD_eq
    intro i hi
    simp only [opOf, flagsOf, lenOf, BitVec.getLsbD_extractLsb', BitVec.getLsbD_append]
  · simp [hi]
  · have h1 : ¬8 + i < 8 := by omega
    simp [hi, h1]
  · have h1 : ¬16 + i < 8 := by omega
    have h2 : ¬16 + i - 8 < 8 := by omega
    have h3 : 16 + i - 8 - 8 = i := by omega
    simp [hi, h1, h2, h3]

/-- The fields of a command's word are its OP, its FLAGS and its LEN. -/
def EncodeFields.Statement (i : Instr) : Prop :=
  opOf (encode i) = opBits i ∧ flagsOf (encode i) = flagBits i ∧ lenOf (encode i) = lenBits i

theorem encodeFields (i : Instr) : EncodeFields.Statement i := fields_of_append _ _ _

theorem EncodeFields.wipe (mask : BitVec 6) : EncodeFields.Statement (.wipe mask) := encodeFields _
theorem EncodeFields.cc20Xor (conv : Conv) (ks : Bool) (len : BitVec 16) : EncodeFields.Statement (.cc20Xor conv ks len) := encodeFields _
theorem EncodeFields.cc20H : EncodeFields.Statement (.cc20H) := encodeFields _
theorem EncodeFields.p1305Init : EncodeFields.Statement (.p1305Init) := encodeFields _
theorem EncodeFields.p1305Update (len : BitVec 16) : EncodeFields.Statement (.p1305Update len) := encodeFields _
theorem EncodeFields.p1305Final : EncodeFields.Statement (.p1305Final) := encodeFields _
theorem EncodeFields.b2bInit (outlen : BitVec 7) (len : BitVec 16) : EncodeFields.Statement (.b2bInit outlen len) := encodeFields _
theorem EncodeFields.b2bUpdate (len : BitVec 16) : EncodeFields.Statement (.b2bUpdate len) := encodeFields _
theorem EncodeFields.b2bFinal : EncodeFields.Statement (.b2bFinal) := encodeFields _
theorem EncodeFields.s512Init : EncodeFields.Statement (.s512Init) := encodeFields _
theorem EncodeFields.s512Update (len : BitVec 16) : EncodeFields.Statement (.s512Update len) := encodeFields _
theorem EncodeFields.s512Final : EncodeFields.Statement (.s512Final) := encodeFields _
theorem EncodeFields.hmacInit (len : BitVec 16) : EncodeFields.Statement (.hmacInit len) := encodeFields _
theorem EncodeFields.hmacUpdate (len : BitVec 16) : EncodeFields.Statement (.hmacUpdate len) := encodeFields _
theorem EncodeFields.hmacFinal : EncodeFields.Statement (.hmacFinal) := encodeFields _
theorem EncodeFields.a2Fill (xor : Bool) : EncodeFields.Statement (.a2Fill xor) := encodeFields _
theorem EncodeFields.feInv : EncodeFields.Statement (.feInv) := encodeFields _
theorem EncodeFields.feIsqrt : EncodeFields.Statement (.feIsqrt) := encodeFields _
theorem EncodeFields.mmul : EncodeFields.Statement (.mmul) := encodeFields _
theorem EncodeFields.bred : EncodeFields.Statement (.bred) := encodeFields _
theorem EncodeFields.bmad : EncodeFields.Statement (.bmad) := encodeFields _
theorem EncodeFields.xLadder (trim w : Bool) : EncodeFields.Statement (.xLadder trim w) := encodeFields _
theorem EncodeFields.geAdd (sub : Bool) : EncodeFields.Statement (.geAdd sub) := encodeFields _
theorem EncodeFields.geSmulBase : EncodeFields.Statement (.geSmulBase) := encodeFields _
theorem EncodeFields.geSmulVar (cin : Bool) : EncodeFields.Statement (.geSmulVar cin) := encodeFields _

end Sys2Proof.Laws
end

