-- ==== Sys2Proof/Laws/Prime.lean ====
section
/-! SUPPORT. The field prime is prime (R225), by Lucas' test down a tree of smaller primes. -/

namespace Sys2Proof.Machine

/-- `acc * a^e mod n` by square and multiply, for exponents below `2^fuel`. -/
def powMod (n : Nat) : Nat → Nat → Nat → Nat → Nat
  | 0, _, _, acc => acc % n
  | fuel + 1, a, e, acc => powMod n fuel (a * a % n) (e / 2) (if e % 2 = 1 then acc * a % n else acc)

theorem powMod_eq (n fuel a e acc : Nat) (he : e < 2 ^ fuel) : powMod n fuel a e acc = acc * a ^ e % n := by
  induction fuel generalizing a e acc with
  | zero => simp [powMod, show e = 0 by omega]
  | succ k ih =>
    have hpow : a ^ e = (a * a) ^ (e / 2) * a ^ (e % 2) := by
      rw [← pow_two, ← pow_mul, ← pow_add]; congr 1; omega
    rw [powMod, ih _ _ _ (by rw [Nat.pow_succ] at he; omega), hpow]
    split
    · next h1 =>
      rw [h1, pow_one, Nat.mul_mod, Nat.mod_mod, Nat.pow_mod, Nat.mod_mod, ← Nat.pow_mod, ← Nat.mul_mod]
      congr 1; ring
    · next h1 =>
      rw [show e % 2 = 0 by omega, pow_zero, mul_one]
      conv_lhs => rw [Nat.mul_mod, Nat.pow_mod, Nat.mod_mod, ← Nat.pow_mod, ← Nat.mul_mod]

/-- What Lucas' test computes: `g` to the `n-1` is 1, and to no `(n-1)/q`. -/
def lucasOk (n g : Nat) (fs : List Nat) : Bool :=
  decide (n < 2 ^ 256) && decide (2 ≤ n) && fs.prod == n - 1 && powMod n 256 g (n - 1) 1 == 1 &&
    fs.all fun q => powMod n 256 g ((n - 1) / q) 1 != 1

/-- Lucas' test from the primes of `n - 1`, listed with their multiplicity, and a generator `g`. -/
theorem prime_of_lucasOk (n g : Nat) (fs : List Nat) (hp : ∀ q ∈ fs, q.Prime) (h : lucasOk n g fs = true) : n.Prime := by
  simp only [lucasOk, Bool.and_eq_true, decide_eq_true_eq, beq_iff_eq, List.all_eq_true, bne_iff_ne] at h
  obtain ⟨⟨⟨⟨hn, h2⟩, hf⟩, h1⟩, hne⟩ := h
  have one_iff : ∀ k, k ≤ n → ((g : ZMod n) ^ k = 1 ↔ powMod n 256 g k 1 = 1) := fun k hk => by
    rw [powMod_eq n 256 g k 1 (by omega), one_mul, ← Nat.cast_pow, ← Nat.cast_one (R := ZMod n), ZMod.natCast_eq_natCast_iff,
      Nat.ModEq, Nat.mod_eq_of_lt (by omega : 1 < n)]
  refine lucas_primality n (g : ZMod n) ((one_iff _ (Nat.sub_le _ _)).2 h1) fun q hq hd => ?_
  have hmem : q ∈ fs := mem_list_primes_of_dvd_prod hq.prime (fun r hr => (hp r hr).prime) (hf ▸ hd)
  exact fun hk => hne q hmem ((one_iff _ ((Nat.div_le_self _ _).trans (Nat.sub_le _ _))).1 hk)

theorem prime_2773320623 : Nat.Prime 2773320623 :=
  prime_of_lucasOk _ 5 [2, 2437, 569003] (by norm_num) (by decide +kernel)

theorem prime_72106336199 : Nat.Prime 72106336199 :=
  prime_of_lucasOk _ 7 [2, 13, 2773320623] (by simp only [List.forall_mem_cons, prime_2773320623]; norm_num) (by decide +kernel)

theorem prime_8574133 : Nat.Prime 8574133 :=
  prime_of_lucasOk _ 2 [2, 2, 3, 7, 103, 991] (by norm_num) (by decide +kernel)

theorem prime_1919519569386763 : Nat.Prime 1919519569386763 :=
  prime_of_lucasOk _ 2 [2, 3, 7, 19, 47, 47, 127, 8574133] (by simp only [List.forall_mem_cons, prime_8574133]; norm_num) (by decide +kernel)

theorem prime_75445702479781427272750846543864801 : Nat.Prime 75445702479781427272750846543864801 :=
  prime_of_lucasOk _ 7 [2, 2, 2, 2, 2, 3, 3, 5, 5, 75707, 72106336199, 1919519569386763]
    (by simp only [List.forall_mem_cons, prime_72106336199, prime_1919519569386763]; norm_num) (by decide +kernel)

theorem prime_31757755568855353 : Nat.Prime 31757755568855353 :=
  prime_of_lucasOk _ 10 [2, 2, 2, 3, 31, 107, 223, 4153, 430751] (by norm_num) (by decide +kernel)

/-- The largest prime of `p - 1`. -/
theorem prime_large_factor : Nat.Prime 74058212732561358302231226437062788676166966415465897661863160754340907 :=
  prime_of_lucasOk _ 2 [2, 3, 353, 57467, 132049, 1923133, 31757755568855353, 75445702479781427272750846543864801]
    (by simp only [List.forall_mem_cons, prime_31757755568855353, prime_75445702479781427272750846543864801]; norm_num) (by decide +kernel)

/-- `p = 2^255 - 19` is prime (R225). -/
theorem fieldP_prime : Nat.Prime fieldP :=
  prime_of_lucasOk _ 2 [2, 2, 3, 65147, 74058212732561358302231226437062788676166966415465897661863160754340907]
    (by simp only [List.forall_mem_cons, prime_large_factor]; norm_num) (by decide +kernel)

end Sys2Proof.Machine
end

