-- ==== Sys2Proof/Tests/Slice0.lean ====
section
/-! SUPPORT. Tests of the model. Expected values come from the spec: the worked encodings of 30_encoding.md, the vectors of
95_test_vectors.md (named in the docstrings) and the examples of the command rules. Byte strings are written as one hexadecimal
number, byte 0 first. The theorems named `witness_…` show a state and operands that meet the hypotheses of an obligation. -/

namespace Sys2Proof.Tests

set_option Elab.async false

open Sys2Proof.Machine Sys2Proof.Claims

/-! ## Helpers -/

/-- Whether a step answers a next state. -/
def isNext : Result → Bool
  | .next _ => true
  | .fault _ | .refused _ => false

/-- The next state a step answers. -/
def after : Result → State
  | .next s => s
  | .fault _ | .refused _ => State.reset

theorem eq_next {r : Result} (h : isNext r = true) : r = .next (after r) := by
  cases r <;> simp_all [isNext, after]

/-- `IBW a, v` with `n` bytes. -/
def put (a n v : Nat) (s : State) : State := { s with ib := memWriteBytes s.ib a (tobe n v) }

/-- The first `n` bytes of OB, read as the spec prints them. -/
def out (n : Nat) (r : Result) : Nat := be (memReadBytes (after r).ob 0 n)

/-- STATUS and RLEN. -/
def ending (r : Result) : Nat × Nat := ((after r).status.toNat, (after r).rlen.toNat)

/-- A state in which all four contexts are live, each with some bytes waiting. -/
def allLive : State :=
  { State.reset with
    live := 15#32
    poly := { r := 4#128, pad := 7#128, h := 9, buf := [1#8, 2#8] }
    b2b := { h := shaH0, t := 128#128, buf := [3#8], outlen := 32 }
    sha := { h := shaH0, buf := [4#8], nbits := 8#128 }
    hmac := { kblock := List.replicate 128 5#8, inner := { h := shaH0, buf := [6#8], nbits := 1032#128 } } }

/-! ## Well-formedness -/

theorem test_wf_text_length : (Instr.cc20Xor .djb false 1024#16).wellFormed = true ∧
    (Instr.cc20Xor .djb false 1025#16).wellFormed = false := by decide

theorem test_wf_chunk_lengths : ∀ mk ∈ [Instr.p1305Update, Instr.b2bUpdate, Instr.s512Update, Instr.hmacInit, Instr.hmacUpdate],
    (mk 4096#16).wellFormed = true ∧ (mk 4097#16).wellFormed = false := by decide

theorem test_wf_b2b_outlen : (Instr.b2bInit 0#7 0#16).wellFormed = false ∧ (Instr.b2bInit 1#7 0#16).wellFormed = true ∧
    (Instr.b2bInit 64#7 64#16).wellFormed = true ∧ (Instr.b2bInit 65#7 0#16).wellFormed = false := by decide

theorem test_wf_b2b_key : (Instr.b2bInit 64#7 65#16).wellFormed = false := by decide

/-! ## Decoding: words written out from 30_encoding.md, one or more for each command -/

theorem test_decode_wipe : decodeTableWord 32 0x00003F01 = some (.wipe 0x3F#6) ∧
    decodeTableWord 32 0x00000401 = some (.wipe 0x04#6) := by decide +kernel

theorem test_decode_chacha20 : decodeTableWord 32 0x00720110 = some (.cc20Xor .ietf false 114#16) ∧
    decodeTableWord 32 0x00100210 = some (.cc20Xor .x false 16#16) ∧
    decodeTableWord 32 0x00400410 = some (.cc20Xor .djb true 64#16) ∧
    decodeTableWord 32 0x00000011 = some .cc20H := by decide +kernel

theorem test_decode_poly1305 : decodeTableWord 32 0x00000020 = some .p1305Init ∧
    decodeTableWord 32 0x10000021 = some (.p1305Update 4096#16) ∧
    decodeTableWord 32 0x00000022 = some .p1305Final := by decide +kernel

theorem test_decode_blake2b : decodeTableWord 32 0x00102030 = some (.b2bInit 32#7 16#16) ∧
    decodeTableWord 32 0x00030031 = some (.b2bUpdate 3#16) ∧
    decodeTableWord 32 0x00000032 = some .b2bFinal := by decide +kernel

theorem test_decode_sha512 : decodeTableWord 32 0x00000040 = some .s512Init ∧
    decodeTableWord 32 0x00030041 = some (.s512Update 3#16) ∧
    decodeTableWord 32 0x00000042 = some .s512Final := by decide +kernel

theorem test_decode_hmac : decodeTableWord 32 0x00140050 = some (.hmacInit 20#16) ∧
    decodeTableWord 32 0x00080051 = some (.hmacUpdate 8#16) ∧
    decodeTableWord 32 0x00000052 = some .hmacFinal := by decide +kernel

theorem test_decode_argon2 : decodeTableWord 32 0x00000060 = some (.a2Fill false) ∧
    decodeTableWord 32 0x00000160 = some (.a2Fill true) := by decide +kernel

theorem test_decode_field : decodeTableWord 32 0x00000070 = some .feInv ∧
    decodeTableWord 32 0x00000071 = some .feIsqrt := by decide +kernel

theorem test_decode_scalar : decodeTableWord 32 0x00000080 = some .mmul ∧ decodeTableWord 32 0x00000081 = some .bred ∧
    decodeTableWord 32 0x00000082 = some .bmad := by decide +kernel

theorem test_decode_ladder : decodeTableWord 32 0x00000190 = some (.xLadder true false) ∧
    decodeTableWord 32 0x00000290 = some (.xLadder false true) := by decide +kernel

theorem test_decode_ed25519 : decodeTableWord 32 0x000000A0 = some (.geAdd false) ∧
    decodeTableWord 32 0x000001A0 = some (.geAdd true) ∧ decodeTableWord 32 0x000000A1 = some .geSmulBase ∧
    decodeTableWord 32 0x000000A2 = some (.geSmulVar false) ∧
    decodeTableWord 32 0x000001A2 = some (.geSmulVar true) := by decide +kernel

/-- Illegal rows of 95_test_vectors.md section 3: each step of R95, and each range at its first value outside. -/
theorem test_decode_illegal : ∀ w ∈ [0x00000000, 0x00004001, 0x00010001, 0x00000002, 0x00000310, 0x00000810, 0x04010010,
    0x04000710, 0x00000111, 0x10010021, 0x00000030, 0x00004130, 0x00008130, 0x00414030, 0x10010031, 0x00010040, 0x10010050,
    0x00000260, 0x00000171, 0x80000080, 0x00000490, 0x000002A0, 0x000001A1, 0x000002A2, 0x000000B0, 0xFFFFFFFF],
    decodeTableWord 32 w = none := by decide +kernel

/-! ## The step -/

/-- Every opcode runs as the first command after reset, with the STATUS of 95_test_vectors.md section 3. -/
theorem test_step_first_command : ∀ p ∈ [(0x3F01, 0x00), (0x04000010, 0x00), (0x11, 0x00), (0x20, 0x00), (0x21, 0x20),
    (0x22, 0x20), (0x4030, 0x00), (0x31, 0x20), (0x32, 0x20), (0x40, 0x00), (0x41, 0x20), (0x42, 0x20), (0x50, 0x00),
    (0x51, 0x20), (0x52, 0x20), (0x160, 0x00), (0x70, 0x00), (0x71, 0x02), (0x80, 0x00), (0x81, 0x00), (0x82, 0x00),
    (0x90, 0x00), (0xA0, 0x00), (0xA1, 0x00), (0xA2, 0x00), (0x1A2, 0x00), (0x00, 0x10), (0x10010021, 0x10)],
    isNext (step (State.reset.withFetchWord 32 p.1)) = true ∧
      (ending (step (State.reset.withFetchWord 32 p.1))).1 = p.2 := by decide +kernel

/-- R63: the byte at the lowest address is the least significant, in CMD and in IB. -/
theorem test_step_byte_order :
    after (step { State.reset with pending := [.write 0 [0x71#8, 0#8, 0#8, 0#8]] }) =
        after (exec .feIsqrt State.reset) ∧
      (after (step { State.reset with pending := [.write 0x1FFE [7#8, 8#8]] })).ib = [(4094, 7#8), (4095, 8#8)] := by
  decide +kernel

/-- R61, R65: refused accesses. -/
theorem test_step_refused : ∀ m ∈ [HostMove.write 2 [0#8, 0#8, 0#8, 0#8], .read 4 2, .write 0x1FFF [1#8, 2#8], .read 0x23FD 4,
    .read 0x3000 1, .read 0x2FFE 4], isNext (step { State.reset with pending := [m] }) = false := by decide +kernel

/-! ## The commands -/

/-- R320: MASK = 0x04 ends the Poly1305 stream alone. -/
theorem test_wipe : (after (exec (.wipe 0x04#6) allLive)).live = 14#32 ∧
    (after (exec (.wipe 0x04#6) allLive)).poly = PolyCtx.zero ∧
    (after (exec (.wipe 0x04#6) allLive)).sha = allLive.sha := by decide +kernel

/-- R320 corner case (e). -/
theorem test_wipe_all : after (exec (.wipe 0x3F#6) (put 0 4 0x01020304 allLive)) = State.reset := by decide +kernel

/-- QR1. -/
theorem test_quarter_round : ccQuarter 0x11111111#32 0x01020304#32 0x9b8d6f43#32 0x01234567#32 =
    (0xea2a92f4#32, 0xcb1cf8ce#32, 0x4581472e#32, 0x5881c4bb#32) := by decide +kernel

/-- The operands of CC4. -/
def cc4 : State :=
  put 56 4 0xffffffff (put 32 12 0x0102030405060708090a0b0c
    (put 0 32 0x000102030405060708090a0b0c0d0e0f101112131415161718191a1b1c1d1e1f State.reset))

/-- CC4: the 32-bit counter wraps into the nonce word. -/
theorem test_cc20_xor_ietf_wrap : out 128 (exec (.cc20Xor .ietf true 128#16) cc4) =
    0xc4e9bc95855bfc7f5456e79b23564422a662e195208fc8a7d24bd6c35a366573688febc54eade68bc3d3e3529dcec58ac73440107ff9021defca771ad3825c3d75a6618702d9fa8d1c1fbd1a2646acddecfe7f93b195ce7b567e7f69ce2dab0add6df89f664445dd31e670d16720f8cc18aa85e83e05573af3f8897fde0b5cdf
    ∧ (after (exec (.cc20Xor .ietf true 128#16) cc4)).ctrLo = 1#32
    ∧ (after (exec (.cc20Xor .ietf true 128#16) cc4)).ctrHi = 0#32 := by decide +kernel

/-- CC6: the X convention on a text. -/
theorem test_cc20_xor_x : out 16 (exec (.cc20Xor .x false 16#16)
    (put 64 16 0x68656c6c6f2c20786368616368613230 (put 32 24 0x404142434445464748494a4b4c4d4e4f5051525354555657
      (put 0 32 0x808182838485868788898a8b8c8d8e8f909192939495969798999a9b9c9d9e9f State.reset)))) =
    0x137c73ec9c4dd0e16a270e28e7d84fc8 := by decide +kernel

/-- CC7. -/
theorem test_cc20_h : out 32 (exec .cc20H (put 32 16 0x000000090000004a0000000031415927
    (put 0 32 0x000102030405060708090a0b0c0d0e0f101112131415161718191a1b1c1d1e1f State.reset))) =
    0x82413b4227b27bfed30e42508a877d73a0f9e4d58a74a853c12ec41326d3ecdc := by decide +kernel

/-- The key of PO1. -/
def poKey : State := put 0 32 0x85d6be7857556d337f4452fe42d506a80103808afb0db2fd4abff6af4149f51b State.reset

/-- The example of R141. -/
theorem test_p1305_init : (after (exec .p1305Init poKey)).poly =
    { r := 0x0806d5400e52447c036d555408bed685#128, pad := 0x1bf54941aff6bf4afdb20dfb8a800301#128, h := 0, buf := [] } ∧
    (after (exec .p1305Init poKey)).live = 1#32 := by decide +kernel

/-- The example of R142. -/
theorem test_p1305_update :
    (after (exec (.p1305Update 10#16) (put 0 10 0x43727970746f67726170 (after (exec .p1305Init poKey))))).poly.buf =
      tobe 10 0x43727970746f67726170 := by decide +kernel

/-- PO1: the tag, a partial block included. -/
theorem test_p1305_final : out 16 (exec .p1305Final (after (exec (.p1305Update 34#16)
    (put 0 34 0x43727970746f6772617068696320466f72756d2052657365617263682047726f7570 (after (exec .p1305Init poKey)))))) =
    0xa8061dc1305136c6c22b8baf0c0127a9 := by decide +kernel

/-- PO7: the sum with the pad wraps mod 2^128. -/
theorem test_p1305_final_wraps : out 16 (exec .p1305Final { State.reset with live := 1#32, poly :=
    { r := 2#128, pad := 0xffffffffffffffffffffffffffffffff#128, h := 2 ^ 129 + 4, buf := [] } }) =
    0x03000000000000000000000000000000 := by decide +kernel

/-- The example of R164. -/
theorem test_b2b_init : (after (exec (.b2bInit 64#7 0#16) State.reset)).b2b.h[0] = 0x6a09e667f2bdc948#64 ∧
    (after (exec (.b2bInit 64#7 0#16) State.reset)).live = 2#32 := by decide +kernel

/-- A full buffer waits; one more byte compresses it, with the counter grown first (R165, B6). -/
theorem test_b2b_update_lazy :
    let s := after (exec (.b2bUpdate 128#16) (after (exec (.b2bInit 64#7 0#16) State.reset)))
    s.b2b.buf.length = 128 ∧ s.b2b.t = 0#128 ∧ (after (exec (.b2bUpdate 1#16) s)).b2b.buf = [0#8] ∧
      (after (exec (.b2bUpdate 1#16) s)).b2b.t = 128#128 := by decide +kernel

/-- B1: "abc". -/
theorem test_b2b_final : out 64 (exec .b2bFinal { State.reset with live := 2#32, b2b := b2Update (b2Init 64 []) [0x61#8, 0x62#8, 0x63#8] }) =
    0xba80a53f981c4d0d6a2797b69f12f6e94c212f14685ac4b74b12bb6fdbffa2d17d87c5392aab792dc252d5de4533cc9518d38aa8dbf1925ab92386edd4009923 := by
  decide +kernel

theorem test_s512_init : (after (exec .s512Init State.reset)).sha.h[0] = 0x6a09e667f3bcc908#64 ∧
    (after (exec .s512Init State.reset)).live = 4#32 := by decide +kernel

/-- The example of R185. -/
theorem test_s512_update :
    (after (exec (.s512Update 3#16) (put 0 3 0x616263 (after (exec .s512Init State.reset))))).sha =
      { h := shaH0, buf := [0x61#8, 0x62#8, 0x63#8], nbits := 24#128 } := by decide +kernel

/-- The example of R186: "abc". -/
theorem test_s512_final : out 64 (exec .s512Final { State.reset with live := 4#32, sha := { h := shaH0, buf := [0x61#8, 0x62#8, 0x63#8], nbits := 24#128 } }) =
    0xddaf35a193617abacc417349ae20413112e6fa4e89a97ea20a9eeee64b55d39a2192992a274fc1a836ba3c23a3feebbd454d4423643ce80e2a9ac94fa54ca49f := by
  decide +kernel

/-- The state after the HMAC_INIT of R190's example. -/
def hmKeyed : State :=
  after (exec (.hmacInit 20#16) (put 0 20 0x0b0b0b0b0b0b0b0b0b0b0b0b0b0b0b0b0b0b0b0b State.reset))

/-- The example of R190. -/
theorem test_hmac_init : hmKeyed.live = 8#32 ∧ hmKeyed.rlen = 0#32 ∧ hmKeyed.hmac.inner.nbits = 1024#128 ∧
    hmKeyed.sha = ShaCtx.zero := by decide +kernel

/-- The example of R191: "Hi There". -/
theorem test_hmac_update : (after (exec (.hmacUpdate 8#16) (put 0 8 0x4869205468657265 hmKeyed))).hmac.inner.nbits = 1088#128 ∧
    (after (exec (.hmacUpdate 8#16) (put 0 8 0x4869205468657265 hmKeyed))).hmac.inner.buf = tobe 8 0x4869205468657265 := by
  decide +kernel

/-- The example of R192. -/
theorem test_hmac_final : out 64 (exec .hmacFinal (after (exec (.hmacUpdate 8#16) (put 0 8 0x4869205468657265 hmKeyed)))) =
    0x87aa7cdea5ef619d4ff0b4241a1d6cb02379f4e2ce4ec2787ad0b30545e17cdedaa833b7d6b8a702038b274eaea3f4e4be9d914eeb61f1702e696c203a126854 := by
  decide +kernel

/-- The example of R213. -/
theorem test_a2_fill : be ((a2Block false (1#8 :: zeros 1023) (zeros 1024) []).take 32) =
    0xf4c6f41cff22f713b298da32cf51ce056b0a7a5d11e535bde9c3886f7a58632d := by decide +kernel

/-- FE3 and FE7. -/
theorem test_fe_inv : out 32 (exec .feInv (put 0 1 2 State.reset)) =
      0xf7ffffffffffffffffffffffffffffffffffffffffffffffffffffffffffff3f ∧
    out 32 (exec .feInv (put 31 1 0x80 (put 0 1 3 State.reset))) =
      0x4955555555555555555555555555555555555555555555555555555555555555 := by decide +kernel

/-- FE12 and FE13. -/
theorem test_fe_isqrt : out 32 (exec .feIsqrt (put 0 1 2 State.reset)) =
      0x4f5007a5930d77623cf29756038ca197d3ebfd9e4c80a69585efe0274092c155 ∧
    ending (exec .feIsqrt (put 0 1 2 State.reset)) = (0, 32) ∧
    out 32 (exec .feIsqrt (put 0 1 4 State.reset)) =
      0xf6ffffffffffffffffffffffffffffffffffffffffffffffffffffffffffff3f ∧
    ending (exec .feIsqrt (put 0 1 4 State.reset)) = (2, 32) := by decide +kernel

/-- SC5. -/
theorem test_mmul : out 32 (exec .mmul (put 0 64
    0xecd3f55c1a631258d69cf7a2def9de1400000000000000000000000000000010ffffffffffffffffffffffffffffffffffffffffffffffffffffffffffffffff
    State.reset)) = 0x230d5f3da4cc66c74c753f976ac6f5b7be36fa8f43754e618391fe266f6cdb09 := by decide +kernel

/-- SC7: outside the precondition the command succeeds all the same. -/
theorem test_mmul_unspecified : ending (exec .mmul (put 0 64 (2 ^ 512 - 1) State.reset)) = (0, 32) := by decide +kernel

/-- SC16. -/
theorem test_bred : out 32 (exec .bred (put 0 64 (2 ^ 512 - 1) State.reset)) =
    0x000f9c44e31106a447938568a71b0ed065bef517d273ecce3d9a307c1b419903 := by decide +kernel

/-- SC21. -/
theorem test_bmad : out 32 (exec .bmad (put 0 96 (2 ^ 768 - 1) State.reset)) =
    0xd14df91389432c25ad60ff9791b9fd1d67bef517d273ecce3d9a307c1b419903 := by decide +kernel

/-- The operands S1 and U1 of 95_test_vectors.md section 11. -/
def xl1 : State :=
  put 0 64 0xa546e36bf0527c9d3b16154b82465edd62144c0ac1fc5a18506a2244ba449ac4e6db6867583030db3594c1a424b15f7c726624ec26b3353b10a903a6d0ab1c4c
    State.reset

/-- XL1. -/
theorem test_x_ladder_trimmed : out 32 (exec (.xLadder true false) xl1) =
    0xc3da55379de9c6908e94ea4df28d084f32eccf03491c71f754b4075577a28552 := by decide +kernel

/-- XL4. -/
theorem test_x_ladder_256 : out 32 (exec (.xLadder false true) xl1) =
    0xed709a43304f4b13b6817fd17253f34415496ce37eab47fd8586bb48ca55220e := by decide +kernel

/-- The 128 bytes of `Bext` (GE1). -/
def bext : Nat :=
  0x1ad5258f602d56c9b2a7259560c72c695cdcd6fd31e2a4c0fe536ecdd336692158666666666666666666666666666666666666666666666666666666666666660100000000000000000000000000000000000000000000000000000000000000a3ddb7a5b38ade6df5525177809ff0207de3ab648e4eea6665768bd70f5f8767

/-- GE2: `Bext + Bext`. -/
theorem test_ge_add : be ((pointBytes (geSum false geBase geBase)).take 64) =
    0x7ed63f9fcfe6151592763a1688f844ded91b3c21e1d17657d46a0f9691886f3b7e004a879a4cd3b68d3707516756e1d627b8da140ff421599230db4cce9e6d33 := by
  decide +kernel

/-- GE5: X3 of `Oext - Bext`. -/
theorem test_ge_sub : out 32 (exec (.geAdd true) (put 128 128 bext (put 64 1 1 (put 32 1 1 State.reset)))) =
    0x72ab68c37d4aa7da346169ab7de24c5b8e8ea40838776cfd04b046cab0245b7a := by decide +kernel

/-- R300 corner case (b): the scalar 1 gives the base point. -/
theorem test_ge_smul_base : out 128 (exec .geSmulBase (put 0 1 1 State.reset)) = bext := by decide +kernel

/-- The example of R301: the compressed `[2]Bpt`, and `y = 2` that does not decode. -/
theorem test_ge_smul_var :
    be (memReadBytes (after (exec (.geSmulVar true) (put 0 64
      0x02000000000000000000000000000000000000000000000000000000000000005866666666666666666666666666666666666666666666666666666666666666
      State.reset))).ob 128 32) = 0xc9a3f86aae465f0e56513864510f3997561fa2c9e85ea21dc2292309f3cd6022 ∧
    ending (exec (.geSmulVar true) (put 32 1 2 State.reset)) = (0x30, 0) := by decide +kernel

/-- U2: the all-zero operand is an invalid point, and the command succeeds all the same. -/
theorem test_ge_smul_var_unspecified : ending (exec (.geSmulVar false) State.reset) = (0, 160) := by decide +kernel

/-! ## Witnesses of the obligations' hypotheses -/

/-- The reset state, but for the host's next moves. -/
def moved (ms : List HostMove) : State := { State.reset with pending := ms }

theorem allLive_inv : allLive.Inv := by
  constructor <;> first | decide +kernel | exact ⟨by decide +kernel, by decide +kernel⟩

theorem witness_reset_move : (moved [.reset, .read 4 4]).pending = .reset :: [.read 4 4] := rfl

theorem witness_good_states : allLive.Inv ∧ ∃ t, step allLive = .next t := ⟨allLive_inv, _, rfl⟩

theorem witness_command_write_legal : (moved [.write 0 [0x11#8, 0#8, 0#8, 0#8]]).pending = .write 0 [0x11#8, 0#8, 0#8, 0#8] :: [] ∧
    decode (BitVec.ofNat 32 (le [0x11#8, 0#8, 0#8, 0#8])) = .ok .cc20H := ⟨rfl, rfl⟩

theorem witness_command_write_illegal : (moved [.write 0 (zeros 4)]).pending = .write 0 (zeros 4) :: [] ∧
    decode (BitVec.ofNat 32 (le (zeros 4))) = .error .reservedOp := ⟨rfl, rfl⟩

theorem witness_moves : State.reset.pending = [] ∧
    ∃ t, (moved [.read 4 4, .reset]).pending = .read 4 4 :: [.reset] ∧ step (moved [.read 4 4, .reset]) = .next t :=
  ⟨rfl, _, rfl, eq_next (by decide +kernel)⟩

theorem witness_ib_write : 1 ≤ [7#8].length ∧ 4095 + [7#8].length ≤ 4096 ∧
    (moved [.write (0x1000 + 4095) [7#8]]).pending = .write (0x1000 + 4095) [7#8] :: [] := ⟨by decide, by decide, rfl⟩

theorem witness_reads : 0 + 4096 ≤ 4096 ∧ 1023 + 1 ≤ 1024 ∧
    (moved [.read (0x1000 + 0) 4096]).pending = .read (0x1000 + 0) 4096 :: [] ∧
    (moved [.read (0x2000 + 1023) 1]).pending = .read (0x2000 + 1023) 1 :: [] ∧
    (0x14, allLive.live) ∈ [(0x00, 0#32), (0x04, allLive.status), (0x08, allLive.rlen), (0x0C, allLive.ctrLo), (0x10, allLive.ctrHi),
      (0x14, allLive.live)] ∧
    ∃ t, step (moved [.read 0x14 4]) = .next t ∧ ∃ u, step { t with pending := .read 0x14 4 :: [] } = .next u := by
  refine ⟨by decide, by decide, rfl, rfl, by simp, _, eq_next (by decide +kernel), _, eq_next (by decide +kernel)⟩

/-- One access for each range of R65, at its ends. -/
theorem witness_ignored : ∀ p ∈ [(0x2000, 0x400), (0x2400, 0xC00), (0x2FFF, 1), (4, 4), (0xFFC, 4)],
    0x2000 ≤ p.1 ∧ p.1 + p.2 ≤ 0x2400 ∨ 0x2400 ≤ p.1 ∧ p.1 + p.2 ≤ 0x3000 ∨
      4 ≤ p.1 ∧ p.1 < 0x1000 ∧ p.1 % 4 = 0 ∧ p.2 = 4 := by decide

theorem witness_reserved_reads : ∀ p ∈ [(0x2400, 0xC00), (0x2FFF, 1), (0x18, 4), (0xFFC, 4)],
    0x2400 ≤ p.1 ∧ p.1 < 0x3000 ∧ p.1 + p.2 ≤ 0x3000 ∨ 0x18 ≤ p.1 ∧ p.1 < 0x1000 ∧ p.1 % 4 = 0 ∧ p.2 = 4 := by decide

theorem witness_refused : (∀ p ∈ [(0x1000, 0x1001), (0x1FFF, 2), (0x2000, 0x401), (0x23FF, 2)],
    0x1000 ≤ p.1 ∧ p.1 < 0x2000 ∧ 0x2000 < p.1 + p.2 ∨ 0x2000 ≤ p.1 ∧ p.1 < 0x2400 ∧ 0x2400 < p.1 + p.2) ∧
    ∀ p ∈ [(0x3000, 1), (0x2400, 0xC01), (0x2FFF, 2)], 0x3000 ≤ p.1 ∨ 0x2400 ≤ p.1 ∧ 0x3000 < p.1 + p.2 := by decide

theorem witness_register_access : (moved [.read 0xFFF 4]).pending = .read 0xFFF 4 :: [] ∧ ¬(0xFFF % 4 = 0 ∧ (zeros 4).length = 4) ∧
    (moved [.write 0 (zeros 4)]).pending = .write 0 (zeros 4) :: [] ∧ (0 % 4 = 0 ∧ (zeros 4).length = 4) :=
  ⟨rfl, by decide, rfl, by decide⟩

theorem witness_encode : (Instr.cc20Xor .x true 1024#16).wellFormed = true ∧ decode 0x04000610#32 = .ok (.cc20Xor .x true 1024#16) :=
  ⟨rfl, rfl⟩

theorem witness_legal_fields : LegalFields 0x30 64 64 ∧ ¬LegalFields 0x30 65 0 ∧ LegalFields 0x10 6 1024 ∧ ¬LegalFields 0x10 7 0 := by
  simp [LegalFields]

theorem witness_failure : ∃ t, issue 0x01000022#32 State.reset = .next t ∧ statusCode t.status ≠ 0#4 :=
  ⟨_, eq_next (by decide +kernel), by decide +kernel⟩

theorem witness_success : ∃ t, exec .feInv allLive = .next t ∧ statusCode t.status = 0#4 ∧ ∀ mask, Instr.feInv ≠ .wipe mask :=
  ⟨_, eq_next (by decide +kernel), by decide +kernel, by simp⟩

theorem witness_seq : continues (.hmacUpdate 4096#16) = some .hmac ∧ (Instr.hmacUpdate 4096#16).wellFormed = true ∧
    isLive .hmac State.reset = false ∧
    ∃ t, exec (.hmacUpdate 4096#16) State.reset = .next t ∧ t.status = 0x20#32 :=
  ⟨rfl, rfl, rfl, _, eq_next (by decide +kernel), by decide +kernel⟩

theorem witness_decode_fail : ∃ t, exec (.geSmulVar true) (put 32 1 2 State.reset) = .next t ∧ t.status = 0x30#32 :=
  ⟨_, eq_next (by decide +kernel), by decide +kernel⟩

theorem witness_one_writer : (∃ t, exec .feIsqrt allLive = .next t ∧ statusRf t.status = true) ∧
    (∃ t, exec (.cc20Xor .djb true 1#16) allLive = .next t ∧ t.ctrLo ≠ allLive.ctrLo) ∧
    ∃ t, exec (.wipe 1#6) (put 0 1 1 allLive) = .next t ∧ t.ib ≠ (put 0 1 1 allLive).ib :=
  ⟨⟨_, eq_next (by decide +kernel), by decide +kernel⟩, ⟨_, eq_next (by decide +kernel), by decide +kernel⟩,
    _, eq_next (by decide +kernel), by decide +kernel⟩

theorem witness_disjoint : (∃ t, exec .s512Final allLive = .next t ∧ (∀ mask, Instr.s512Final ≠ .wipe mask) ∧
      unitOf .s512Final ≠ some .poly ∧ unitOf .s512Final ≠ some .b2b ∧ unitOf .s512Final ≠ some .hmac) ∧
    unitOf .hmacFinal ≠ some .sha ∧ (∃ t, exec .hmacFinal allLive = .next t) ∧
    (∀ data, HostMove.read 0x1000 4 ≠ .write 0 data) ∧ HostMove.read 0x1000 4 ≠ .reset ∧
    ∃ t, serve (.read 0x1000 4) allLive = .next t :=
  ⟨⟨_, eq_next (by decide +kernel), by simp, by decide, by decide, by decide⟩, by decide,
    ⟨_, eq_next (by decide +kernel)⟩, by simp, by decide, _, eq_next (by decide +kernel)⟩

/-- IB differs at the first byte that FE_INV does not read, and at the first text byte of a CC20_XOR with KS = 1. -/
theorem witness_unnamed_bytes : (∀ a, readsIb .feInv a → memRead [(32, 9#8)] a = memRead State.reset.ib a) ∧
    (∀ a, readsIb (.cc20Xor .x true 1#16) a → memRead [(64, 9#8)] a = memRead State.reset.ib a) ∧
    (∃ t, exec .feInv State.reset = .next t) ∧ ∃ t, exec (.cc20Xor .x true 1#16) State.reset = .next t := by
  refine ⟨fun a h => ?_, fun a h => ?_, ⟨_, eq_next (by decide +kernel)⟩, ⟨_, eq_next (by decide +kernel)⟩⟩
  · simp only [readsIb] at h
    simp [memRead, State.reset]; omega
  · simp only [readsIb] at h
    simp [memRead, State.reset]; simp at h; omega

theorem witness_lengths : (1024#16).toNat ≤ 1024 ∧ (4096#16).toNat ≤ 4096 ∧ 1 ≤ (1#7).toNat ∧ (64#7).toNat ≤ 64 ∧
    (64#16).toNat ≤ 64 := by decide

/-- The contexts that the UPDATE and FINAL statements ask for, with the fullest buffers; and the idle ones. -/
theorem witness_contexts :
    (∀ c, isLive c allLive = true) ∧ (∀ c, isLive c State.reset = false) ∧ allLive.poly.buf.length ≤ 15 ∧
      (zeros 15).length ≤ 15 ∧ allLive.b2b.buf.length ≤ 128 ∧ allLive.b2b.outlen ≤ 64 ∧ (zeros 128).length ≤ 128 ∧
      allLive.sha.buf.length ≤ 127 ∧ allLive.hmac.inner.buf.length ≤ 127 ∧ (zeros 127).length ≤ 127 ∧
      allLive.hmac.kblock.length = 128 := by
  refine ⟨fun c => ?_, fun c => ?_, ?_⟩
  · cases c <;> rfl
  · cases c <;> rfl
  · decide +kernel

/-- HMAC_INIT with the longest key that is not hashed, and the shortest that is. -/
theorem witness_hmac_keys : ∃ k0 k1,
    k0 = (if 128 < (128#16).toNat then sha512 (memReadBytes allLive.ib 0 (128#16).toNat) else memReadBytes allLive.ib 0 (128#16).toNat) ∧
    k1 = (if 128 < (129#16).toNat then sha512 (memReadBytes allLive.ib 0 (129#16).toNat) else memReadBytes allLive.ib 0 (129#16).toNat) :=
  ⟨_, _, rfl, rfl⟩

theorem witness_field_operands : feOperand State.reset 0 = 0 ∧
    feOperand (put 0 32 0xecffffffffffffffffffffffffffffffffffffffffffffffffffffffffffff7f State.reset) 0 = fieldP - 1 := by
  decide +kernel

/-- MMUL: the largest product under the precondition with `a = L - 1`, and `L + 1` times the largest `b`. -/
theorem witness_mmul : (∀ s, s = put 0 64 0xecd3f55c1a631258d69cf7a2def9de1400000000000000000000000000000010ffffffffffffffffffffffffffffffffffffffffffffffffffffffffffffffff State.reset →
      scalarOperand s 0 * scalarOperand s 32 < groupL * 2 ^ 256) ∧
    ∀ s, s = put 0 64 0xeed3f55c1a631258d69cf7a2def9de1400000000000000000000000000000010ffffffffffffffffffffffffffffffffffffffffffffffffffffffffffffffff State.reset →
      groupL * 2 ^ 256 ≤ scalarOperand s 0 * scalarOperand s 32 :=
  ⟨fun _ h => h ▸ by decide +kernel, fun _ h => h ▸ by decide +kernel⟩

/-- GE_SMUL_VAR: an operand that decodes, one that does not, a valid and an invalid extended point. -/
theorem witness_ge_smul_var :
    (∃ pt, geDecode (memReadBytes (put 32 32 0x5866666666666666666666666666666666666666666666666666666666666666 State.reset).ib 32 32) = some pt) ∧
    geDecode (memReadBytes (put 32 1 2 State.reset).ib 32 32) = none ∧
    ValidPoint (pointOperand (put 96 1 1 (put 64 1 1 State.reset)) 32) ∧ ¬ValidPoint (pointOperand State.reset 32) := by
  refine ⟨Option.isSome_iff_exists.1 (by decide +kernel), by decide +kernel, ?_, ?_⟩ <;> unfold ValidPoint <;> decide +kernel

theorem witness_chunking (c : Stream) : ∃ t1 t2 t12,
    (127#16).toNat + (1#16).toNat = (128#16).toNat ∧ (128#16).toNat ≤ 4096 ∧
    memReadBytes [(127, 2#8)] 0 (128#16).toNat = memReadBytes [] 0 (127#16).toNat ++ memReadBytes [(0, 2#8)] 0 (1#16).toNat ∧
    exec (updateOf c 127#16) { allLive with ib := [] } = .next t1 ∧
    exec (updateOf c 1#16) { t1 with ib := [(0, 2#8)] } = .next t2 ∧
    exec (updateOf c 128#16) { allLive with ib := [(127, 2#8)] } = .next t12 := by
  refine ⟨_, _, _, by decide, by decide, by decide +kernel, eq_next ?_, eq_next ?_, eq_next ?_⟩ <;> cases c <;> decide +kernel

theorem witness_hmac_key_block : ∃ kb : Bytes, kb = (if 128 < (zeros 129).length then sha512 (zeros 129) else zeros 129) ++
    zeros (128 - (if 128 < (zeros 129).length then sha512 (zeros 129) else zeros 129).length) := ⟨_, rfl⟩

theorem witness_chaining (conv : Conv) :
    let s := { State.reset with ib := [(56, 1#8), (128, 7#8)] }
    let s' := { State.reset with ib := [(56, 2#8), (64, 7#8)] }
    ∃ t1 t2 t12, (64#16).toNat = 64 * 1 ∧ (64#16).toNat + (1#16).toNat = (65#16).toNat ∧ (65#16).toNat ≤ 1024 ∧
      (conv = .ietf → le (memReadBytes s.ib 56 4) + 1 < 2 ^ 32) ∧
      exec (.cc20Xor conv false 64#16) s = .next t1 ∧
      (∀ a, a < 56 → memRead s'.ib a = memRead s.ib a) ∧
      memReadBytes s'.ib 56 8 = tole 4 t1.ctrLo.toNat ++ tole 4 t1.ctrHi.toNat ∧
      (∀ j, j < (1#16).toNat → memRead s'.ib (64 + j) = memRead s.ib (64 + (64#16).toNat + j)) ∧
      exec (.cc20Xor conv false 1#16) s' = .next t2 ∧ exec (.cc20Xor conv false 65#16) s = .next t12 := by
  refine ⟨_, _, _, by decide, by decide, by decide, fun _ => by decide +kernel, eq_next ?_, by decide +kernel, ?_,
    by decide +kernel, eq_next ?_, eq_next ?_⟩ <;> cases conv <;> decide +kernel

theorem witness_undo (conv : Conv) :
    let s := { State.reset with ib := [(64, 7#8)] }
    ∃ s' t t', (1#16).toNat ≤ 1024 ∧ exec (.cc20Xor conv false 1#16) s = .next t ∧
      (∀ a, a < 64 → memRead s'.ib a = memRead s.ib a) ∧
      (∀ j, j < (1#16).toNat → memRead s'.ib (64 + j) = memRead t.ob j) ∧
      exec (.cc20Xor conv false 1#16) s' = .next t' := by
  refine ⟨{ State.reset with ib := memWriteBytes [] 64 (memReadBytes (after (exec (.cc20Xor conv false 1#16)
    { State.reset with ib := [(64, 7#8)] })).ob 0 1) }, _, _, by decide, eq_next ?_, ?_, ?_, eq_next ?_⟩ <;>
    cases conv <;> decide +kernel

theorem witness_conventions_x :
    let s' := { State.reset with ib := memWriteBytes [] 0 (ccH (zeros 32) (zeros 16)) }
    ∃ t t', (∀ j, 64 ≤ j → memRead s'.ib j = memRead State.reset.ib j) ∧ exec (.cc20Xor .djb true 64#16) s' = .next t' ∧
      memReadBytes s'.ib 0 32 = ccH (memReadBytes State.reset.ib 0 32) (memReadBytes State.reset.ib 32 16) ∧
      memReadBytes s'.ib 32 8 = memReadBytes State.reset.ib 48 8 ∧ memReadBytes s'.ib 56 8 = memReadBytes State.reset.ib 56 8 ∧
      exec (.cc20Xor .x true 64#16) State.reset = .next t := by
  refine ⟨_, _, fun j hj => ?_, eq_next (by decide +kernel), by decide +kernel, by decide +kernel, by decide +kernel,
    eq_next (by decide +kernel)⟩
  have hl : (ccH (zeros 32) (zeros 16)).length = 32 := by decide +kernel
  rw [memRead_memWriteBytes, if_neg (by omega)]
  rfl

theorem witness_conventions_ietf :
    let s := { State.reset with ib := [(32, 5#8), (36, 6#8), (56, 1#8)] }
    let s' := { State.reset with ib := [(32, 6#8), (56, 1#8), (60, 5#8)] }
    ∃ t t', (∀ j, 64 ≤ j → memRead s'.ib j = memRead s.ib j) ∧ exec (.cc20Xor .djb true 64#16) s' = .next t' ∧
      memReadBytes s'.ib 0 32 = memReadBytes s.ib 0 32 ∧ memReadBytes s'.ib 32 8 = memReadBytes s.ib 36 8 ∧
      memReadBytes s'.ib 56 8 = memReadBytes s.ib 56 4 ++ memReadBytes s.ib 32 4 ∧
      exec (.cc20Xor .ietf true 64#16) s = .next t := by
  refine ⟨_, _, fun j hj => ?_, eq_next (by decide +kernel), by decide +kernel, by decide +kernel, by decide +kernel,
    eq_next (by decide +kernel)⟩
  simp only [memRead]
  repeat rw [if_neg (by omega)]

/-- FE13 and FE12: a square, and a value that is none. -/
theorem witness_isqrt : (∃ t, exec .feIsqrt (put 0 1 4 State.reset) = .next t ∧ feOperand (put 0 1 4 State.reset) 0 ≠ 0 ∧
      statusRf t.status = true) ∧
    ∃ t, exec .feIsqrt (put 0 1 2 State.reset) = .next t ∧ statusRf t.status = false :=
  ⟨⟨_, eq_next (by decide +kernel), by decide +kernel, by decide +kernel⟩, _, eq_next (by decide +kernel), by decide +kernel⟩

theorem witness_scalar_ranges : groupL - 1 < groupL ∧ 2 ^ 512 - 1 < 2 ^ 512 := by decide +kernel

theorem witness_ladder_ranges : fieldP - 1 < fieldP ∧ fieldP - 1 ≠ 0 ∧ 2 ^ 255 % 2 ^ 255 = 0 := by decide +kernel

theorem witness_decoded_point : ∃ pt, (tobe 32 0x5866666666666666666666666666666666666666666666666666666666666666).length = 32 ∧
    geDecode (tobe 32 0x5866666666666666666666666666666666666666666666666666666666666666) = some pt ∧ pt.x ≠ 0 :=
  ⟨geBase, by decide +kernel, by decide +kernel, by decide +kernel⟩

theorem witness_ge_sub :
    let s := { State.reset with ib := [(128, 5#8), (160, 6#8), (192, 1#8)] }
    let s' := { State.reset with ib := memWriteBytes [] 128 (feBytes (-5) ++ feBytes 6 ++ feBytes 1 ++ feBytes 0) }
    ∃ t t', (∀ a, a < 128 → memRead s'.ib a = memRead s.ib a) ∧
      memReadBytes s'.ib 128 128 = feBytes (-(feOperand s 128 : Int)) ++ feBytes (feOperand s 160) ++
        feBytes (feOperand s 192) ++ feBytes (-(feOperand s 224 : Int)) ∧
      exec (.geAdd true) s = .next t ∧ exec (.geAdd false) s' = .next t' :=
  ⟨_, _, by decide +kernel, by decide +kernel, eq_next (by decide +kernel), eq_next (by decide +kernel)⟩

end Sys2Proof.Tests
end

section
/-! The reset state (R40). -/

namespace Sys2Proof.Machine

theorem zeroHash_getElem (i : Nat) (h : i < 8) : zeroHash[i] = 0#64 := by
  rw [show zeroHash = Vector.replicate 8 0#64 from rfl, Vector.getElem_replicate]

theorem isLive_reset (c : Stream) : isLive c State.reset = false := by
  cases c <;> rfl

end Sys2Proof.Machine

namespace Sys2Proof.Proofs

open Sys2Proof.Machine

/-- Settles O1. -/
theorem resetLeavesEveryPartZero : Obligations.ResetLeavesEveryPartZero :=
  ⟨fun _ => rfl, fun _ => rfl, rfl, rfl, rfl, rfl, rfl, isLive_reset,
    rfl, rfl, rfl, rfl,
    zeroHash_getElem, rfl, rfl, rfl,
    zeroHash_getElem, rfl, rfl,
    rfl, zeroHash_getElem, rfl, rfl⟩

end Sys2Proof.Proofs
end

section
/-! The contexts of the four streaming units (R30): a command commutes with every change of the contexts that are not its
unit's, a host access with every change of all four. What they leave unchanged follows from that. -/

namespace Sys2Proof.Machine

/-! ## A change of contexts -/

/-- A change of the four contexts, each by itself. -/
structure ContextMap where
  poly : PolyCtx → PolyCtx := id
  b2b : B2bCtx → B2bCtx := id
  sha : ShaCtx → ShaCtx := id
  hmac : HmacCtx → HmacCtx := id

/-- The change keeps this stream's context. -/
def ContextMap.Fixes (σ : ContextMap) : Stream → Prop
  | .poly => σ.poly = id
  | .b2b => σ.b2b = id
  | .sha => σ.sha = id
  | .hmac => σ.hmac = id

/-- The state with its contexts changed and every other field as it was. -/
def ContextMap.apply (σ : ContextMap) (s : State) : State :=
  { s with poly := σ.poly s.poly, b2b := σ.b2b s.b2b, sha := σ.sha s.sha, hmac := σ.hmac s.hmac }

/-- The same answer, with its next state changed. -/
def mapNext (f : State → State) : Result → Result
  | .next s => .next (f s)
  | .fault r => .fault r
  | .refused r => .refused r

variable (σ : ContextMap) (s : State)

/-! A proof `(rfl)` in brackets keeps simp from using the law by unfolding: the kernel would then check it under the point and
scalar arithmetic of a command, and evaluate that on bytes that are not known. -/

@[simp] theorem apply_ib : (σ.apply s).ib = s.ib := rfl
@[simp] theorem apply_ob : (σ.apply s).ob = s.ob := rfl
@[simp] theorem apply_poly : (σ.apply s).poly = σ.poly s.poly := rfl
@[simp] theorem apply_b2b : (σ.apply s).b2b = σ.b2b s.b2b := rfl
@[simp] theorem apply_sha : (σ.apply s).sha = σ.sha s.sha := rfl
@[simp] theorem apply_hmac : (σ.apply s).hmac = σ.hmac s.hmac := rfl
@[simp] theorem apply_draws : (σ.apply s).draws = s.draws := (rfl)

@[simp] theorem ibBytes_apply (a n : Nat) : ibBytes (σ.apply s) a n = ibBytes s a n := (rfl)
@[simp] theorem ibData_apply (len : BitVec 16) : ibData (σ.apply s) len = ibData s len := (rfl)
@[simp] theorem ibScalar_apply (a : Nat) : ibScalar (σ.apply s) a = ibScalar s a := (rfl)
@[simp] theorem ccOperands_apply (conv : Conv) : ccOperands conv (σ.apply s) = ccOperands conv s := (rfl)
@[simp] theorem isLive_apply (c : Stream) : isLive c (σ.apply s) = isLive c s := rfl
@[simp] theorem registerValue_apply (off : Nat) : registerValue (σ.apply s) off = registerValue s off := rfl

/-! ## The operations of the state under a change of contexts -/

@[simp] theorem apply_done (v : Bytes) (rf : Bool) : σ.apply (done v rf s) = done v rf (σ.apply s) := rfl
@[simp] theorem apply_setLive (c : Stream) : σ.apply (setLive c s) = setLive c (σ.apply s) := rfl
@[simp] theorem apply_clearLive (c : Stream) : σ.apply (clearLive c s) = clearLive c (σ.apply s) := rfl
@[simp] theorem apply_drawn : σ.apply (drawn s) = drawn (σ.apply s) := rfl
@[simp] theorem apply_ccReturnCounter (conv : Conv) (cN : W64) :
    σ.apply (ccReturnCounter conv cN s) = ccReturnCounter conv cN (σ.apply s) := rfl

@[simp] theorem apply_withIb (m : Memory) : σ.apply { s with ib := m } = { σ.apply s with ib := m } := rfl
@[simp] theorem apply_withPoly (x : PolyCtx) :
    σ.apply { s with poly := x } = { σ.apply s with poly := σ.poly x } := rfl
@[simp] theorem apply_withB2b (x : B2bCtx) :
    σ.apply { s with b2b := x } = { σ.apply s with b2b := σ.b2b x } := rfl
@[simp] theorem apply_withSha (x : ShaCtx) :
    σ.apply { s with sha := x } = { σ.apply s with sha := σ.sha x } := rfl
@[simp] theorem apply_withHmac (x : HmacCtx) :
    σ.apply { s with hmac := x } = { σ.apply s with hmac := σ.hmac x } := rfl

@[simp] theorem mapNext_next (f : State → State) : mapNext f (.next s) = .next (f s) := (rfl)

@[simp] theorem mapNext_refused (f : State → State) (r : Refusal) : mapNext f (.refused r) = .refused r := (rfl)

@[simp] theorem mapNext_answer (bytes : Bytes) : mapNext σ.apply (answer bytes s) = answer bytes (σ.apply s) := (rfl)

@[simp] theorem mapNext_finish (v : Bytes) : mapNext σ.apply (finish v s) = finish v (σ.apply s) := (rfl)

@[simp] theorem mapNext_fail (c : Code) : mapNext σ.apply (fail c s) = fail c (σ.apply s) := (rfl)

@[simp] theorem mapNext_inRange (ok : Bool) (body : Result) :
    mapNext σ.apply (inRange ok s body) = inRange ok (σ.apply s) (mapNext σ.apply body) := by
  cases ok <;> rfl

@[simp] theorem mapNext_whenLive (c : Stream) (body : Result) :
    mapNext σ.apply (whenLive c s body) = whenLive c (σ.apply s) (mapNext σ.apply body) := by
  unfold whenLive
  rw [isLive_apply, apply_ite (mapNext σ.apply), mapNext_fail]

/-! ## Commands -/

theorem execMmul_apply : execMmul (σ.apply s) = mapNext σ.apply (execMmul s) := by
  simp [execMmul, apply_ite (mapNext σ.apply)]

/-! `smulCompressed` is unfolded below as a function, before it meets its state: an unfolding of the applied form asks the
kernel to evaluate `geDecode` on bytes that are not known. -/

theorem smulCompressed_of_none {s : State} (h : geDecode (ibBytes s 32 32) = none) :
    smulCompressed s = fail .decodeFail s := by
  conv => lhs; fun; delta smulCompressed
  rw [h]

theorem smulCompressed_of_some {s : State} {pt : Point} (h : geDecode (ibBytes s 32 32) = some pt) :
    smulCompressed s = finish (geOut (geSmul (ibScalar s 0) pt)) s := by
  conv => lhs; fun; delta smulCompressed
  rw [h]

theorem smulCompressed_apply : smulCompressed (σ.apply s) = mapNext σ.apply (smulCompressed s) := by
  have hdec : geDecode (ibBytes (σ.apply s) 32 32) = geDecode (ibBytes s 32 32) := by rw [ibBytes_apply]
  cases h : geDecode (ibBytes s 32 32) with
  | none => rw [smulCompressed_of_none h, smulCompressed_of_none (hdec.trans h), mapNext_fail]
  | some pt =>
    rw [smulCompressed_of_some h, smulCompressed_of_some (hdec.trans h), ibScalar_apply, mapNext_finish]

theorem smulExtended_apply : smulExtended (σ.apply s) = mapNext σ.apply (smulExtended s) := by
  simp [smulExtended, apply_ite (mapNext σ.apply)]

theorem execGeSmulVar_apply (cin : Bool) : execGeSmulVar cin (σ.apply s) = mapNext σ.apply (execGeSmulVar cin s) := by
  simp only [execGeSmulVar, smulCompressed_apply, smulExtended_apply, apply_ite (mapNext σ.apply)]

/-- A command of a unit without a context, but WIPE, commutes with every change of contexts. -/
theorem exec_apply_of_no_unit {i : Instr} (hw : ∀ mask, i ≠ .wipe mask) (hu : Claims.unitOf i = none) :
    exec i (σ.apply s) = mapNext σ.apply (exec i s) := by
  cases i with
  | wipe mask => exact absurd rfl (hw mask)
  | mmul => exact execMmul_apply σ s
  | geSmulVar cin => exact execGeSmulVar_apply σ s cin
  | cc20Xor _ _ _ | cc20H => simp [exec, execCc20Xor, execCc20H]
  | feInv | feIsqrt => simp [exec, execFeInv, execFeIsqrt]
  | bred | bmad => simp [exec, execBred, execBmad]
  | a2Fill _ | xLadder _ _ => simp [exec, execA2Fill, execXLadder]
  | geAdd _ | geSmulBase => simp [exec, execGeAdd, execGeSmulBase]
  | p1305Init | p1305Update _ | p1305Final | b2bInit _ _ | b2bUpdate _ | b2bFinal | s512Init | s512Update _ | s512Final
  | hmacInit _ | hmacUpdate _ | hmacFinal => cases hu

/-- A command of a unit with a context commutes with every change of the other contexts. -/
theorem exec_apply_of_unit {i : Instr} {c : Stream} (hu : Claims.unitOf i = some c) (hc : σ.Fixes c) :
    exec i (σ.apply s) = mapNext σ.apply (exec i s) := by
  cases i with
  | p1305Init | p1305Update _ | p1305Final =>
    cases hu
    have hid : σ.poly = id := hc
    simp [exec, execP1305Init, execP1305Update, execP1305Final, endPoly, hid]
  | b2bInit _ _ | b2bUpdate _ | b2bFinal =>
    cases hu
    have hid : σ.b2b = id := hc
    simp [exec, execB2bInit, execB2bUpdate, execB2bFinal, endB2b, hid]
  | s512Init | s512Update _ | s512Final =>
    cases hu
    have hid : σ.sha = id := hc
    simp [exec, execS512Init, execS512Update, execS512Final, endSha, hid]
  | hmacInit _ | hmacUpdate _ | hmacFinal =>
    cases hu
    have hid : σ.hmac = id := hc
    simp [exec, execHmacInit, execHmacUpdate, execHmacFinal, endHmac, hid]
  | wipe _ | cc20Xor _ _ _ | cc20H | a2Fill _ | feInv | feIsqrt | mmul | bred | bmad | xLadder _ _ | geAdd _ | geSmulBase
  | geSmulVar _ => cases hu

/-- A command but WIPE commutes with every change of contexts that keeps its own unit's (R30). -/
theorem exec_apply {i : Instr} (hw : ∀ mask, i ≠ .wipe mask) (hσ : ∀ c, Claims.unitOf i = some c → σ.Fixes c) :
    exec i (σ.apply s) = mapNext σ.apply (exec i s) := by
  cases hu : Claims.unitOf i with
  | none => exact exec_apply_of_no_unit σ s hw hu
  | some c => exact exec_apply_of_unit σ s hu (hσ c hu)

/-! ## LIVE -/

variable {s} {t : State}

theorem live_of_finish {v : Bytes} {s' : State} (h : finish v s' = .next t) : t.live = s'.live := by
  rw [finish_next.1 h, done_live]

theorem live_of_inRange_finish {ok : Bool} {v : Bytes} {s' : State} (h : inRange ok s (finish v s') = .next t) :
    t.live = s'.live ∨ t.live = s.live := by
  obtain ⟨-, h⟩ | ⟨-, rfl⟩ := inRange_next h
  · exact .inl (live_of_finish h)
  · exact .inr rfl

theorem live_of_whenLive_finish {c : Stream} {v : Bytes} {s' : State} (h : whenLive c s (finish v s') = .next t) :
    t.live = s'.live ∨ t.live = s.live := by
  obtain ⟨-, h⟩ | ⟨-, rfl⟩ := whenLive_next h
  · exact .inl (live_of_finish h)
  · exact .inr rfl

theorem execMmul_live (h : execMmul s = .next t) : t.live = s.live := by
  simp only [execMmul] at h
  split at h <;> exact (live_of_finish h).trans rfl

theorem smulCompressed_live (h : smulCompressed s = .next t) : t.live = s.live := by
  cases hdec : geDecode (ibBytes s 32 32) with
  | none =>
    rw [smulCompressed_of_none hdec, fail_next] at h
    rw [h, raise_live]
  | some pt =>
    rw [smulCompressed_of_some hdec] at h
    exact live_of_finish h

theorem smulExtended_live (h : smulExtended s = .next t) : t.live = s.live := by
  simp only [smulExtended] at h
  split at h <;> exact (live_of_finish h).trans rfl

theorem execGeSmulVar_live {cin : Bool} (h : execGeSmulVar cin s = .next t) : t.live = s.live := by
  unfold execGeSmulVar at h
  split at h
  · exact smulCompressed_live h
  · exact smulExtended_live h

/-- A command of a unit without a context, but WIPE, leaves LIVE. -/
theorem exec_live_of_no_unit {i : Instr} (hw : ∀ mask, i ≠ .wipe mask) (hu : Claims.unitOf i = none)
    (h : exec i s = .next t) : t.live = s.live := by
  cases i with
  | wipe mask => exact absurd rfl (hw mask)
  | mmul => exact execMmul_live h
  | geSmulVar cin => exact execGeSmulVar_live h
  | cc20Xor _ _ _ => exact (live_of_inRange_finish h).elim id id
  | feIsqrt => cases h; rfl
  | cc20H | feInv | bred | bmad | a2Fill _ | xLadder _ _ | geAdd _ | geSmulBase => exact live_of_finish h
  | p1305Init | p1305Update _ | p1305Final | b2bInit _ _ | b2bUpdate _ | b2bFinal | s512Init | s512Update _ | s512Final
  | hmacInit _ | hmacUpdate _ | hmacFinal => cases hu

/-- A command of a unit with a context leaves LIVE, sets its own bit (INIT) or clears it (FINAL). -/
theorem exec_live_of_unit {i : Instr} {c : Stream} (hu : Claims.unitOf i = some c) (h : exec i s = .next t) :
    t.live = s.live ∨ t.live = (setLive c s).live ∨ t.live = (clearLive c s).live := by
  cases i with
  | p1305Init | s512Init =>
    cases hu
    exact .inr (.inl ((live_of_finish h).trans rfl))
  | b2bInit _ _ | hmacInit _ =>
    cases hu
    obtain hset | hkeep := live_of_inRange_finish h
    · exact .inr (.inl hset)
    · exact .inl hkeep
  | p1305Update _ | b2bUpdate _ | s512Update _ | hmacUpdate _ =>
    obtain ⟨-, h⟩ | ⟨-, rfl⟩ := inRange_next h
    · exact .inl ((live_of_whenLive_finish h).elim id id)
    · exact .inl rfl
  | p1305Final | b2bFinal | s512Final | hmacFinal =>
    cases hu
    obtain hclear | hkeep := live_of_whenLive_finish h
    · exact .inr (.inr hclear)
    · exact .inl hkeep
  | wipe _ | cc20Xor _ _ _ | cc20H | a2Fill _ | feInv | feIsqrt | mmul | bred | bmad | xLadder _ _ | geAdd _ | geSmulBase
  | geSmulVar _ => cases hu

theorem isLive_congr {c : Stream} (h : t.live = s.live) : isLive c t = isLive c s := by
  rw [isLive, isLive, h]

/-- The LIVE bit of a context stays under every command but WIPE and those of its unit (R30). -/
theorem exec_isLive {i : Instr} {d : Stream} (hw : ∀ mask, i ≠ .wipe mask) (hd : Claims.unitOf i ≠ some d)
    (h : exec i s = .next t) : isLive d t = isLive d s := by
  cases hu : Claims.unitOf i with
  | none => exact isLive_congr (exec_live_of_no_unit hw hu h)
  | some c =>
    have hdc : d ≠ c := fun e => hd (by rw [hu, e])
    obtain hkeep | hset | hclear := exec_live_of_unit hu h
    · exact isLive_congr hkeep
    · rw [isLive_congr hset, isLive_setLive]
      simp [hdc]
    · rw [isLive_congr hclear, isLive_clearLive]
      simp [hdc]

/-! ## Non-interference of commands (R30) -/

/-- With contexts other than its unit's changed beforehand, a command answers the same state, changed the same way. -/
theorem exec_apply_next {i : Instr} (hw : ∀ mask, i ≠ .wipe mask) (hσ : ∀ c, Claims.unitOf i = some c → σ.Fixes c)
    (h : exec i s = .next t) : exec i (σ.apply s) = .next (σ.apply t) := by
  rw [exec_apply σ s hw hσ, h, mapNext_next]

/-- A change of contexts that does nothing in the state before a command does nothing in the state after it. -/
theorem apply_eq_self_of_exec {i : Instr} (hw : ∀ mask, i ≠ .wipe mask)
    (hσ : ∀ c, Claims.unitOf i = some c → σ.Fixes c) (hs : σ.apply s = s) (h : exec i s = .next t) : σ.apply t = t := by
  have hσt := exec_apply_next σ hw hσ h
  rw [hs, h] at hσt
  exact (Host.Outcome.next.inj hσt).symm

/-- The place of one unit's context in the state: how it is read and how it is set. -/
structure ContextSlot (α : Type) where
  stream : Stream
  get : State → α
  set : α → ContextMap
  set_fixes : ∀ x c, c ≠ stream → (set x).Fixes c
  get_set : ∀ x s, get ((set x).apply s) = x
  set_get : ∀ s, (set (get s)).apply s = s

def polySlot : ContextSlot PolyCtx where
  stream := .poly
  get := State.poly
  set x := { poly := fun _ => x }
  set_fixes _ c hc := by cases c <;> simp_all [ContextMap.Fixes]
  get_set _ _ := rfl
  set_get _ := rfl

def b2bSlot : ContextSlot B2bCtx where
  stream := .b2b
  get := State.b2b
  set x := { b2b := fun _ => x }
  set_fixes _ c hc := by cases c <;> simp_all [ContextMap.Fixes]
  get_set _ _ := rfl
  set_get _ := rfl

def shaSlot : ContextSlot ShaCtx where
  stream := .sha
  get := State.sha
  set x := { sha := fun _ => x }
  set_fixes _ c hc := by cases c <;> simp_all [ContextMap.Fixes]
  get_set _ _ := rfl
  set_get _ := rfl

def hmacSlot : ContextSlot HmacCtx where
  stream := .hmac
  get := State.hmac
  set x := { hmac := fun _ => x }
  set_fixes _ c hc := by cases c <;> simp_all [ContextMap.Fixes]
  get_set _ _ := rfl
  set_get _ := rfl

/-- A command but WIPE neither writes nor reads a context that is not its unit's: that it writes none follows from
non-interference, with the context set to the value it has. -/
theorem exec_leaves_slot {α : Type} (l : ContextSlot α) {i : Instr} (hw : ∀ mask, i ≠ .wipe mask)
    (hl : Claims.unitOf i ≠ some l.stream) (h : exec i s = .next t) :
    l.get t = l.get s ∧ isLive l.stream t = isLive l.stream s ∧
      ∀ x, exec i ((l.set x).apply s) = .next ((l.set x).apply t) := by
  have hfix : ∀ x c, Claims.unitOf i = some c → (l.set x).Fixes c := fun x c hc =>
    l.set_fixes x c fun e => hl (hc.trans (congrArg some e))
  have hself : (l.set (l.get s)).apply t = t := apply_eq_self_of_exec _ hw (hfix _) (l.set_get s) h
  refine ⟨?_, exec_isLive hw hl h, fun x => exec_apply_next _ hw (hfix x) h⟩
  rw [← hself, l.get_set]

/-! ## Host accesses -/

theorem busRead_apply (off n : Nat) : busRead off n (σ.apply s) = mapNext σ.apply (busRead off n s) := by
  unfold busRead
  cases regionOf off with
  | registers | ib | ob | reserved => simp [apply_ite (mapNext σ.apply)]
  | outside => rfl

/-- A bus write elsewhere than at CMD commutes with every change of contexts. -/
theorem busWrite_apply {off : Nat} (h0 : off ≠ 0) (data : Bytes) :
    busWrite off data (σ.apply s) = mapNext σ.apply (busWrite off data s) := by
  unfold busWrite writeRegister
  cases regionOf off with
  | registers | ib | ob | reserved | outside => simp [h0, apply_ite (mapNext σ.apply)]

/-- A host move but a CMD write and a reset commutes with every change of contexts (R30). -/
theorem serve_apply {m : HostMove} (hcmd : ∀ data, m ≠ .write 0 data) (hreset : m ≠ .reset) :
    serve m (σ.apply s) = mapNext σ.apply (serve m s) := by
  cases m with
  | write off data => exact busWrite_apply σ (fun h0 => hcmd data (by rw [h0])) data
  | read off n => exact busRead_apply σ off n
  | reset => exact absurd rfl hreset

/-- All four contexts set. -/
def setContexts (p : PolyCtx) (b : B2bCtx) (h : ShaCtx) (k : HmacCtx) : ContextMap :=
  { poly := fun _ => p, b2b := fun _ => b, sha := fun _ => h, hmac := fun _ => k }

theorem setContexts_apply (p : PolyCtx) (b : B2bCtx) (h : ShaCtx) (k : HmacCtx) (s : State) :
    (setContexts p b h k).apply s = { s with poly := p, b2b := b, sha := h, hmac := k } := rfl

theorem serve_setContexts {m : HostMove} (hcmd : ∀ data, m ≠ .write 0 data) (hreset : m ≠ .reset)
    (hs : serve m s = .next t) (p : PolyCtx) (b : B2bCtx) (h : ShaCtx) (k : HmacCtx) :
    serve m { s with poly := p, b2b := b, sha := h, hmac := k } =
      .next { t with poly := p, b2b := b, sha := h, hmac := k } := by
  rw [← setContexts_apply, serve_apply _ hcmd hreset, hs, mapNext_next, setContexts_apply]

/-- A served host move keeps the contexts: with them set to the values they have it answers the same. -/
theorem serve_keeps_contexts {m : HostMove} (hcmd : ∀ data, m ≠ .write 0 data) (hreset : m ≠ .reset)
    (hs : serve m s = .next t) : t.poly = s.poly ∧ t.b2b = s.b2b ∧ t.sha = s.sha ∧ t.hmac = s.hmac := by
  have hself := Host.Outcome.next.inj (hs.symm.trans (serve_setContexts hcmd hreset hs s.poly s.b2b s.sha s.hmac))
  exact ⟨(congrArg State.poly hself :), (congrArg State.b2b hself :), (congrArg State.sha hself :),
    (congrArg State.hmac hself :)⟩

end Sys2Proof.Machine

namespace Sys2Proof.Proofs

open Sys2Proof.Machine

/-- Settles O21. -/
theorem contextsAreDisjoint : Obligations.ContextsAreDisjoint := by
  refine ⟨fun i s t h hw => ⟨?_, ?_, ?_, ?_⟩, fun m s t hcmd hreset h => ?_⟩
  · exact fun hu => exec_leaves_slot polySlot hw hu h
  · exact fun hu => exec_leaves_slot b2bSlot hw hu h
  · exact fun hu => exec_leaves_slot shaSlot hw hu h
  · exact fun hu => exec_leaves_slot hmacSlot hw hu h
  · obtain ⟨hpoly, hb2b, hsha, hhmac⟩ := serve_keeps_contexts hcmd hreset h
    exact ⟨hpoly, hb2b, hsha, hhmac, serve_setContexts hcmd hreset h⟩

end Sys2Proof.Proofs
end

section
/-! The window (R60 to R66): which range an offset lies in, what a write to IB and an access to the registers answer, and that
every command word is answered with a next state. -/

namespace Sys2Proof.Machine

variable {s t : State} {off a : Nat} {data : Bytes}

/-! ## Serving a move -/

theorem step_of_pending {m : HostMove} {more : List HostMove} (h : s.pending = m :: more) :
    step s = serve m { s with pending := more } := by
  unfold step serveNext
  rw [h]

/-- A run of one step more starts with the step and goes on from the state it answers. -/
theorem run_succ_of_step (M : Host.Core) {u v : M.State} (h : M.step u = .next v) (k : Nat) :
    M.run (k + 1) u = M.run k v := by
  rw [Host.Core.run, h]

theorem core_run_succ_of_step (h : step s = .next t) (k : Nat) :
    Sys2Proof.core.run (k + 1) s = Sys2Proof.core.run k t :=
  run_succ_of_step Sys2Proof.core (u := s) (v := t) h k

/-! ## The ranges (R66) -/

theorem regionOf_registers (h : off < 0x1000) : regionOf off = .registers := by
  simp [regionOf, h]

theorem regionOf_ib (hlo : 0x1000 ≤ off) (hhi : off < 0x2000) : regionOf off = .ib := by
  simp [regionOf, hhi, Nat.not_lt.2 hlo]

/-! ## Writes to IB (R62, R63) -/

theorem busWrite_ib (hlen : 1 ≤ data.length) (hin : a + data.length ≤ 4096) (s : State) :
    busWrite (0x1000 + a) data s = .next { s with ib := memWriteBytes s.ib a data } := by
  have hregion : regionOf (0x1000 + a) = .ib := regionOf_ib (by omega) (by omega)
  have hend : 0x1000 + a + data.length ≤ 0x2000 := by omega
  rw [busWrite, if_neg (by omega : ¬data.length = 0), hregion]
  simp [hend]

/-- R62: the step on a write inside IB stores its bytes and changes nothing else of the block. -/
theorem step_ib_write {more : List HostMove} (hp : s.pending = .write (0x1000 + a) data :: more) (hlen : 1 ≤ data.length)
    (hin : a + data.length ≤ 4096) :
    step s = .next { s with pending := more, ib := memWriteBytes s.ib a data } := by
  rw [step_of_pending hp]
  exact busWrite_ib hlen hin _

/-- R63: serving the single byte writes one after the other stores the same bytes as the wide write. -/
theorem run_byteWrites (data : Bytes) (s : State) (a : Nat) (more : List HostMove) (hin : a + data.length ≤ 4096) :
    Sys2Proof.core.run data.length { s with pending := Claims.byteWrites a data ++ more } =
      .next { s with pending := more, ib := memWriteBytes s.ib a data } := by
  induction data generalizing s a with
  | nil => rfl
  | cons b bs ih =>
    rw [List.length_cons] at hin
    have ha : a + [b].length ≤ 4096 := by
      rw [List.length_singleton]
      omega
    have hfirst : step { s with pending := Claims.byteWrites a (b :: bs) ++ more } =
        .next { s with pending := Claims.byteWrites (a + 1) bs ++ more, ib := memWrite s.ib a b } :=
      step_ib_write rfl (le_refl 1) ha
    exact (core_run_succ_of_step hfirst bs.length).trans
      (ih { s with ib := memWrite s.ib a b } (a + 1) (by omega))

/-! ## Every command word is answered (R95, R96)

A failure code is an ordinary next state (R334), so each ending of a command answers one. -/

theorem finish_answers (v : Bytes) (s : State) : ∃ t, finish v s = .next t := ⟨_, rfl⟩

theorem fail_answers (c : Code) (s : State) : ∃ t, fail c s = .next t := ⟨_, rfl⟩

theorem inRange_answers {body : Result} (ok : Bool) (s : State) (h : ∃ t, body = .next t) :
    ∃ t, inRange ok s body = .next t := by
  cases ok with
  | false => exact fail_answers .illegal s
  | true => exact h

theorem whenLive_answers {body : Result} (c : Stream) (s : State) (h : ∃ t, body = .next t) :
    ∃ t, whenLive c s body = .next t := by
  unfold whenLive
  split
  · exact h
  · exact fail_answers .seq s

theorem execMmul_answers (s : State) : ∃ t, execMmul s = .next t := by
  simp only [execMmul]
  split <;> exact finish_answers _ _

theorem smulCompressed_answers (s : State) : ∃ t, smulCompressed s = .next t := by
  cases hdec : geDecode (ibBytes s 32 32) with
  | none =>
    rw [smulCompressed_of_none hdec]
    exact fail_answers _ _
  | some pt =>
    rw [smulCompressed_of_some hdec]
    exact finish_answers _ _

theorem smulExtended_answers (s : State) : ∃ t, smulExtended s = .next t := by
  simp only [smulExtended]
  split <;> exact finish_answers _ _

theorem execGeSmulVar_answers (cin : Bool) (s : State) : ∃ t, execGeSmulVar cin s = .next t := by
  unfold execGeSmulVar
  split
  · exact smulCompressed_answers s
  · exact smulExtended_answers s

theorem exec_answers (i : Instr) (s : State) : ∃ t, exec i s = .next t := by
  cases i with
  | mmul => exact execMmul_answers s
  | geSmulVar cin => exact execGeSmulVar_answers cin s
  | feIsqrt => exact ⟨_, rfl⟩
  | wipe _ | cc20H | p1305Init | s512Init | a2Fill _ | feInv | bred | bmad | xLadder _ _ | geAdd _ | geSmulBase =>
    exact finish_answers _ _
  | cc20Xor _ _ _ | b2bInit _ _ | hmacInit _ => exact inRange_answers _ s (finish_answers _ _)
  | p1305Update _ | b2bUpdate _ | s512Update _ | hmacUpdate _ =>
    exact inRange_answers _ s (whenLive_answers _ s (finish_answers _ _))
  | p1305Final | b2bFinal | s512Final | hmacFinal => exact whenLive_answers _ s (finish_answers _ _)

theorem issue_answers (w : W32) (s : State) : ∃ t, issue w s = .next t := by
  obtain ⟨_, _, hillegal⟩ | ⟨i, _, hlegal⟩ := issue_cases w s
  · exact ⟨_, hillegal⟩
  · rw [hlegal]
    exact exec_answers i s

/-! ## Accesses to the registers (R61) -/

theorem wordAccess_iff {off n : Nat} : wordAccess off n = true ↔ off % 4 = 0 ∧ n = 4 := by
  simp [wordAccess]

theorem busWrite_registers (hoff : off < 0x1000) (hlen : 1 ≤ data.length) (s : State) :
    busWrite off data s = writeRegister off data s := by
  rw [busWrite, if_neg (by omega : ¬data.length = 0), regionOf_registers hoff]

theorem busRead_registers (hoff : off < 0x1000) (n : Nat) (s : State) :
    busRead off n s =
      if wordAccess off n then answer (bytes32 (registerValue s off)) s else .refused .registerAccess := by
  rw [busRead, regionOf_registers hoff]

theorem writeRegister_refused (h : ¬(off % 4 = 0 ∧ data.length = 4)) (s : State) :
    writeRegister off data s = .refused .registerAccess := by
  rw [writeRegister, if_neg (mt wordAccess_iff.1 h)]

/-- An aligned 32-bit write is answered: at CMD by the command it carries, elsewhere by ignoring it. -/
theorem writeRegister_answers (h : off % 4 = 0 ∧ data.length = 4) (s : State) :
    ∃ t, writeRegister off data s = .next t := by
  rw [writeRegister, if_pos (wordAccess_iff.2 h)]
  split
  · exact issue_answers _ s
  · exact ⟨s, rfl⟩

end Sys2Proof.Machine

namespace Sys2Proof.Proofs

open Sys2Proof.Machine

/-- Settles O7. -/
theorem ibWritesStoreExactlyTheirBytes : Obligations.IbWritesStoreExactlyTheirBytes := by
  intro s a data more hlen hin
  refine ⟨fun hp => ⟨_, step_ib_write hp hlen hin, rfl, fun x => memRead_memWriteBytes s.ib a x data⟩, ?_⟩
  exact (run_byteWrites data s a more hin).trans
    (step_ib_write (s := { s with pending := .write (0x1000 + a) data :: more }) rfl hlen hin).symm

/-- Settles O10. -/
theorem onlyAlignedWordsReachTheRegisters : Obligations.OnlyAlignedWordsReachTheRegisters := by
  rintro s off data n more hoff hlen rfl (hwrite | hread)
  · rw [step_of_pending hwrite, serve, busWrite_registers hoff hlen]
    exact ⟨fun h => writeRegister_refused h _, fun h => writeRegister_answers h _⟩
  · rw [step_of_pending hread, serve, busRead_registers hoff]
    refine ⟨fun h => if_neg (mt wordAccess_iff.1 h), fun h => ?_⟩
    rw [if_pos (wordAccess_iff.2 h)]
    exact ⟨_, rfl⟩

end Sys2Proof.Proofs
end

section
/-! How the words of one OP are read (R91 to R96): a row of the opcode table, its mask test field by field, and what is left of
its command after the range conditions. -/

namespace Sys2Proof.Machine

open Sys2Proof.Claims

/-- What a row of the table makes of a word: its command, if the mask test and the range conditions hold (R95). -/
def rowForm (r : OpRow) (w : W32) : Option Instr :=
  if w &&& r.mask = r.pattern then (r.build w).filter Instr.wellFormed else none

theorem decode_of_rowForm_some {r : OpRow} {w : W32} {i : Instr} (hrow : rowOf (opOf w) = some r)
    (h : rowForm r w = some i) : decode w = .ok i := by
  simp only [rowForm, Option.ite_none_right_eq_some, Option.filter_eq_some_iff] at h
  obtain ⟨hmask, hbuild, hwf⟩ := h
  simp [decode, hrow, hmask, hbuild, hwf]

theorem decode_of_rowForm_none {r : OpRow} {w : W32} (hrow : rowOf (opOf w) = some r) (h : rowForm r w = none) :
    ∃ e, decode w = .error e := by
  unfold decode
  rw [hrow]
  by_cases hmask : w &&& r.mask = r.pattern
  · simp only [rowForm, if_pos hmask, Option.filter_eq_none_iff] at h
    cases hbuild : r.build w with
    | none => exact ⟨.badRange, by simp [hmask, hbuild]⟩
    | some i => exact ⟨.badRange, by simp [hmask, hbuild, h i hbuild]⟩
  · exact ⟨.unusedBits, by simp [hmask]⟩

theorem issue_of_decode_error {w : W32} {e : DecodeError} (h : decode w = .error e) (s : State) :
    issue w s = .next (failed 0x10#32 s) := by
  rw [issue, h]
  rfl

/-- The words of an OP are read as its row of the table reads them. -/
theorem encoding_of_row {op : BitVec 8} {r : OpRow} (hrow : rowOf op = some r)
    {form : BitVec 8 → BitVec 16 → Option Instr}
    (hform : ∀ flags len, form flags len = rowForm r (len ++ flags ++ op)) : Encoding op form := by
  intro flags len
  have hop : rowOf (opOf (len ++ flags ++ op)) = some r := by rw [(Laws.fields_of_append len flags op).1, hrow]
  have hread := hform flags len
  cases h : form flags len with
  | some i => exact decode_of_rowForm_some hop (hread ▸ h)
  | none =>
    obtain ⟨e, he⟩ := decode_of_rowForm_none hop (hread ▸ h)
    exact issue_of_decode_error he

/-- The mask test of a row, field by field. -/
theorem append_and_mask_eq_iff (len lenMask : BitVec 16) (flags flagsMask op : BitVec 8) :
    (len ++ flags ++ op) &&& (lenMask ++ flagsMask ++ 0xFF#8) = 0#16 ++ 0#8 ++ op ↔
      len &&& lenMask = 0#16 ∧ flags &&& flagsMask = 0#8 := by
  have hop : op &&& 0xFF#8 = op := BitVec.and_allOnes
  rw [BitVec.and_append, BitVec.and_append, hop]
  refine ⟨fun h => ?_, fun ⟨hlen, hflags⟩ => by rw [hlen, hflags]⟩
  obtain ⟨-, hflags, hlen⟩ := Laws.fields_of_append (len &&& lenMask) (flags &&& flagsMask) op
  obtain ⟨-, hflags0, hlen0⟩ := Laws.fields_of_append 0#16 0#8 op
  rw [h] at hflags hlen
  exact ⟨hlen.symm.trans hlen0, hflags.symm.trans hflags0⟩

/-- Format N: a row whose mask covers the whole word (R92). -/
theorem encoding_formN {op : BitVec 8} {i : Instr} (hwf : i.wellFormed = true)
    (hrow : rowOf op = some ⟨0#16 ++ 0#8 ++ op, 0xFFFF#16 ++ 0xFF#8 ++ 0xFF#8, fun _ => some i⟩) :
    Encoding op (formN i) := by
  refine encoding_of_row hrow fun flags len => ?_
  have hlen : len &&& 0xFFFF#16 = 0#16 ↔ len.toNat = 0 := by
    rw [show len &&& 0xFFFF#16 = len from BitVec.and_allOnes, BitVec.toNat_eq, BitVec.toNat_zero]
  have hflags : flags &&& 0xFF#8 = 0#8 ↔ flags.toNat = 0 := by
    rw [show flags &&& 0xFF#8 = flags from BitVec.and_allOnes, BitVec.toNat_eq, BitVec.toNat_zero]
  simp only [formN, rowForm, append_and_mask_eq_iff, hlen, hflags, and_comm (a := flags.toNat = 0), Option.filter_some,
    hwf, if_true]

/-! ## The row of CC20_XOR (R94) -/

def cc20XorRow : OpRow :=
  ⟨0#16 ++ 0#8 ++ 0x10#8, 0#16 ++ 0xF8#8 ++ 0xFF#8, fun w =>
    (convOf ((flagsOf w).extractLsb' 0 2)).map fun c => .cc20Xor c ((flagsOf w).getLsbD 2) (lenOf w)⟩

theorem rowOf_cc20Xor : rowOf 0x10#8 = some cc20XorRow := rfl

theorem and_F8_eq_zero_iff (flags : BitVec 8) : flags &&& 0xF8#8 = 0#8 ↔ flags.toNat < 8 := by
  revert flags
  decide

theorem getLsbD_two_of_lt_eight (flags : BitVec 8) (h : flags.toNat < 8) :
    flags.getLsbD 2 = (flags.toNat / 4 == 1) := by
  revert flags
  decide

theorem filter_map_cc20Xor (conv : Option Conv) (ks : Bool) (len : BitVec 16) :
    (conv.map fun c => Instr.cc20Xor c ks len).filter Instr.wellFormed =
      if len.toNat ≤ 1024 then conv.map fun c => .cc20Xor c ks len else none := by
  cases conv with
  | none => simp
  | some c => by_cases h : len.toNat ≤ 1024 <;> simp [Instr.wellFormed, textLenOk, Config.ccMax, h]

theorem rowForm_cc20Xor (flags : BitVec 8) (len : BitVec 16) :
    rowForm cc20XorRow (len ++ flags ++ 0x10#8) =
      if flags.toNat < 8 ∧ len.toNat ≤ 1024 then
        (convOf (flags.extractLsb' 0 2)).map fun c => .cc20Xor c (flags.toNat / 4 == 1) len
      else none := by
  obtain ⟨-, hflags, hlen⟩ := Laws.fields_of_append len flags 0x10#8
  have hlen0 : len &&& 0#16 = 0#16 := BitVec.and_zero
  simp only [rowForm, cc20XorRow, append_and_mask_eq_iff, hflags, hlen, hlen0, and_F8_eq_zero_iff, true_and,
    filter_map_cc20Xor, ← ite_and]
  split
  · next h => rw [getLsbD_two_of_lt_eight flags h.1]
  · rfl

end Sys2Proof.Machine
end

section
/-! Parts of byte strings and of buffers: a slice, a range read in two pieces, equally long pieces joined, and the result bytes
that a command leaves in OB. -/

namespace Sys2Proof.Machine

open Sys2Proof.Claims

/-! ## Byte strings -/

theorem slice_getD {v : Bytes} {a n i : Nat} (h : i < n) : (slice v a n).getD i 0#8 = v.getD (a + i) 0#8 := by
  simp [slice, List.getD_eq_getElem?_getD, List.getElem?_take_of_lt h]

theorem xorBytes_getD {u v : Bytes} {i : Nat} (hu : i < u.length) (hv : i < v.length) :
    (xorBytes u v).getD i 0#8 = u.getD i 0#8 ^^^ v.getD i 0#8 := by
  simp [xorBytes, hu, hv]

/-- Pieces of `k` bytes joined: piece `j` stands at `k * j`. -/
theorem slice_flatMap {α : Type} (f : α → Bytes) {k : Nat} (hf : ∀ x, (f x).length = k) (xs : List α) (j : Nat)
    (hj : j < xs.length) : slice (xs.flatMap f) (k * j) k = f xs[j] := by
  induction xs generalizing j with
  | nil => cases hj
  | cons x xs ih =>
    cases j with
    | zero => simp [slice, ← hf x]
    | succ j =>
      rw [List.getElem_cons_succ, ← ih j (Nat.lt_of_succ_lt_succ hj), slice, slice, List.flatMap_cons,
        Nat.mul_succ, Nat.add_comm, ← List.drop_drop, List.drop_left' (hf x)]

theorem slice_flatMap_bytes32 (xs : List W32) (j : Nat) (hj : j < xs.length) :
    slice (xs.flatMap bytes32) (4 * j) 4 = bytes32 (word32 xs j) := by
  rw [slice_flatMap bytes32 bytes32_length xs j hj, word32, List.getD_eq_getElem _ _ hj]

@[simp] theorem flatMap_bytes32_length (xs : List W32) : (xs.flatMap bytes32).length = 4 * xs.length := by
  simp [List.length_flatMap, Nat.mul_comm]

theorem le_bytes32 (x : W32) : le (bytes32 x) = x.toNat := by
  rw [bytes32, le_tole]
  exact Nat.mod_eq_of_lt x.isLt

@[simp] theorem leWords32_length (n : Nat) (v : Bytes) : (leWords32 n v).length = n := by simp [leWords32]

/-! ## A string of `n` elements cut into blocks of `k`, the last one shorter -/

theorem flatMap_chunks_length {α : Type} {k n : Nat} {f : Nat → List α} (hf : ∀ i, (f i).length = min k (n - k * i))
    (m : Nat) : ((List.range m).flatMap f).length = min (k * m) n := by
  induction m with
  | zero => simp
  | succ m ih =>
    rw [List.range_succ, List.flatMap_append, List.flatMap_singleton, List.length_append, ih, hf, Nat.mul_succ]
    omega

theorem flatMap_chunks_getD {α : Type} {k n : Nat} {f : Nat → List α} (hf : ∀ i, (f i).length = min k (n - k * i))
    (d : α) {m j : Nat} (hm : j < k * m) (hn : j < n) :
    ((List.range m).flatMap f).getD j d = (f (j / k)).getD (j % k) d := by
  induction m with
  | zero => simp at hm
  | succ m ih =>
    have hlen := flatMap_chunks_length hf m
    rw [List.range_succ, List.flatMap_append, List.flatMap_singleton]
    by_cases hj : j < k * m
    · rw [List.getD_append _ _ _ _ (by omega), ih hj]
    · have hlast : j / k = m :=
        Nat.div_eq_of_lt_le (by rw [Nat.mul_comm]; omega) (by rw [Nat.mul_comm]; exact hm)
      have hstart : min (k * m) n = k * m := by omega
      rw [List.getD_append_right _ _ _ _ (by omega), hlen, hstart, Nat.mod_eq_sub_mul_div, hlast]

/-! ## Ranges of a buffer -/

theorem memReadBytes_append (m : Memory) (a n k : Nat) :
    memReadBytes m a (n + k) = memReadBytes m a n ++ memReadBytes m (a + n) k := by
  induction n generalizing a with
  | zero => simp [memReadBytes]
  | succ n ih =>
    rw [Nat.succ_add, memReadBytes, ih, memReadBytes, List.cons_append, Nat.add_right_comm, Nat.add_assoc a]

/-- A slice of the bytes read is what a read of the slice's range gives. -/
theorem slice_memReadBytes {m : Memory} {a n b k : Nat} (h : b + k ≤ n) :
    slice (memReadBytes m a n) b k = memReadBytes m (a + b) k := by
  obtain ⟨r, rfl⟩ := Nat.exists_eq_add_of_le h
  rw [slice, Nat.add_assoc, memReadBytes_append, memReadBytes_append, List.drop_left' (memReadBytes_length m a b),
    List.take_left' (memReadBytes_length m (a + b) k)]

theorem le_memReadBytes_add (m : Memory) (a n k : Nat) :
    le (memReadBytes m a (n + k)) = le (memReadBytes m a n) + 256 ^ n * le (memReadBytes m (a + n) k) := by
  rw [memReadBytes_append, le_append, memReadBytes_length]

/-- The low half of an 8-byte number is the number of its first four bytes. -/
theorem le_memReadBytes_eight_mod (m : Memory) (a : Nat) :
    le (memReadBytes m a 8) % 2 ^ 32 = le (memReadBytes m a 4) := by
  have h := le_lt (memReadBytes m a 4)
  rw [memReadBytes_length] at h
  rw [le_memReadBytes_add m a 4 4]
  omega

theorem leWords32_memReadBytes (m : Memory) (a n : Nat) :
    leWords32 n (memReadBytes m a (4 * n)) =
      (List.range n).map fun i => BitVec.ofNat 32 (le (memReadBytes m (a + 4 * i) 4)) := by
  refine List.map_congr_left fun i hi => ?_
  have hin : 4 * i + 4 ≤ 4 * n := by
    have := List.mem_range.1 hi
    omega
  rw [slice_memReadBytes hin, le32]

/-- The words of two neighbouring ranges of a buffer are those of the whole range. -/
theorem leWords32_append (m : Memory) (a n k : Nat) :
    leWords32 n (memReadBytes m a (4 * n)) ++ leWords32 k (memReadBytes m (a + 4 * n) (4 * k)) =
      (List.range (n + k)).map fun i => BitVec.ofNat 32 (le (memReadBytes m (a + 4 * i) 4)) := by
  rw [leWords32_memReadBytes, leWords32_memReadBytes, List.range_add, List.map_append, List.map_map]
  simp only [Function.comp_def, Nat.mul_add, Nat.add_assoc]

/-! ## The result bytes in OB (R97) -/

theorem memReadBytes_done_slice {v : Bytes} {a n : Nat} (h : a + n ≤ v.length) (rf : Bool) (s : State) :
    memReadBytes (done v rf s).ob a n = slice v a n := by
  conv_rhs => rw [← memReadBytes_done v rf s, slice_memReadBytes h, Nat.zero_add]

theorem delivers_done (v : Bytes) (s : State) : Delivers v 0#32 s (done v false s) := by
  refine ⟨rfl, memReadBytes_done v false s, fun a ha => ?_⟩
  rw [memRead_done, if_neg (Nat.not_lt.2 ha)]

end Sys2Proof.Machine
end

section
/-! chacha20_core (40_chacha20.md): the words that `cc_h` returns, the keystream blocks as the conventions' table builds them,
the output byte by byte, and the counter returned. -/

namespace Sys2Proof.Machine

open Sys2Proof.Claims

/-! ## The number of words and bytes (R120, R121, R123, R127) -/

@[simp] theorem ccQr_length (a b c d : Nat) (x : List W32) : (ccQr a b c d x).length = x.length := by
  simp [ccQr]

@[simp] theorem ccDoubleRound_length (x : List W32) : (ccDoubleRound x).length = x.length := by
  simp [ccDoubleRound]

@[simp] theorem ccRounds_length (x : List W32) : (ccRounds x).length = x.length := by
  have iterate_length (n : Nat) : (Nat.iterate ccDoubleRound n x).length = x.length := by
    induction n with
    | zero => rfl
    | succ n ih => rw [Function.iterate_succ_apply', ccDoubleRound_length, ih]
  exact iterate_length 10

@[simp] theorem ccState_length (key : Bytes) (tail : List W32) : (ccState key tail).length = 12 + tail.length := by
  rw [ccState, List.length_append, List.length_append, leWords32_length]
  rfl

@[simp] theorem ccH_length (key input : Bytes) : (ccH key input).length = 32 := by
  rw [ccH, flatMap_bytes32_length]
  simp

theorem ccBlock_length {x : List W32} (hx : x.length = 16) : (ccBlock x).length = 64 := by
  rw [ccBlock, flatMap_bytes32_length]
  simp [hx]

@[simp] theorem ccKeystream_length (p : CcParams) (i : Nat) : (ccKeystream p i).length = 64 :=
  ccBlock_length (by simp)

/-! ## CC20_H (R126, R127) -/

theorem word32_take_append_drop {x : List W32} (hx : x.length = 16) {j : Nat} (hj : j < 8) :
    word32 (x.take 4 ++ x.drop 12) j = word32 x (if j < 4 then j else j + 8) := by
  have htake : (x.take 4).length = 4 := by rw [List.length_take, hx]; rfl
  simp only [word32, List.getD_eq_getElem?_getD]
  split
  · next h => rw [List.getElem?_append_left (by omega), List.getElem?_take_of_lt h]
  · next h =>
    rw [List.getElem?_append_right (by omega), List.getElem?_drop, htake, show 12 + (j - 4) = j + 8 by omega]

/-- The words of the permuted state that `cc_h` returns. -/
theorem slice_ccH (key input : Bytes) {j : Nat} (hj : j < 8) :
    slice (ccH key input) (4 * j) 4 =
      bytes32 (word32 (ccRounds (ccState key (leWords32 4 input))) (if j < 4 then j else j + 8)) := by
  have hx : (ccRounds (ccState key (leWords32 4 input))).length = 16 := by simp
  rw [ccH, slice_flatMap_bytes32 _ j (by simp; omega), word32_take_append_drop hx hj]

/-- CC20_H's key and input are the words of `IB[0..48)`. -/
theorem ccState_of_cc20H_operands (s : State) :
    ccState (ibBytes s 0 32) (leWords32 4 (ibBytes s 32 16)) =
      ccConstants ++ (List.range 12).map fun i => BitVec.ofNat 32 (le (memReadBytes s.ib (4 * i) 4)) := by
  rw [ccState, List.append_assoc]
  simpa [ibBytes] using leWords32_append s.ib 0 8 4

/-! ## The counter (R122, R124, R125) -/

theorem counter_lo (c0 i : Nat) :
    (BitVec.ofNat 64 c0 + BitVec.ofNat 64 i).setWidth 32 = BitVec.ofNat 32 ((c0 + i) % 2 ^ 64) := by
  apply BitVec.eq_of_toNat_eq
  simp

theorem counter_hi (c0 i : Nat) :
    ((BitVec.ofNat 64 c0 + BitVec.ofNat 64 i) >>> 32).setWidth 32 = BitVec.ofNat 32 ((c0 + i) % 2 ^ 64 / 2 ^ 32) := by
  apply BitVec.eq_of_toNat_eq
  simp [Nat.shiftRight_eq_div_pow]

/-- The composite counter `c0` of a convention, read from IB (R122). -/
def ccStart (conv : Conv) (s : State) : Nat :=
  match conv with
  | .djb | .x => le (memReadBytes s.ib 56 8)
  | .ietf => le (memReadBytes s.ib 56 4) + le (memReadBytes s.ib 32 4) * 2 ^ 32

theorem ccOperands_c0 (conv : Conv) (s : State) : (ccOperands conv s).c0 = BitVec.ofNat 64 (ccStart conv s) := by
  cases conv with
  | djb | x => rfl
  | ietf =>
    simp only [ccOperands, ccParams, ibBytes, ccStart]
    rw [le_memReadBytes_eight_mod, slice_memReadBytes (by omega)]

/-- The counter after the last block, as the two registers hold it. The IETF convention returns 32 bits and drops the carry into
the nonce word. -/
theorem ccReturnCounter_eq (conv : Conv) (s : State) (n : Nat) :
    ccReturnCounter conv ((ccOperands conv s).c0 + BitVec.ofNat 64 (ccBlocks n)) s =
      { s with
        ctrLo := BitVec.ofNat 32 (ccReturned conv s n)
        ctrHi := BitVec.ofNat 32 (ccReturned conv s n / 2 ^ 32) } := by
  simp only [ccReturnCounter, ccOperands_c0, counter_lo, counter_hi]
  cases conv with
  | djb | x => rfl
  | ietf =>
    have hlo : BitVec.ofNat 32 ((ccStart .ietf s + ccBlocks n) % 2 ^ 64) = BitVec.ofNat 32 (ccReturned .ietf s n) := by
      apply BitVec.eq_of_toNat_eq
      simp only [BitVec.toNat_ofNat, ccStart, ccReturned, ccBlocks]
      omega
    have hhi : ccReturned .ietf s n / 2 ^ 32 = 0 := Nat.div_eq_of_lt (Nat.mod_lt _ (by decide))
    rw [hlo, hhi]

/-! ## The keystream and the output (R122 to R125) -/

/-- A block of the keystream is that of the state which the conventions' table builds from IB. -/
theorem ccKeystream_eq (conv : Conv) (s : State) (i : Nat) :
    ccKeystream (ccOperands conv s) i = ccBlock (ccBlockWords conv s i) := by
  rw [ccKeystream, ccOperands_c0, counter_lo, counter_hi]
  cases conv with
  | djb | ietf | x =>
    simp [ccOperands, ccParams, ibBytes, ccBlockWords, ccState, leWords32, le32, ccStart, slice_memReadBytes]

/-- Block `i` of the output (R125). -/
def ccChunk (p : CcParams) (ks : Bool) (text : Bytes) (n i : Nat) : Bytes :=
  let stream := (ccKeystream p i).take (min 64 (n - 64 * i))
  if ks then stream else xorBytes (slice text (64 * i) (min 64 (n - 64 * i))) stream

theorem ccOutput_eq_flatMap (p : CcParams) (ks : Bool) (text : Bytes) (n : Nat) :
    ccOutput p ks text n = (List.range (ccBlocks n)).flatMap (ccChunk p ks text n) := rfl

variable (p : CcParams) (ks : Bool) (text : Bytes)

theorem ccChunk_length (i : Nat) : (ccChunk p ks text text.length i).length = min 64 (text.length - 64 * i) := by
  unfold ccChunk
  split
  · simp
  · simp [xorBytes_length, slice]

theorem ccChunk_getD {i r : Nat} (hr : r < 64) (hn : 64 * i + r < text.length) :
    (ccChunk p ks text text.length i).getD r 0#8 =
      if ks then (ccKeystream p i).getD r 0#8 else text.getD (64 * i + r) 0#8 ^^^ (ccKeystream p i).getD r 0#8 := by
  have hm : r < min 64 (text.length - 64 * i) := by omega
  have hstream : ((ccKeystream p i).take (min 64 (text.length - 64 * i))).getD r 0#8 = (ccKeystream p i).getD r 0#8 := by
    simp only [List.getD_eq_getElem?_getD, List.getElem?_take_of_lt hm]
  unfold ccChunk
  split
  · exact hstream
  · rw [xorBytes_getD (by simp [slice]; omega) (by simp; omega), slice_getD hm, hstream]

theorem ccOutput_length : (ccOutput p ks text text.length).length = text.length := by
  rw [ccOutput_eq_flatMap, flatMap_chunks_length (ccChunk_length p ks text), ccBlocks]
  omega

/-- Every byte of the output is a byte of its block's keystream, xored onto the text unless KS = 1. -/
theorem ccOutput_getD {j : Nat} (hj : j < text.length) :
    (ccOutput p ks text text.length).getD j 0#8 =
      if ks then (ccKeystream p (j / 64)).getD (j % 64) 0#8
      else text.getD j 0#8 ^^^ (ccKeystream p (j / 64)).getD (j % 64) 0#8 := by
  have hblocks : j < 64 * ccBlocks text.length := by
    rw [ccBlocks]
    omega
  rw [ccOutput_eq_flatMap, flatMap_chunks_getD (ccChunk_length p ks text) _ hblocks hj,
    ccChunk_getD p ks text (Nat.mod_lt j (by decide)) (by rwa [Nat.div_add_mod]), Nat.div_add_mod]

theorem exec_cc20Xor {len : BitVec 16} (hlen : len.toNat ≤ 1024) (conv : Conv) (s : State) :
    exec (.cc20Xor conv ks len) s =
      finish (ccOutput (ccOperands conv s) ks (ibBytes s 64 len.toNat) len.toNat)
        (ccReturnCounter conv ((ccOperands conv s).c0 + BitVec.ofNat 64 (ccBlocks len.toNat)) s) := by
  have hok : textLenOk len = true := decide_eq_true hlen
  rw [exec, execCc20Xor, inRange, if_pos hok]

end Sys2Proof.Machine

namespace Sys2Proof.Proofs

open Sys2Proof.Machine Sys2Proof.Claims

/-- Settles O24, by the bytes of `ccOutput` and the table's keystream blocks. -/
theorem cc20XorAppliesTheKeystream : Obligations.Cc20XorAppliesTheKeystream := by
  refine ⟨encoding_of_row rowOf_cc20Xor fun flags len => ?_, fun conv ks len s hlen => ?_⟩
  · rw [rowForm_cc20Xor]
    have hconv : (flags.extractLsb' 0 2).toNat = flags.toNat % 4 := by simp
    obtain h | h | h | h :
        flags.toNat % 4 = 0 ∨ flags.toNat % 4 = 1 ∨ flags.toNat % 4 = 2 ∨ flags.toNat % 4 = 3 := by omega
    all_goals
      rw [h] at hconv
      simp only [h, convOf, hconv, Option.map]
  · have hbytes := @ccOutput_getD (ccOperands conv s) ks (ibBytes s 64 len.toNat)
    have hlength := ccOutput_length (ccOperands conv s) ks (ibBytes s 64 len.toNat)
    rw [show (ibBytes s 64 len.toNat).length = len.toNat from memReadBytes_length _ _ _] at hbytes hlength
    refine ⟨_, _, exec_cc20Xor ks hlen conv s, hlength, fun j hj => ?_, ?_⟩
    · rw [hbytes hj, ccKeystream_eq, ibBytes, memReadBytes_getD _ _ _ _ hj, ccByte]
    · rw [← ccReturnCounter_eq]
      exact delivers_done _ _

/-- Settles O25, by the words of `cc_h` read back from OB. -/
theorem cc20HReturnsTheSubkey : Obligations.Cc20HReturnsTheSubkey := by
  refine ⟨encoding_formN rfl rfl, fun s => ?_⟩
  obtain ⟨hframe, -, hrest⟩ := delivers_done (ccH (ibBytes s 0 32) (ibBytes s 32 16)) s
  rw [ccH_length] at hframe hrest
  refine ⟨_, rfl, hframe, fun j hj => ?_, hrest⟩
  rw [memReadBytes_done_slice (by rw [ccH_length]; omega), slice_ccH _ _ hj, le_bytes32, ccState_of_cc20H_operands]

end Sys2Proof.Proofs
end

section
/-! Common to the streaming commands (R92, R95, R332): the words of format L, the check of LIVE and an ending with no result
bytes; and a string cut into full blocks and a rest, when more bytes come. -/

namespace Sys2Proof.Machine

open Sys2Proof.Claims

/-! ## Format L (R92) -/

theorem and_FF_eq_zero_iff (flags : BitVec 8) : flags &&& 0xFF#8 = 0#8 ↔ flags.toNat = 0 := by
  rw [show flags &&& 0xFF#8 = flags from BitVec.and_allOnes, BitVec.toNat_eq, BitVec.toNat_zero]

/-- Format L: a row whose mask leaves LEN free, and a largest LEN (R92, R94). -/
theorem encoding_formL {op : BitVec 8} {max : Nat} {mk : BitVec 16 → Instr}
    (hwf : ∀ len, (mk len).wellFormed = decide (len.toNat ≤ max))
    (hrow : rowOf op = some ⟨0#16 ++ 0#8 ++ op, 0#16 ++ 0xFF#8 ++ 0xFF#8, fun w => some (mk (lenOf w))⟩) :
    Encoding op (formL max mk) := by
  refine encoding_of_row hrow fun flags len => ?_
  obtain ⟨-, -, hlen⟩ := Laws.fields_of_append len flags op
  have hlen0 : len &&& 0#16 = 0#16 := BitVec.and_zero
  simp only [formL, rowForm, append_and_mask_eq_iff, hlen, hlen0, and_FF_eq_zero_iff, true_and, Option.filter_some, hwf,
    decide_eq_true_eq, ite_and]

/-! ## The check of LIVE and the empty ending (R95, R97, R332) -/

variable {c : Stream} {s : State}

theorem whenLive_of_live (h : isLive c s = true) (body : Result) : whenLive c s body = body := by
  rw [whenLive, if_pos h]

theorem whenLive_of_idle (h : isLive c s = false) (body : Result) :
    whenLive c s body = .next (failed 0x20#32 s) := by
  rw [whenLive, h]
  rfl

theorem finish_nil (s : State) : finish [] s = .next { s with rlen := 0#32, status := 0#32 } := rfl

/-! ## Full blocks and rest -/

theorem rest_length (n : Nat) (v : Bytes) : (rest n v).length = v.length % n := by
  rw [rest, List.length_drop, Nat.mod_eq_sub_mul_div]

variable {n : Nat}

theorem blocks_of_length_lt {v : Bytes} (h : v.length < n) : blocks n v = [] := by
  rw [blocks, Nat.div_eq_of_lt h]
  rfl

theorem rest_of_length_lt {v : Bytes} (h : v.length < n) : rest n v = v := by
  rw [rest, Nat.div_eq_of_lt h, Nat.mul_zero, List.drop_zero]

theorem blocks_of_length_eq {v : Bytes} (hn : 0 < n) (h : v.length = n) : blocks n v = [v] := by
  rw [blocks, h, Nat.div_self hn]
  simp [slice, ← h]

theorem rest_of_length_eq {v : Bytes} (hn : 0 < n) (h : v.length = n) : rest n v = [] := by
  rw [rest, h, Nat.div_self hn, Nat.mul_one, ← h, List.drop_length]

theorem append_length_div (hn : 0 < n) (v w : Bytes) :
    (v ++ w).length / n = v.length / n + (rest n v ++ w).length / n := by
  have hv : v.length + w.length = v.length % n + w.length + n * (v.length / n) := by
    have := Nat.mod_add_div v.length n
    omega
  rw [List.length_append, List.length_append, rest_length, hv, Nat.add_mul_div_left _ _ hn, Nat.add_comm]

/-- From the end of its full blocks on, a longer string goes on with the rest. -/
theorem drop_append_eq_drop_rest (v w : Bytes) (k : Nat) :
    (v ++ w).drop (n * (v.length / n) + k) = (rest n v ++ w).drop k := by
  rw [← List.drop_drop, List.drop_append_of_le_length (Nat.mul_div_le v.length n), rest]

/-- More bytes leave the full blocks and go on after the rest. -/
theorem blocks_append (hn : 0 < n) (v w : Bytes) : blocks n (v ++ w) = blocks n v ++ blocks n (rest n v ++ w) := by
  rw [blocks, append_length_div hn, List.range_add, List.map_append, List.map_map]
  refine congrArg₂ (· ++ ·) (List.map_congr_left fun i hi => ?_) (List.map_congr_left fun i _ => ?_)
  · have hend : n * i + n ≤ v.length := by
      rw [← Nat.mul_succ]
      exact (Nat.mul_le_mul_left n (List.mem_range.1 hi)).trans (Nat.mul_div_le v.length n)
    rw [slice, slice, List.drop_append_of_le_length (by omega), List.take_append_of_le_length]
    rw [List.length_drop]
    omega
  · rw [Function.comp_apply, slice, slice, Nat.mul_add, drop_append_eq_drop_rest]

theorem rest_append (hn : 0 < n) (v w : Bytes) : rest n (v ++ w) = rest n (rest n v ++ w) := by
  rw [rest, append_length_div hn, Nat.mul_add, drop_append_eq_drop_rest, ← rest]

end Sys2Proof.Machine
end

section
/-! poly1305_mac (41_poly1305.md): the number of a block, the byte-wise UPDATE by full blocks, the tag and the context's
beginning and end. -/

namespace Sys2Proof.Machine

open Sys2Proof.Claims

/-- A block of any length stands for its bytes and one 1-bit after them (R140). -/
theorem polyBlock_eq (b : Bytes) : polyBlock b = le b + 2 ^ (8 * b.length) := by
  unfold polyBlock
  split
  · next h => rw [h]
  · have hone : le (1#8 :: zeros (15 - b.length)) = 1 := by
      rw [le, le_zeros]
      rfl
    rw [le_append, hone, Nat.mul_one, Nat.pow_mul]

/-! ## INIT (R141) -/

theorem polyInit_ibBytes (s : State) :
    polyInit (ibBytes s 0 32) =
      { r := BitVec.ofNat 128 (le (memReadBytes s.ib 0 16) &&& 0x0ffffffc0ffffffc0ffffffc0fffffff)
        pad := BitVec.ofNat 128 (le (memReadBytes s.ib 16 16)), h := 0, buf := [] } := by
  rw [polyInit, ibBytes, slice_memReadBytes (by omega), slice_memReadBytes (by omega), BitVec.ofNat_and]
  rfl

/-! ## UPDATE (R142) -/

/-- The accumulator after one more full block (R140). -/
def polyAccum (r : W128) (h : Nat) (b : Bytes) : Nat := (h + (le b + 2 ^ 128)) * r.toNat % p1305

theorem polyAbsorb_full {b : Bytes} (hb : b.length = 16) (c : PolyCtx) :
    polyAbsorb b c = { c with h := polyAccum c.r c.h b } := by
  rw [polyAbsorb, polyBlock_eq, hb]
  rfl

theorem polyByte_of_full {c : PolyCtx} {x : Byte} (h : (c.buf ++ [x]).length = 16) :
    polyByte c x = { c with h := polyAccum c.r c.h (c.buf ++ [x]), buf := [] } := by
  rw [polyByte, if_pos h, polyAbsorb_full h]

theorem polyByte_of_not_full {c : PolyCtx} {x : Byte} (h : (c.buf ++ [x]).length ≠ 16) :
    polyByte c x = { c with buf := c.buf ++ [x] } := by
  rw [polyByte, if_neg h]

/-- The context `c` after the bytes `v`, the waiting ones among them, by full blocks and rest. -/
def polyAfter (c : PolyCtx) (v : Bytes) : PolyCtx :=
  { c with h := (blocks 16 v).foldl (polyAccum c.r) c.h, buf := rest 16 v }

theorem polyByte_polyAfter (c : PolyCtx) (v : Bytes) (x : Byte) :
    polyByte (polyAfter c v) x = polyAfter c (v ++ [x]) := by
  have hlen : (rest 16 v ++ [x]).length = v.length % 16 + 1 := by
    rw [List.length_append, rest_length, List.length_singleton]
  rw [polyAfter, polyAfter, blocks_append (by omega), rest_append (by omega), List.foldl_append]
  by_cases hfull : (rest 16 v ++ [x]).length = 16
  · rw [polyByte_of_full hfull, blocks_of_length_eq (by omega) hfull, rest_of_length_eq (by omega) hfull,
      List.foldl_cons, List.foldl_nil]
  · have hlt : (rest 16 v ++ [x]).length < 16 := by omega
    rw [polyByte_of_not_full hfull, blocks_of_length_lt hlt, rest_of_length_lt hlt, List.foldl_nil]

theorem polyUpdate_polyAfter (c : PolyCtx) (v m : Bytes) : polyUpdate (polyAfter c v) m = polyAfter c (v ++ m) := by
  induction m generalizing v with
  | nil =>
    rw [List.append_nil]
    rfl
  | cons x m ih => rw [polyUpdate, List.foldl_cons, polyByte_polyAfter, ← polyUpdate, ih, ← List.append_cons]

/-- A context with a buffer that is not full stands after its own waiting bytes. -/
theorem polyAfter_buf {c : PolyCtx} (hbuf : c.buf.length < 16) : polyAfter c c.buf = c := by
  rw [polyAfter, blocks_of_length_lt hbuf, rest_of_length_lt hbuf]
  rfl

theorem polyUpdate_eq {c : PolyCtx} (hbuf : c.buf.length < 16) (m : Bytes) :
    polyUpdate c m = polyAfter c (c.buf ++ m) := by
  conv_lhs => rw [← polyAfter_buf hbuf, polyUpdate_polyAfter]

theorem exec_p1305Update {len : BitVec 16} (hlen : len.toNat ≤ 4096) (s : State) :
    exec (.p1305Update len) s =
      whenLive .poly s (finish [] { s with poly := polyUpdate s.poly (memReadBytes s.ib 0 len.toNat) }) := by
  have hok : chunkLenOk len = true := decide_eq_true hlen
  rw [exec, execP1305Update, inRange, if_pos hok]
  rfl

/-! ## FINAL (R143) -/

theorem polyTag_eq (c : PolyCtx) :
    polyTag c =
      tole 16 (((if c.buf = [] then c.h else (c.h + (le c.buf + 2 ^ (8 * c.buf.length))) * c.r.toNat % p1305) +
        c.pad.toNat) % 2 ^ 128) := by
  by_cases hbuf : c.buf = []
  · simp [polyTag, hbuf]
  · simp [polyTag, hbuf, List.length_pos_iff, polyAbsorb, polyBlock_eq]

/-- The wiped context, with its LIVE bit cleared and the other bits kept. -/
theorem endPoly_eq (s : State) :
    endPoly s =
      { s with poly := { r := 0#128, pad := 0#128, h := 0, buf := [] }, live := s.live &&& 0xFFFFFFFE#32 } := rfl

end Sys2Proof.Machine

namespace Sys2Proof.Proofs

open Sys2Proof.Machine Sys2Proof.Claims

/-- Settles O26. -/
theorem p1305InitSetsTheKey : Obligations.P1305InitSetsTheKey := by
  refine ⟨encoding_formN rfl rfl, fun s => ?_⟩
  rw [exec, execP1305Init, polyInit_ibBytes, finish_nil]
  rfl

/-- Settles O27, byte by byte: each byte of the chunk takes `polyAfter` of the bytes so far to that of one byte more. -/
theorem p1305UpdateAbsorbsFullBlocks : Obligations.P1305UpdateAbsorbsFullBlocks := by
  refine ⟨encoding_formL (fun _ => rfl) rfl, fun len s hlen => ⟨fun hidle => ?_, fun hlive hbuf => ?_⟩⟩
  · rw [exec_p1305Update hlen, whenLive_of_idle hidle]
  · rw [exec_p1305Update hlen, whenLive_of_live hlive, polyUpdate_eq (by omega), finish_nil]
    rfl

/-- Settles O28. -/
theorem p1305FinalReturnsTheTag : Obligations.P1305FinalReturnsTheTag := by
  refine ⟨encoding_formN rfl rfl, fun s => ⟨fun hidle => whenLive_of_idle hidle _, fun hlive => ?_⟩⟩
  refine ⟨_, whenLive_of_live hlive _, ?_⟩
  rw [← polyTag_eq, ← endPoly_eq]
  exact delivers_done _ _

end Sys2Proof.Proofs
end

section
/-! blake2b_core (42_blake2b.md): the words of B2B_INIT and its parameter block, the lazy byte-wise UPDATE by whole blocks, the
digest byte by byte and the context's end. -/

namespace Sys2Proof.Machine

open Sys2Proof.Claims

/-! ## The row of B2B_INIT (R94) -/

def b2bInitRow : OpRow :=
  ⟨0#16 ++ 0#8 ++ 0x30#8, 0#16 ++ 0x80#8 ++ 0xFF#8, fun w => some (.b2bInit ((flagsOf w).extractLsb' 0 7) (lenOf w))⟩

theorem rowOf_b2bInit : rowOf 0x30#8 = some b2bInitRow := rfl

theorem and_80_eq_zero_iff (flags : BitVec 8) : flags &&& 0x80#8 = 0#8 ↔ flags.toNat < 128 := by
  revert flags
  decide

theorem b2bParamsOk_iff {outlen : BitVec 7} {len : BitVec 16} :
    b2bParamsOk outlen len = true ↔ 1 ≤ outlen.toNat ∧ outlen.toNat ≤ 64 ∧ len.toNat ≤ 64 := by
  simp only [b2bParamsOk, Bool.and_eq_true, decide_eq_true_eq, and_assoc]
  rfl

/-- OUTLEN is the whole of FLAGS where bit 7 is clear, and where it is not, FLAGS is past the largest OUTLEN. -/
theorem rowForm_b2bInit (flags : BitVec 8) (len : BitVec 16) :
    rowForm b2bInitRow (len ++ flags ++ 0x30#8) =
      if 1 ≤ flags.toNat ∧ flags.toNat ≤ 64 ∧ len.toNat ≤ 64 then
        some (.b2bInit (BitVec.ofNat 7 flags.toNat) len)
      else none := by
  obtain ⟨-, hflags, hlen⟩ := Laws.fields_of_append len flags 0x30#8
  have hlen0 : len &&& 0#16 = 0#16 := BitVec.and_zero
  have houtlen : flags.extractLsb' 0 7 = BitVec.ofNat 7 flags.toNat := rfl
  simp only [rowForm, b2bInitRow, append_and_mask_eq_iff, hflags, hlen, hlen0, and_80_eq_zero_iff, true_and,
    Option.filter_some, Instr.wellFormed, houtlen, b2bParamsOk_iff, ← ite_and]
  refine if_congr ?_ rfl rfl
  rw [BitVec.toNat_ofNat]
  omega

/-! ## INIT (R164) -/

theorem b2Iv_set_zero (x : W64) :
    b2Iv.set 0 x = #v[x, b2Iv[1], b2Iv[2], b2Iv[3], b2Iv[4], b2Iv[5], b2Iv[6], b2Iv[7]] := rfl

theorem ofNat_shiftLeft_eight (n : Nat) : BitVec.ofNat 64 n <<< 8 = BitVec.ofNat 64 (256 * n) := by
  apply BitVec.eq_of_toNat_eq
  simp only [BitVec.toNat_shiftLeft, BitVec.toNat_ofNat, Nat.shiftLeft_eq]
  omega

theorem b2Init_eq (outlen : Nat) (key : Bytes) :
    b2Init outlen key =
      { h := #v[b2Iv[0] ^^^ 0x01010000#64 ^^^ BitVec.ofNat 64 (256 * key.length) ^^^ BitVec.ofNat 64 outlen,
          b2Iv[1], b2Iv[2], b2Iv[3], b2Iv[4], b2Iv[5], b2Iv[6], b2Iv[7]]
        t := 0#128
        buf := if key.length = 0 then [] else key ++ zeros (128 - key.length)
        outlen := outlen } := by
  simp only [b2Init, b2Iv_set_zero, ofNat_shiftLeft_eight, Nat.pos_iff_ne_zero, ite_not, padTo]

theorem exec_b2bInit {outlen : BitVec 7} {len : BitVec 16} (hmin : 1 ≤ outlen.toNat) (hmax : outlen.toNat ≤ 64)
    (hlen : len.toNat ≤ 64) (s : State) :
    exec (.b2bInit outlen len) s =
      finish [] (setLive .b2b { s with b2b := b2Init outlen.toNat (memReadBytes s.ib 0 len.toNat) }) := by
  rw [exec, execB2bInit, inRange, if_pos (b2bParamsOk_iff.2 ⟨hmin, hmax, hlen⟩)]
  rfl

/-! ## UPDATE (R163, R165) -/

/-- Block `i` of the bytes `v` compressed, with the count that includes it. -/
def b2CompressAt (t : W128) (v : Bytes) (h : Vector W64 8) (i : Nat) : Vector W64 8 :=
  b2Compress h (slice v (128 * i) 128) (t + BitVec.ofNat 128 (128 * (i + 1))) false

/-- The context `c` after the first `q` blocks of the bytes `v`, the waiting ones among them; what follows the blocks waits. -/
def b2After (c : B2bCtx) (v : Bytes) (q : Nat) : B2bCtx :=
  { c with
    h := (List.range q).foldl (b2CompressAt c.t v) c.h
    t := c.t + BitVec.ofNat 128 (128 * q)
    buf := v.drop (128 * q) }

/-- The number of blocks of `n` bytes that a further byte follows. -/
def b2Followed (n : Nat) : Nat := (n - 1) / 128

theorem slice_append_of_le {v : Bytes} {a n : Nat} (h : a + n ≤ v.length) (w : Bytes) :
    slice (v ++ w) a n = slice v a n := by
  rw [slice, slice, List.drop_append_of_le_length (by omega), List.take_append_of_le_length]
  rw [List.length_drop]
  omega

/-- More bytes wait behind the others and leave the blocks as they were. -/
theorem b2After_append (c : B2bCtx) {v : Bytes} {q : Nat} (h : 128 * q ≤ v.length) (w : Bytes) :
    b2After c (v ++ w) q = { b2After c v q with buf := (b2After c v q).buf ++ w } := by
  have hblocks : ∀ hash, ∀ i ∈ List.range q, b2CompressAt c.t (v ++ w) hash i = b2CompressAt c.t v hash i := by
    intro _ i hi
    have := List.mem_range.1 hi
    rw [b2CompressAt, slice_append_of_le (by omega), ← b2CompressAt]
  rw [b2After, List.foldl_ext _ _ _ hblocks, List.drop_append_of_le_length h]
  rfl

/-- A full buffer is the next block. -/
theorem b2Flush_b2After (c : B2bCtx) {v : Bytes} {q : Nat} (h : v.length = 128 * (q + 1)) :
    b2Flush (b2After c v q) = b2After c v (q + 1) := by
  have hcount : c.t + BitVec.ofNat 128 (128 * q) + 128#128 = c.t + BitVec.ofNat 128 (128 * (q + 1)) := by
    rw [BitVec.add_assoc, ← BitVec.ofNat_add, Nat.mul_succ]
  have hblock : v.drop (128 * q) = slice v (128 * q) 128 := by
    rw [slice, List.take_of_length_le]
    rw [List.length_drop]
    omega
  have hrest : v.drop (128 * (q + 1)) = [] := by rw [← h, List.drop_length]
  rw [b2Flush, b2After, b2After, hcount, hrest, List.range_succ, List.foldl_append, hblock]
  rfl

theorem b2Byte_of_full {c : B2bCtx} (h : c.buf.length = 128) (x : Byte) :
    b2Byte c x = { b2Flush c with buf := (b2Flush c).buf ++ [x] } := by
  rw [b2Byte, if_pos h]

theorem b2Byte_of_not_full {c : B2bCtx} (h : c.buf.length ≠ 128) (x : Byte) :
    b2Byte c x = { c with buf := c.buf ++ [x] } := by
  rw [b2Byte, if_neg h]

theorem b2Byte_b2After (c : B2bCtx) (v : Bytes) (x : Byte) :
    b2Byte (b2After c v (b2Followed v.length)) x = b2After c (v ++ [x]) (b2Followed (v ++ [x]).length) := by
  have hwait : (b2After c v (b2Followed v.length)).buf.length = v.length - 128 * b2Followed v.length := List.length_drop
  have hq : b2Followed v.length = (v.length - 1) / 128 := rfl
  have hq' : b2Followed (v ++ [x]).length = v.length / 128 := by rw [List.length_append]; rfl
  by_cases hfull : v.length = 128 * (b2Followed v.length + 1)
  · have hnext : b2Followed (v ++ [x]).length = b2Followed v.length + 1 := by omega
    rw [hnext, b2Byte_of_full (by omega), b2Flush_b2After c hfull, b2After_append c hfull.ge]
  · have hsame : b2Followed (v ++ [x]).length = b2Followed v.length := by omega
    rw [hsame, b2Byte_of_not_full (by omega), b2After_append c (by omega)]

theorem b2Update_b2After (c : B2bCtx) (v m : Bytes) :
    b2Update (b2After c v (b2Followed v.length)) m = b2After c (v ++ m) (b2Followed (v ++ m).length) := by
  induction m generalizing v with
  | nil =>
    rw [List.append_nil]
    rfl
  | cons x m ih => rw [b2Update, List.foldl_cons, b2Byte_b2After, ← b2Update, ih, ← List.append_cons]

/-- A context with at most one block waiting stands after its own waiting bytes. -/
theorem b2After_buf {c : B2bCtx} (hbuf : c.buf.length ≤ 128) : b2After c c.buf (b2Followed c.buf.length) = c := by
  have hnone : b2Followed c.buf.length = 0 := Nat.div_eq_of_lt (by omega)
  rw [hnone, b2After, Nat.mul_zero, BitVec.add_zero]
  rfl

theorem b2Update_eq {c : B2bCtx} (hbuf : c.buf.length ≤ 128) (m : Bytes) :
    b2Update c m = b2After c (c.buf ++ m) (b2Followed (c.buf ++ m).length) := by
  conv_lhs => rw [← b2After_buf hbuf, b2Update_b2After]

theorem exec_b2bUpdate {len : BitVec 16} (hlen : len.toNat ≤ 4096) (s : State) :
    exec (.b2bUpdate len) s =
      whenLive .b2b s (finish [] { s with b2b := b2Update s.b2b (memReadBytes s.ib 0 len.toNat) }) := by
  have hok : chunkLenOk len = true := decide_eq_true hlen
  rw [exec, execB2bUpdate, inRange, if_pos hok]
  rfl

/-! ## FINAL (R166) -/

theorem tole_getD {n i : Nat} (h : i < n) (v : Nat) : (tole n v).getD i 0#8 = BitVec.ofNat 8 (v / 256 ^ i) := by
  induction n generalizing i v with
  | zero => omega
  | succ n ih =>
    cases i with
    | zero => simp [tole]
    | succ i => rw [tole, List.getD_cons_succ, ih (by omega), Nat.div_div_eq_div_mul, Nat.pow_succ']

theorem bytes64_getD {k : Nat} (h : k < 8) (w : W64) :
    (bytes64 w).getD k 0#8 = BitVec.ofNat 8 (w >>> (8 * k)).toNat := by
  rw [bytes64, tole_getD h, BitVec.toNat_ushiftRight, Nat.shiftRight_eq_div_pow, Nat.pow_mul]

@[simp] theorem flatMap_bytes64_length (xs : List W64) : (xs.flatMap bytes64).length = 8 * xs.length := by
  simp [List.length_flatMap, Nat.mul_comm]

/-- Byte `j` of the words serialised is byte `j % 8` of word `j / 8`. -/
theorem flatMap_bytes64_getD {xs : List W64} {j : Nat} (hj : j < 8 * xs.length) :
    (xs.flatMap bytes64).getD j 0#8 = BitVec.ofNat 8 (xs.getD (j / 8) 0#64 >>> (8 * (j % 8))).toNat := by
  have hword : j / 8 < xs.length := by omega
  have hbyte : j % 8 < 8 := Nat.mod_lt j (by decide)
  calc (xs.flatMap bytes64).getD j 0#8
      = (slice (xs.flatMap bytes64) (8 * (j / 8)) 8).getD (j % 8) 0#8 := by rw [slice_getD hbyte, Nat.div_add_mod]
    _ = (bytes64 (xs.getD (j / 8) 0#64)).getD (j % 8) 0#8 := by
      rw [slice_flatMap bytes64 bytes64_length xs _ hword, List.getD_eq_getElem _ _ hword]
    _ = _ := bytes64_getD hbyte _

/-- The chaining value after the last block: the waiting bytes, zero padded, with the final count and the last flag. -/
def b2FinalHash (c : B2bCtx) : Vector W64 8 :=
  b2Compress c.h (c.buf ++ zeros (128 - c.buf.length)) (c.t + BitVec.ofNat 128 c.buf.length) true

theorem b2Digest_eq (c : B2bCtx) : b2Digest c = ((b2FinalHash c).toList.flatMap bytes64).take c.outlen := rfl

theorem b2Digest_length {c : B2bCtx} (h : c.outlen ≤ 64) : (b2Digest c).length = c.outlen := by
  rw [b2Digest_eq, List.length_take, flatMap_bytes64_length, Vector.length_toList]
  omega

theorem b2Digest_getD {c : B2bCtx} (h : c.outlen ≤ 64) {j : Nat} (hj : j < c.outlen) :
    (b2Digest c).getD j 0#8 =
      BitVec.ofNat 8 ((b2FinalHash c).toList.getD (j / 8) 0#64 >>> (8 * (j % 8))).toNat := by
  have hin : j < 8 * (b2FinalHash c).toList.length := by
    rw [Vector.length_toList]
    omega
  rw [← flatMap_bytes64_getD hin, b2Digest_eq, List.getD_eq_getElem?_getD, List.getElem?_take_of_lt hj,
    ← List.getD_eq_getElem?_getD]

/-- The wiped context, with its LIVE bit cleared and the other bits kept. -/
theorem endB2b_eq (s : State) :
    endB2b s =
      { s with b2b := { h := zeroHash, t := 0#128, buf := [], outlen := 0 }, live := s.live &&& 0xFFFFFFFD#32 } := rfl

end Sys2Proof.Machine

namespace Sys2Proof.Proofs

open Sys2Proof.Machine Sys2Proof.Claims

/-- Settles O29. -/
theorem b2bInitSetsTheParameters : Obligations.B2bInitSetsTheParameters := by
  refine ⟨encoding_of_row rowOf_b2bInit fun flags len => (rowForm_b2bInit flags len).symm,
    fun outlen len s hmin hmax hlen => ?_⟩
  rw [exec_b2bInit hmin hmax hlen, b2Init_eq, memReadBytes_length, finish_nil]
  rfl

/-- Settles O30, byte by byte: each byte of the chunk takes `b2After` of the bytes so far to that of one byte more, with one
block more exactly where the buffer was full. -/
theorem b2bUpdateCompressesAllButTheLastBlock : Obligations.B2bUpdateCompressesAllButTheLastBlock := by
  refine ⟨encoding_formL (fun _ => rfl) rfl, fun len s hlen => ⟨fun hidle => ?_, fun hlive hbuf m q hm hq => ?_⟩⟩
  · rw [exec_b2bUpdate hlen, whenLive_of_idle hidle]
  · have hctx : b2Update s.b2b (memReadBytes s.ib 0 len.toNat) = b2After s.b2b m q := by
      rw [b2Update_eq hbuf, ← hm, hq, b2Followed]
    rw [exec_b2bUpdate hlen, whenLive_of_live hlive, hctx, finish_nil]
    rfl

/-- Settles O31. -/
theorem b2bFinalReturnsTheDigest : Obligations.B2bFinalReturnsTheDigest := by
  refine ⟨encoding_formN rfl rfl, fun s => ⟨fun hidle => whenLive_of_idle hidle _, fun hlive houtlen => ?_⟩⟩
  refine ⟨_, _, whenLive_of_live hlive _, b2Digest_length houtlen, fun j hj => b2Digest_getD houtlen hj, ?_⟩
  rw [← endB2b_eq]
  exact delivers_done _ _

end Sys2Proof.Proofs
end

section
/-! sha512_core (43_sha512_hmac.md sections 1 and 2), the hash that hmac_sha512 shares: the byte-wise absorption by full blocks,
the padding as whole blocks, the one-shot hash and the context's end. -/

namespace Sys2Proof.Machine

open Sys2Proof.Claims

/-! ## Whole blocks (R188) -/

theorem shaBlocks_append (h : Vector W64 8) (v w : Bytes) :
    shaBlocks h (v ++ w) = shaBlocks (shaBlocks h v) (rest 128 v ++ w) := by
  rw [shaBlocks, blocks_append (by decide), List.foldl_append, ← shaBlocks, ← shaBlocks]

theorem shaBlocks_of_length_lt {v : Bytes} (hv : v.length < 128) (h : Vector W64 8) : shaBlocks h v = h := by
  rw [shaBlocks, blocks_of_length_lt hv, List.foldl_nil]

theorem shaBlocks_of_length_eq {v : Bytes} (hv : v.length = 128) (h : Vector W64 8) : shaBlocks h v = shaCompress h v := by
  rw [shaBlocks, blocks_of_length_eq (by decide) hv, List.foldl_cons, List.foldl_nil]

/-! ## UPDATE (R185, R188) -/

/-- The context `c` after the bytes `m`: the full blocks of the waiting and the new bytes are compressed, the rest waits. -/
def shaAfter (c : ShaCtx) (m : Bytes) : ShaCtx where
  h := shaBlocks c.h (c.buf ++ m)
  buf := rest 128 (c.buf ++ m)
  nbits := c.nbits + BitVec.ofNat 128 (8 * m.length)

theorem shaByte_of_full {c : ShaCtx} {x : Byte} (h : (c.buf ++ [x]).length = 128) :
    shaByte c x = { h := shaCompress c.h (c.buf ++ [x]), buf := [], nbits := c.nbits + 8#128 } := by
  rw [shaByte, if_pos h]

theorem shaByte_of_not_full {c : ShaCtx} {x : Byte} (h : (c.buf ++ [x]).length ≠ 128) :
    shaByte c x = { c with buf := c.buf ++ [x], nbits := c.nbits + 8#128 } := by
  rw [shaByte, if_neg h]

theorem shaByte_shaAfter (c : ShaCtx) (m : Bytes) (x : Byte) : shaByte (shaAfter c m) x = shaAfter c (m ++ [x]) := by
  have hlen : (rest 128 (c.buf ++ m) ++ [x]).length = (c.buf ++ m).length % 128 + 1 := by
    rw [List.length_append, rest_length, List.length_singleton]
  have hcount : c.nbits + BitVec.ofNat 128 (8 * m.length) + 8#128 = c.nbits + BitVec.ofNat 128 (8 * (m ++ [x]).length) := by
    rw [BitVec.add_assoc, ← BitVec.ofNat_add, List.length_append, List.length_singleton, Nat.mul_succ]
  rw [shaAfter, shaAfter, ← hcount, ← List.append_assoc, shaBlocks_append c.h (c.buf ++ m),
    rest_append (by decide) (c.buf ++ m)]
  by_cases hfull : (rest 128 (c.buf ++ m) ++ [x]).length = 128
  · rw [shaByte_of_full hfull, shaBlocks_of_length_eq hfull, rest_of_length_eq (by decide) hfull]
  · have hlt : (rest 128 (c.buf ++ m) ++ [x]).length < 128 := by omega
    rw [shaByte_of_not_full hfull, shaBlocks_of_length_lt hlt, rest_of_length_lt hlt]

theorem shaAbsorb_eq {c : ShaCtx} (hbuf : c.buf.length < 128) (m : Bytes) : shaAbsorb c m = shaAfter c m := by
  induction m using List.reverseRecOn with
  | nil =>
    rw [shaAfter, List.append_nil, shaBlocks_of_length_lt hbuf, rest_of_length_lt hbuf, List.length_nil, BitVec.add_zero]
    rfl
  | append_singleton m x ih =>
    rw [shaAbsorb, List.foldl_append, List.foldl_cons, List.foldl_nil, ← shaAbsorb, ih, shaByte_shaAfter]

theorem shaAfter_buf_length_le (c : ShaCtx) (m : Bytes) : (shaAfter c m).buf.length ≤ 127 := by
  rw [shaAfter, rest_length]
  exact Nat.le_of_lt_succ (Nat.mod_lt _ (by decide))

/-- A chunk length within the limit of R94 passes the range check. -/
theorem inRange_of_chunkLen {len : BitVec 16} (hlen : len.toNat ≤ 4096) (s : State) (body : Result) :
    inRange (chunkLenOk len) s body = body := by
  have hok : chunkLenOk len = true := decide_eq_true hlen
  rw [inRange, if_pos hok]

theorem exec_s512Update {len : BitVec 16} (hlen : len.toNat ≤ 4096) (s : State) :
    exec (.s512Update len) s =
      whenLive .sha s (finish [] { s with sha := shaAbsorb s.sha (memReadBytes s.ib 0 len.toNat) }) := by
  rw [exec, execS512Update, inRange_of_chunkLen hlen]
  rfl

/-! ## FINAL (R186, R187) -/

@[simp] theorem shaBytes_length (h : Vector W64 8) : (shaBytes h).length = 64 := by
  simp [shaBytes, List.length_flatMap]

@[simp] theorem shaFinish_length (c : ShaCtx) : (shaFinish c).length = 64 := shaBytes_length _

@[simp] theorem sha512_length (m : Bytes) : (sha512 m).length = 64 := shaFinish_length _

theorem zeros_append (n k : Nat) : zeros n ++ zeros k = zeros (n + k) := List.replicate_append_replicate

/-- One compression where the 0x80 and the bit count still fit behind the waiting bytes. -/
theorem shaPadded_of_short {v : Bytes} (hv : v.length ≤ 111) (n : Nat) :
    shaPadded v n = padTo 112 (v ++ [0x80#8]) ++ tobe 16 n := by
  have hzeros : (239 - v.length % 128) % 128 = 112 - (v ++ [0x80#8]).length := by
    rw [List.length_append, List.length_singleton]
    omega
  rw [shaPadded, hzeros, padTo]

/-- Two compressions where the bit count needs a block of its own. -/
theorem shaPadded_of_long {v : Bytes} (hmin : 112 ≤ v.length) (hmax : v.length ≤ 127) (n : Nat) :
    shaPadded v n = padTo 128 (v ++ [0x80#8]) ++ (padTo 112 [] ++ tobe 16 n) := by
  have hzeros : (239 - v.length % 128) % 128 = 128 - (v ++ [0x80#8]).length + 112 := by
    rw [List.length_append, List.length_singleton]
    omega
  rw [shaPadded, hzeros, ← zeros_append, padTo, padTo]
  simp only [List.append_assoc, List.nil_append, List.length_nil, Nat.sub_zero]

theorem shaBlocks_block_append {b : Bytes} (hb : b.length = 128) (h : Vector W64 8) (w : Bytes) :
    shaBlocks h (b ++ w) = shaBlocks (shaCompress h b) w := by
  rw [shaBlocks_append, shaBlocks_of_length_eq hb, rest_of_length_eq (by decide) hb, List.nil_append]

/-- The padding's last block: 112 bytes and the bit count. -/
theorem lastBlock_length {v : Bytes} (hv : v.length ≤ 112) (n : Nat) : (padTo 112 v ++ tobe 16 n).length = 128 := by
  rw [List.length_append, padTo_length 112 v hv, tobe_length]

theorem shaFinish_eq {c : ShaCtx} (hbuf : c.buf.length ≤ 127) :
    shaFinish c = shaBytes (shaBlocks c.h (shaPadded c.buf c.nbits.toNat)) := by
  have hlen : (c.buf ++ [0x80#8]).length = c.buf.length + 1 := List.length_append
  by_cases hshort : c.buf.length ≤ 111
  · have hone : decide (112 < (c.buf ++ [0x80#8]).length) = false := decide_eq_false (by omega)
    rw [shaPadded_of_short hshort, shaBlocks_of_length_eq (lastBlock_length (by omega) _), shaFinish, hone]
    rfl
  · have htwo : decide (112 < (c.buf ++ [0x80#8]).length) = true := decide_eq_true (by omega)
    rw [shaPadded_of_long (by omega) hbuf, shaBlocks_block_append (padTo_length 128 _ (by omega)),
      shaBlocks_of_length_eq (lastBlock_length (by decide) _), shaFinish, htwo]
    rfl

/-- The wiped context, with its LIVE bit cleared and the other bits kept. -/
theorem endSha_eq (s : State) :
    endSha s = { s with sha := { h := zeroHash, buf := [], nbits := 0#128 }, live := s.live &&& 0xFFFFFFFB#32 } := rfl

/-! ## The hash of one string (R189) -/

/-- The padding follows the full blocks of a message, which leave its length mod 128. -/
theorem shaBlocks_shaPadded (h : Vector W64 8) (m : Bytes) (n : Nat) :
    shaBlocks h (shaPadded m n) = shaBlocks (shaBlocks h m) (shaPadded (rest 128 m) n) := by
  simp only [shaPadded, List.append_assoc]
  rw [shaBlocks_append, rest_length, Nat.mod_mod]

theorem sha512_eq (m : Bytes) :
    sha512 m = shaBytes (shaBlocks shaH0 (shaPadded m (8 * m.length % 2 ^ 128))) := by
  have hcount : (shaAfter shaFresh m).nbits.toNat = 8 * m.length % 2 ^ 128 := by
    rw [shaAfter, shaFresh, BitVec.zero_add, BitVec.toNat_ofNat]
  rw [sha512, shaAbsorb_eq (by decide), shaFinish_eq (shaAfter_buf_length_le shaFresh m), hcount, shaBlocks_shaPadded shaH0 m]
  rfl

end Sys2Proof.Machine

namespace Sys2Proof.Proofs

open Sys2Proof.Machine Sys2Proof.Claims

/-- Settles O32. -/
theorem s512InitStartsAHash : Obligations.S512InitStartsAHash :=
  ⟨encoding_formN rfl rfl, fun _ => rfl⟩

/-- Settles O33, byte by byte: each byte of the chunk takes `shaAfter` of the bytes so far to that of one byte more. -/
theorem s512UpdateCompressesFullBlocks : Obligations.S512UpdateCompressesFullBlocks := by
  refine ⟨encoding_formL (fun _ => rfl) rfl, fun len s hlen => ⟨fun hidle => ?_, fun hlive hbuf => ?_⟩⟩
  · rw [exec_s512Update hlen, whenLive_of_idle hidle]
  · rw [exec_s512Update hlen, whenLive_of_live hlive, shaAbsorb_eq (by omega), finish_nil, shaAfter, memReadBytes_length]

/-- Settles O34: the padding is one block or two, as R187 compresses it. -/
theorem s512FinalReturnsTheDigest : Obligations.S512FinalReturnsTheDigest := by
  refine ⟨encoding_formN rfl rfl, fun s => ⟨fun hidle => whenLive_of_idle hidle _, fun hlive hbuf => ?_⟩⟩
  refine ⟨_, whenLive_of_live hlive _, ?_⟩
  rw [← shaFinish_eq hbuf, ← endSha_eq]
  exact delivers_done _ _

end Sys2Proof.Proofs
end

section
/-! hmac_sha512 (43_sha512_hmac.md section 3): the key block, the inner hash after it, the outer hash and the context's end. -/

namespace Sys2Proof.Machine

open Sys2Proof.Claims

/-! ## INIT (R190) -/

@[simp] theorem xorByte_length (v : Bytes) (b : Byte) : (xorByte v b).length = v.length := List.length_map _

/-- A key of up to 128 bytes is used as it is, the hash of a longer one has 64 bytes. -/
theorem hmacKeyBlock_length (key : Bytes) : (hmacKeyBlock key).length = 128 := by
  refine padTo_length 128 _ ?_
  split
  · rw [sha512_length]
    decide
  · omega

/-- One full block absorbed by a fresh hash. -/
theorem shaAbsorb_fresh_block {b : Bytes} (hb : b.length = 128) :
    shaAbsorb shaFresh b = { h := shaCompress shaH0 b, buf := [], nbits := 1024#128 } := by
  rw [shaAbsorb_eq (by decide), shaAfter, shaFresh, List.nil_append, shaBlocks_of_length_eq hb,
    rest_of_length_eq (by decide) hb, hb]
  rfl

theorem hmacStart_eq (key : Bytes) :
    hmacStart key =
      { kblock := hmacKeyBlock key
        inner := { h := shaCompress shaH0 (xorByte (hmacKeyBlock key) 0x36#8), buf := [], nbits := 1024#128 } } := by
  rw [hmacStart, shaAbsorb_fresh_block]
  rw [xorByte_length, hmacKeyBlock_length]

theorem exec_hmacInit {len : BitVec 16} (hlen : len.toNat ≤ 4096) (s : State) :
    exec (.hmacInit len) s =
      finish [] (setLive .hmac { s with hmac := hmacStart (memReadBytes s.ib 0 len.toNat) }) := by
  rw [exec, execHmacInit, inRange_of_chunkLen hlen]
  rfl

/-! ## UPDATE (R191) -/

theorem exec_hmacUpdate {len : BitVec 16} (hlen : len.toNat ≤ 4096) (s : State) :
    exec (.hmacUpdate len) s =
      whenLive .hmac s (finish []
        { s with hmac := { s.hmac with inner := shaAbsorb s.hmac.inner (memReadBytes s.ib 0 len.toNat) } }) := by
  rw [exec, execHmacUpdate, inRange_of_chunkLen hlen]
  rfl

/-! ## FINAL (R192) -/

/-- The outer hash takes 128 and 64 bytes, which are 1536 bits. -/
theorem hmacMac_eq {c : HmacCtx} (hkey : c.kblock.length = 128) :
    hmacMac c = shaBytes (shaBlocks shaH0 (shaPadded (xorByte c.kblock 0x5c#8 ++ shaFinish c.inner) 1536)) := by
  have hlen : (xorByte c.kblock 0x5c#8 ++ shaFinish c.inner).length = 192 := by
    rw [List.length_append, xorByte_length, shaFinish_length, hkey]
  rw [hmacMac, ← sha512, sha512_eq, hlen]
  rfl

/-- The wiped context, with its LIVE bit cleared and the other bits kept. -/
theorem endHmac_eq (s : State) :
    endHmac s =
      { s with
        hmac := { kblock := zeros 128, inner := { h := zeroHash, buf := [], nbits := 0#128 } }
        live := s.live &&& 0xFFFFFFF7#32 } := rfl

end Sys2Proof.Machine

namespace Sys2Proof.Proofs

open Sys2Proof.Machine Sys2Proof.Claims

/-- Settles O35: the key block xored with 0x36 is one full block for the fresh inner hash. -/
theorem hmacInitSetsTheKeyBlock : Obligations.HmacInitSetsTheKeyBlock := by
  refine ⟨encoding_formL (fun _ => rfl) rfl, fun len s k0 hlen hk0 => ?_⟩
  have hblock : hmacKeyBlock (memReadBytes s.ib 0 len.toNat) = k0 ++ zeros (128 - k0.length) := by
    rw [hmacKeyBlock, memReadBytes_length, ← hk0, padTo]
  rw [exec_hmacInit hlen, hmacStart_eq, hblock, finish_nil]
  rfl

/-- Settles O36. -/
theorem hmacUpdateAbsorbsIntoTheInnerHash : Obligations.HmacUpdateAbsorbsIntoTheInnerHash := by
  refine ⟨encoding_formL (fun _ => rfl) rfl, fun len s hlen => ⟨fun hidle => ?_, fun hlive hbuf => ?_⟩⟩
  · rw [exec_hmacUpdate hlen, whenLive_of_idle hidle]
  · rw [exec_hmacUpdate hlen, whenLive_of_live hlive, shaAbsorb_eq (by omega), finish_nil, shaAfter, memReadBytes_length]

/-- Settles O37: the inner hash is finished, and the outer one is the hash of one string. -/
theorem hmacFinalReturnsTheMac : Obligations.HmacFinalReturnsTheMac := by
  refine ⟨encoding_formN rfl rfl, fun s ih o => ⟨fun hidle => whenLive_of_idle hidle _, fun hlive hbuf hkey hih ho => ?_⟩⟩
  have hmac : hmacMac s.hmac = shaBytes (shaBlocks shaH0 (shaPadded o 1536)) := by
    rw [hmacMac_eq hkey, shaFinish_eq hbuf, ← hih, ho, xorByte]
  refine ⟨_, whenLive_of_live hlive _, ?_⟩
  rw [← hmac, ← endHmac_eq]
  exact delivers_done _ _

end Sys2Proof.Proofs
end

section
/-! The words of format F with the one sub-field FLAGS[0] (R92), and byte strings as 64-bit words. -/

namespace Sys2Proof.Machine

open Sys2Proof.Claims

/-! ## Format F with FLAGS[0] (R92) -/

theorem and_FFFF_eq_zero_iff (len : BitVec 16) : len &&& 0xFFFF#16 = 0#16 ↔ len.toNat = 0 := by
  rw [show len &&& 0xFFFF#16 = len from BitVec.and_allOnes, BitVec.toNat_eq, BitVec.toNat_zero]

theorem and_FE_eq_zero_iff (flags : BitVec 8) : flags &&& 0xFE#8 = 0#8 ↔ flags.toNat < 2 := by
  revert flags
  decide

theorem getLsbD_zero_of_lt_two (flags : BitVec 8) (h : flags.toNat < 2) : flags.getLsbD 0 = (flags.toNat == 1) := by
  revert flags
  decide

/-- Format F with one sub-field: a row whose mask leaves FLAGS[0] free, and no range condition (R92, R94). -/
theorem encoding_formBit {op : BitVec 8} {mk : Bool → Instr} (hwf : ∀ bit, (mk bit).wellFormed = true)
    (hrow : rowOf op =
      some ⟨0#16 ++ 0#8 ++ op, 0xFFFF#16 ++ 0xFE#8 ++ 0xFF#8, fun w => some (mk ((flagsOf w).getLsbD 0))⟩) :
    Encoding op (formBit mk) := by
  refine encoding_of_row hrow fun flags len => ?_
  obtain ⟨-, hflags, -⟩ := Laws.fields_of_append len flags op
  simp only [formBit, rowForm, append_and_mask_eq_iff, hflags, and_FFFF_eq_zero_iff, and_FE_eq_zero_iff,
    and_comm (a := len.toNat = 0), Option.filter_some, hwf, if_true]
  split
  · next h => rw [getLsbD_zero_of_lt_two flags h.1]
  · rfl

/-! ## 64-bit words (R8) -/

@[simp] theorem leWords64_length (n : Nat) (v : Bytes) : (leWords64 n v).length = n := by simp [leWords64]

theorem word64_leWords64 {n i : Nat} (hi : i < n) (v : Bytes) : word64 (leWords64 n v) i = le64 (slice v (8 * i) 8) := by
  simp [word64, leWords64, hi]

theorem le64_bytes64 (x : W64) : le64 (bytes64 x) = x := by
  have hx : x.toNat % 256 ^ 8 = x.toNat := Nat.mod_eq_of_lt x.isLt
  rw [le64, bytes64, le_tole, hx, BitVec.ofNat_toNat, BitVec.setWidth_eq]

theorem le64_slice_flatMap_bytes64 {xs : List W64} {i : Nat} (hi : i < xs.length) :
    le64 (slice (xs.flatMap bytes64) (8 * i) 8) = word64 xs i := by
  rw [slice_flatMap bytes64 bytes64_length xs i hi, le64_bytes64, word64, List.getD_eq_getElem _ _ hi]

end Sys2Proof.Machine
end

section
/-! argon2_block_filler (44_argon2.md): blocks xored word by word, the number of words that the permutation keeps, and the new
block's words. -/

namespace Sys2Proof.Machine

/-! ## The number of words (R211, R212) -/

@[simp] theorem a2Gb_length (a b c d : Nat) (v : List W64) : (a2Gb a b c d v).length = v.length := by
  simp only [a2Gb, List.length_set]

@[simp] theorem a2Pb_length (i : Nat → Nat) (v : List W64) : (a2Pb i v).length = v.length := by
  simp only [a2Pb, a2Gb_length]

theorem foldl_a2Pb_length (index : Nat → Nat → Nat) (groups : List Nat) (v : List W64) :
    (groups.foldl (fun v i => a2Pb (index i) v) v).length = v.length := by
  induction groups generalizing v with
  | nil => rfl
  | cons i groups ih => rw [List.foldl_cons, ih, a2Pb_length]

@[simp] theorem a2Rounds_length (v : List W64) : (a2Rounds v).length = v.length := by
  rw [a2Rounds, foldl_a2Pb_length a2Second, foldl_a2Pb_length a2First]

/-! ## Blocks xored -/

theorem a2Xor_length (x y : List W64) : (a2Xor x y).length = min x.length y.length := List.length_zipWith

theorem word64_a2Xor {x y : List W64} {i : Nat} (hx : i < x.length) (hy : i < y.length) :
    word64 (a2Xor x y) i = word64 x i ^^^ word64 y i := by
  simp [word64, a2Xor, hx, hy]

/-- `R`, the xor of the previous and the reference block (R213). -/
def a2Input (prev ref : Bytes) : List W64 := a2Xor (leWords64 128 prev) (leWords64 128 ref)

@[simp] theorem a2Input_length (prev ref : Bytes) : (a2Input prev ref).length = 128 := by simp [a2Input, a2Xor_length]

theorem a2Input_eq_map (prev ref : Bytes) :
    a2Input prev ref = (List.range 128).map fun i => le64 (slice prev (8 * i) 8) ^^^ le64 (slice ref (8 * i) 8) := by
  rw [a2Input, a2Xor, leWords64, leWords64, List.zipWith_map, List.zipWith_self]

/-! ## The new block (R213) -/

theorem a2Words_eq (prev ref : Bytes) : a2Words prev ref = a2Xor (a2Input prev ref) (a2Rounds (a2Input prev ref)) := rfl

@[simp] theorem a2Words_length (prev ref : Bytes) : (a2Words prev ref).length = 128 := by simp [a2Words_eq, a2Xor_length]

theorem word64_a2Words (prev ref : Bytes) {i : Nat} (hi : i < 128) :
    word64 (a2Words prev ref) i = word64 (a2Input prev ref) i ^^^ word64 (a2Rounds (a2Input prev ref)) i := by
  rw [a2Words_eq, word64_a2Xor (by rwa [a2Input_length]) (by rwa [a2Rounds_length, a2Input_length])]

@[simp] theorem a2Block_length (xor : Bool) (prev ref old : Bytes) : (a2Block xor prev ref old).length = 1024 := by
  cases xor <;> simp [a2Block, a2Xor_length]

/-- A word of the new block: with XOR = 1 the old block's word is xored onto it. -/
theorem le64_slice_a2Block (xor : Bool) (prev ref old : Bytes) {i : Nat} (hi : i < 128) :
    le64 (slice (a2Block xor prev ref old) (8 * i) 8) =
      word64 (a2Input prev ref) i ^^^ word64 (a2Rounds (a2Input prev ref)) i ^^^
        (if xor then le64 (slice old (8 * i) 8) else 0#64) := by
  have hwords : i < (a2Words prev ref).length := hi.trans_eq (a2Words_length prev ref).symm
  rw [← word64_a2Words prev ref hi, a2Block]
  cases xor with
  | false =>
    simp only [Bool.false_eq_true, if_false, BitVec.xor_zero]
    exact le64_slice_flatMap_bytes64 hwords
  | true =>
    have hold : i < (leWords64 128 old).length := hi.trans_eq (leWords64_length 128 old).symm
    have hnew : i < (a2Xor (a2Words prev ref) (leWords64 128 old)).length := by
      rw [a2Xor_length]
      exact lt_min hwords hold
    simp only [if_true]
    rw [le64_slice_flatMap_bytes64 hnew, word64_a2Xor hwords hold, word64_leWords64 hi]

/-- A word of a block that stands in IB. -/
theorem le64_slice_ibBytes (s : State) (a : Nat) {i : Nat} (hi : i < 128) :
    le64 (slice (ibBytes s a 1024) (8 * i) 8) = BitVec.ofNat 64 (le (memReadBytes s.ib (a + 8 * i) 8)) := by
  rw [ibBytes, slice_memReadBytes (by omega), le64]

theorem a2Input_ibBytes (s : State) :
    a2Input (ibBytes s 0 1024) (ibBytes s 1024 1024) =
      (List.range 128).map fun i =>
        BitVec.ofNat 64 (le (memReadBytes s.ib (8 * i) 8)) ^^^
          BitVec.ofNat 64 (le (memReadBytes s.ib (1024 + 8 * i) 8)) := by
  rw [a2Input_eq_map]
  refine List.map_congr_left fun i hi => ?_
  have hi : i < 128 := List.mem_range.1 hi
  rw [le64_slice_ibBytes s 0 hi, le64_slice_ibBytes s 1024 hi, Nat.zero_add]

end Sys2Proof.Machine

namespace Sys2Proof.Proofs

open Sys2Proof.Machine Sys2Proof.Claims

/-- Settles O38, by the words of `a2Block` read back from OB. -/
theorem a2FillComputesTheBlock : Obligations.A2FillComputesTheBlock := by
  refine ⟨encoding_formBit (fun _ => rfl) rfl, fun xor s r hr => ?_⟩
  obtain ⟨hframe, -, hrest⟩ :=
    delivers_done (a2Block xor (ibBytes s 0 1024) (ibBytes s 1024 1024) (ibBytes s 2048 1024)) s
  rw [a2Block_length] at hframe hrest
  refine ⟨_, rfl, hframe, fun i hi => ?_, hrest⟩
  rw [memReadBytes_done_slice (by rw [a2Block_length]; omega), ← le64, le64_slice_a2Block xor _ _ _ hi,
    a2Input_ibBytes, ← hr, le64_slice_ibBytes s 2048 hi]

end Sys2Proof.Proofs
end

section
/-! field_inversion and field_sqrt (45_field.md): the power `p - 2` as the inverse, the value and flag of FE_ISQRT in plain
arithmetic mod p, and a result in OB with either value of RF. -/

namespace Sys2Proof.Machine

open Sys2Proof.Claims

/-! ## Canonical values (R225, R227) -/

theorem fpow_lt (a e : Nat) : fpow a e < fieldP := by
  rw [fpow_eq]
  exact Nat.mod_lt _ fieldP_pos

theorem feOut_of_lt {v : Nat} (h : v < fieldP) : feOut v = tole 32 v := by rw [feOut, Nat.mod_eq_of_lt h]

theorem feOperand_lt (s : State) (a : Nat) : feOperand s a < fieldP := Nat.mod_lt _ fieldP_pos

/-! ## FE_INV (R232) -/

theorem exec_feInv (s : State) : exec .feInv s = finish (feOut (feInverse (feOperand s 0))) s := rfl

theorem feInverse_eq (x : Nat) : feInverse x = x ^ (fieldP - 2) % fieldP := fpow_eq x _

theorem feInverse_lt (x : Nat) : feInverse x < fieldP := fpow_lt x _

theorem fpow_zero_left {e : Nat} (he : e ≠ 0) : fpow 0 e = 0 := by rw [fpow_eq, zero_pow he, Nat.zero_mod]

theorem feInverse_zero : feInverse 0 = 0 := fpow_zero_left (by decide)

/-- Fermat: the exponents `1` and `p - 2` make up `p - 1`, and `p` is prime (R225). -/
theorem mul_feInverse {x : Nat} (hlt : x < fieldP) (h0 : x ≠ 0) : x * feInverse x % fieldP = 1 := by
  have hcop : x.Coprime fieldP := (Nat.coprime_of_lt_prime h0 hlt fieldP_prime).symm
  have hexp : fieldP - 2 + 1 = fieldP.totient := by rw [Nat.totient_prime fieldP_prime]; decide
  have hfermat : x ^ fieldP.totient % fieldP = 1 % fieldP := Nat.ModEq.pow_totient hcop
  calc x * feInverse x % fieldP
      = x ^ (fieldP - 2 + 1) % fieldP := by rw [feInverse_eq, Nat.mul_mod_mod, ← pow_succ']
    _ = 1 := by rw [hexp, hfermat, Nat.mod_eq_of_lt fieldP_prime.one_lt]

/-! ## FE_ISQRT (R233) -/

theorem exec_feIsqrt (s : State) :
    exec .feIsqrt s = .next (done (feOut (feInvSqrt (feOperand s 0)).1) (feInvSqrt (feOperand s 0)).2 s) := rfl

theorem fmul_fsq (t x : Nat) : fmul (fsq t) x = t ^ 2 * x % fieldP := by rw [fmul, fsq, Nat.mod_mul_mod, pow_two]

/-- The four equality checks on `q`, with the power and `q` in plain arithmetic. -/
theorem feInvSqrt_eq {x r q : Nat} (hr : r = x ^ ((fieldP - 5) / 8) % fieldP) (hq : q = r ^ 2 * x % fieldP) :
    feInvSqrt x =
      (if q = fieldP - 1 ∨ q = fieldP - sqrtm1 then r * sqrtm1 % fieldP else r,
        decide (q = 1 ∨ q = fieldP - 1 ∨ x = 0)) := by
  have ht : fpow x ((fieldP - 5) / 8) = r := by rw [fpow_eq, ← hr]
  have hfmul : fmul (fsq r) x = q := by rw [fmul_fsq, ← hq]
  simp only [feInvSqrt, ht, hfmul, Bool.or_eq_true, beq_iff_eq, Bool.decide_or, Bool.or_assoc]
  rfl

theorem feInvSqrt_lt (x : Nat) : (feInvSqrt x).1 < fieldP := by
  rw [feInvSqrt_eq rfl rfl]
  dsimp only
  split <;> exact Nat.mod_lt _ fieldP_pos

/-- `done` with either value of RF (R97). -/
theorem delivers_done_rf (v : Bytes) (rf : Bool) (s : State) :
    Delivers v (if rf then 0x02#32 else 0x00#32) s (done v rf s) := by
  refine ⟨?_, memReadBytes_done v rf s, fun a ha => ?_⟩
  · cases rf <;> rfl
  · rw [memRead_done, if_neg (Nat.not_lt.2 ha)]

end Sys2Proof.Machine

namespace Sys2Proof.Proofs

open Sys2Proof.Machine Sys2Proof.Claims

/-- Settles O39: the result is `feInverse` of the operand, an inverse by Fermat's little theorem. -/
theorem feInvReturnsTheInverse : Obligations.FeInvReturnsTheInverse := by
  refine ⟨encoding_formN rfl rfl, fun s => ⟨_, feInverse (feOperand s 0), exec_feInv s, ?_, feInverse_lt _,
    feInverse_eq _, fun h0 => ?_, mul_feInverse (feOperand_lt s 0)⟩⟩
  · rw [feOut_of_lt (feInverse_lt _)]
    exact delivers_done _ _
  · rw [h0, feInverse_zero]

/-- Settles O40, by the value and the flag of `feInvSqrt` in plain arithmetic. -/
theorem feIsqrtReturnsValueAndFlag : Obligations.FeIsqrtReturnsValueAndFlag := by
  refine ⟨encoding_formN rfl rfl, fun s x r q hx hr hq => ⟨_, exec_feIsqrt s, ?_⟩⟩
  rw [← hx, feOut_of_lt (feInvSqrt_lt x), feInvSqrt_eq hr hq]
  simpa only [decide_eq_true_eq] using delivers_done_rf _ (decide (q = 1 ∨ q = fieldP - 1 ∨ x = 0)) s

end Sys2Proof.Proofs
end

section
/-! montgomery_mult and barrett_reduce (46_scalar.md): the conditional subtraction as a remainder, the Montgomery product and the
Barrett steps for any modulus, and the values of the model's `montMul` and `barrett`. -/

namespace Sys2Proof.Machine

open Sys2Proof.Claims

/-! ## The conditional subtraction (R252, R254) -/

theorem ite_sub_eq_mod {r m : Nat} (h : r < 2 * m) : (if m ≤ r then r - m else r) = r % m := by
  split
  case isTrue hle => rw [Nat.mod_eq_sub_mod hle, Nat.mod_eq_of_lt (by omega)]
  case isFalse hlt => rw [Nat.mod_eq_of_lt (by omega)]

/-! ## Montgomery reduction for any modulus -/

/-- What Montgomery adds to the product is its negative mod `R`, because `k` is `-1/m` there. -/
theorem dvd_add_montgomery {R k m : Nat} (hk : R ∣ k * m + 1) (p : Nat) : R ∣ p + p % R * k % R * m := by
  have hs : p % R * k % R * m ≡ p * k * m [MOD R] :=
    ((Nat.mod_modEq _ _).trans ((Nat.mod_modEq _ _).mul_right _)).mul_right _
  refine (Nat.modEq_zero_iff_dvd).1 ((hs.add_left p).trans ((Nat.modEq_zero_iff_dvd).2 ?_))
  have hp : p + p * k * m = p * (k * m + 1) := by ring
  exact hp ▸ hk.mul_left p

/-- The sum is below `2 * (m * R)`, since each part is below `m * R`. -/
theorem montgomery_div_lt {R p q m : Nat} (hp : p < m * R) (hq : q < R) : (p + q * m) / R < 2 * m := by
  have hqm : q * m ≤ R * m := Nat.mul_le_mul_right m hq.le
  exact Nat.div_lt_of_lt_mul (by linarith)

/-! ## Barrett's quotient for any modulus -/

/-- The estimate is not above the quotient. -/
theorem barrett_quotient_mul_le (x M m : Nat) : x * (M / m) / M * m ≤ x :=
  calc x * (M / m) / M * m
      = m * (x * (M / m) / M) := Nat.mul_comm _ _
    _ ≤ m * (x * (M / m)) / M := Nat.mul_div_le_mul_div_assoc _ _ _
    _ = x * (M / m * m) / M := by rw [Nat.mul_comm m, Nat.mul_assoc]
    _ ≤ x * M / M := Nat.div_le_div_right (Nat.mul_le_mul_left x (Nat.div_mul_le_self M m))
    _ ≤ x := Nat.div_le_of_le_mul (Nat.mul_comm x M).le

/-- The estimate is at most one below the quotient: it loses less than 1 in `M / m`, which counts `x / M < 1` times, and less
than 1 in its own rounding. -/
theorem lt_barrett_quotient_add_two_mul {x M m : Nat} (hm : 0 < m) (hx : x < M) :
    x < (x * (M / m) / M + 2) * m := by
  have hmu : M ≤ m * (M / m + 1) := (Nat.lt_mul_div_succ M hm).le
  have hq : x * (M / m) < M * (x * (M / m) / M + 1) := Nat.lt_mul_div_succ _ (Nat.zero_lt_of_lt hx)
  refine Nat.lt_of_mul_lt_mul_left (a := M) ?_
  calc M * x
      ≤ m * (M / m + 1) * x := Nat.mul_le_mul_right x hmu
    _ = m * (x * (M / m)) + m * x := by ring
    _ < m * (M * (x * (M / m) / M + 1)) + m * M :=
      Nat.add_lt_add_of_lt_of_le (Nat.mul_lt_mul_of_pos_left hq hm) (Nat.mul_le_mul_left m hx.le)
    _ = M * ((x * (M / m) / M + 2) * m) := by ring

theorem barrett_remainder_lt {x M m : Nat} (hm : 0 < m) (hx : x < M) : x - x * (M / m) / M * m < 2 * m := by
  have hle := barrett_quotient_mul_le x M m
  have hlt := lt_barrett_quotient_add_two_mul hm hx
  rw [Nat.add_mul] at hlt
  omega

theorem barrett_remainder_mod (x M m : Nat) : (x - x * (M / m) / M * m) % m = x % m := by
  have hle := barrett_quotient_mul_le x M m
  rw [Nat.mul_comm] at hle ⊢
  exact Nat.sub_mul_mod hle

/-! ## MMUL (R252, R253) -/

theorem groupL_pos : 0 < groupL := by decide

/-- `kmont` is `-1/L` mod `2^256` (R251). -/
theorem dvd_kmont_mul_groupL_add_one : 2 ^ 256 ∣ kmont * groupL + 1 := by decide +kernel

/-- The number that MMUL divides by `2^256`. -/
def montSum (p : Nat) : Nat := p + p % 2 ^ 256 * kmont % 2 ^ 256 * groupL

theorem montMul_eq {a b : Nat} (h : a * b < groupL * 2 ^ 256) : montMul a b = montSum (a * b) / 2 ^ 256 % groupL :=
  ite_sub_eq_mod (montgomery_div_lt h (Nat.mod_lt _ (by decide)))

theorem montMul_lt {a b : Nat} (h : a * b < groupL * 2 ^ 256) : montMul a b < groupL := by
  rw [montMul_eq h]
  exact Nat.mod_lt _ groupL_pos

theorem montMul_mul_mod {a b : Nat} (h : a * b < groupL * 2 ^ 256) :
    montMul a b * 2 ^ 256 % groupL = a * b % groupL := by
  have hdvd : 2 ^ 256 ∣ montSum (a * b) := dvd_add_montgomery dvd_kmont_mul_groupL_add_one _
  rw [montMul_eq h, Nat.mod_mul_mod, Nat.div_mul_cancel hdvd, montSum, Nat.add_mul_mod_self_right]

theorem exec_mmul (s : State) :
    exec .mmul s =
      if montOk (scalarOperand s 0) (scalarOperand s 32) then
        finish (tole 32 (montMul (scalarOperand s 0) (scalarOperand s 32))) s
      else finish (tole 32 (Config.mmulFree s.draws).toNat) (drawn s) := rfl

theorem montOk_iff {a b : Nat} : montOk a b = true ↔ a * b < groupL * 2 ^ 256 := decide_eq_true_iff

theorem exec_mmul_of_lt {s : State} (h : scalarOperand s 0 * scalarOperand s 32 < groupL * 2 ^ 256) :
    exec .mmul s = finish (tole 32 (montMul (scalarOperand s 0) (scalarOperand s 32))) s := by
  rw [exec_mmul, if_pos (montOk_iff.2 h)]

/-- Outside the precondition the bytes are a draw (log 4). -/
theorem exec_mmul_of_le {s : State} (h : groupL * 2 ^ 256 ≤ scalarOperand s 0 * scalarOperand s 32) :
    exec .mmul s = finish (tole 32 (Config.mmulFree s.draws).toNat) (drawn s) := by
  rw [exec_mmul, if_neg (montOk_iff.not.2 h.not_gt)]

/-! ## BRED and BMAD (R254 to R256) -/

theorem mu_eq : mu = 2 ^ 512 / groupL := by decide +kernel

theorem barrett_eq {x : Nat} (hx : x < 2 ^ 512) : barrett x = x % groupL := by
  rw [barrett, mu_eq]
  exact (ite_sub_eq_mod (barrett_remainder_lt groupL_pos hx)).trans (barrett_remainder_mod _ _ _)

theorem exec_bred (s : State) : exec .bred s = finish (tole 32 (barrett (le (memReadBytes s.ib 0 64)))) s := rfl

theorem exec_bmad (s : State) :
    exec .bmad s = finish (tole 32 (barrett (scalarOperand s 0 * scalarOperand s 32 + scalarOperand s 64))) s := rfl

theorem le_memReadBytes_lt (m : Memory) (a n : Nat) : le (memReadBytes m a n) < 2 ^ (8 * n) := by
  rw [Nat.pow_mul]
  simpa only [memReadBytes_length] using le_lt (memReadBytes m a n)

theorem scalarOperand_le (s : State) (a : Nat) : scalarOperand s a ≤ 2 ^ 256 - 1 :=
  Nat.le_sub_one_of_lt (le_memReadBytes_lt s.ib a 32)

/-- The largest value is `2^512 - 2^256` (R255). -/
theorem scalar_mul_add_lt (s : State) : scalarOperand s 0 * scalarOperand s 32 + scalarOperand s 64 < 2 ^ 512 :=
  calc scalarOperand s 0 * scalarOperand s 32 + scalarOperand s 64
      ≤ (2 ^ 256 - 1) * (2 ^ 256 - 1) + (2 ^ 256 - 1) :=
        Nat.add_le_add (Nat.mul_le_mul (scalarOperand_le s 0) (scalarOperand_le s 32)) (scalarOperand_le s 64)
    _ < 2 ^ 512 := by decide +kernel

end Sys2Proof.Machine

namespace Sys2Proof.Proofs

open Sys2Proof.Machine Sys2Proof.Claims

/-- Settles O41, by the range and the residue of `montMul` under the precondition. -/
theorem mmulReturnsTheMontgomeryProduct : Obligations.MmulReturnsTheMontgomeryProduct := by
  refine ⟨encoding_formN rfl rfl, fun s => ⟨fun hlt => ?_, fun hge => ?_⟩⟩
  · exact ⟨_, _, exec_mmul_of_lt hlt, delivers_done _ s, montMul_lt hlt, montMul_mul_mod hlt⟩
  · exact ⟨_, _, exec_mmul_of_le hge, tole_length 32 _, delivers_done _ (drawn s)⟩

/-- Settles O42, by the value of the Barrett steps. -/
theorem bredReturnsTheResidue : Obligations.BredReturnsTheResidue := by
  refine ⟨encoding_formN rfl rfl, fun s => ⟨_, exec_bred s, ?_⟩⟩
  have hlt : le (memReadBytes s.ib 0 64) < 2 ^ 512 := by simpa only [Nat.reduceMul] using le_memReadBytes_lt s.ib 0 64
  rw [barrett_eq hlt]
  exact delivers_done _ s

/-- Settles O43: the sum stays below `2^512`, so the Barrett steps give its residue. -/
theorem bmadReturnsTheMultiplyAdd : Obligations.BmadReturnsTheMultiplyAdd := by
  refine ⟨encoding_formN rfl rfl, fun s => ⟨_, exec_bmad s, ?_⟩⟩
  rw [barrett_eq (scalar_mul_add_lt s)]
  exact delivers_done _ s

end Sys2Proof.Proofs
end

section
/-! utility (49_system.md): the words of WIPE, and what its six masked effects leave in each part of the state. -/

namespace Sys2Proof.Machine

open Sys2Proof.Claims

/-! ## The row of WIPE (R94) -/

def wipeRow : OpRow :=
  ⟨0#16 ++ 0#8 ++ 0x01#8, 0xFFFF#16 ++ 0xC0#8 ++ 0xFF#8, fun w => some (.wipe ((flagsOf w).extractLsb' 0 6))⟩

theorem rowOf_wipe : rowOf 0x01#8 = some wipeRow := rfl

theorem and_C0_eq_zero_iff (flags : BitVec 8) : flags &&& 0xC0#8 = 0#8 ↔ flags.toNat < 64 := by
  revert flags
  decide

theorem rowForm_wipe (flags : BitVec 8) (len : BitVec 16) :
    rowForm wipeRow (len ++ flags ++ 0x01#8) =
      if flags.toNat < 64 ∧ len.toNat = 0 then some (.wipe (BitVec.ofNat 6 flags.toNat)) else none := by
  obtain ⟨-, hflags, -⟩ := Laws.fields_of_append len flags 0x01#8
  have hmask : flags.extractLsb' 0 6 = BitVec.ofNat 6 flags.toNat := rfl
  simp only [rowForm, wipeRow, append_and_mask_eq_iff, hflags, hmask, and_FFFF_eq_zero_iff, and_C0_eq_zero_iff,
    and_comm (a := len.toNat = 0), Option.filter_some, Instr.wellFormed, if_true]

/-! ## One masked effect (R320) -/

variable {mask : BitVec 6} {i : Nat} {effect : State → State} {s : State}

/-- A part of the state after a masked effect. -/
theorem apply_wipeIf {α : Type} (part : State → α) :
    part (wipeIf mask i effect s) = if mask.getLsbD i then part (effect s) else part s :=
  apply_ite part _ _ _

theorem apply_wipeIf_of_kept {α : Type} {part : State → α} (h : part (effect s) = part s) :
    part (wipeIf mask i effect s) = part s := by
  rw [apply_wipeIf part, h, ite_self]

theorem getLsbD_clear_bit (live : W32) (b j : Nat) :
    (live &&& ~~~(1#32 <<< b)).getLsbD j = (live.getLsbD j && !decide (j = b)) := by
  have hbit : 1#32 <<< b = BitVec.twoPow 32 b := rfl
  rw [hbit, BitVec.getLsbD_and, BitVec.getLsbD_not, BitVec.getLsbD_twoPow]
  by_cases hj : j < 32
  · have hsame : (decide (b < 32) && decide (b = j)) = decide (j = b) := by
      rw [← Bool.decide_and, decide_eq_decide]
      omega
    simp only [hj, hsame, decide_true, Bool.true_and]
  · simp [BitVec.getLsbD_of_ge live j (by omega)]

/-- An effect that ends a context clears that context's LIVE bit alone, and only where the mask selects it. -/
theorem wipeIf_live_getLsbD {c : Stream} (h : (effect s).live = s.live &&& ~~~(1#32 <<< liveBit c)) (j : Nat) :
    (wipeIf mask i effect s).live.getLsbD j =
      (s.live.getLsbD j && !(decide (j = liveBit c) && mask.getLsbD i)) := by
  rw [apply_wipeIf State.live, h]
  cases mask.getLsbD i
  · simp
  · simp only [if_true, getLsbD_clear_bit, Bool.and_true]

/-! ## The six effects in order: each part of the state is written by its own effect and kept by the others -/

variable (mask s)

theorem wipeSelected_ib : (wipeSelected mask s).ib = if mask.getLsbD 0 then [] else s.ib := by
  simp [wipeSelected, apply_wipeIf State.ib]

theorem wipeSelected_ob : (wipeSelected mask s).ob = if mask.getLsbD 1 then [] else s.ob := by
  simp [wipeSelected, apply_wipeIf State.ob]

theorem wipeSelected_poly : (wipeSelected mask s).poly = if mask.getLsbD 2 then PolyCtx.zero else s.poly := by
  simp [wipeSelected, apply_wipeIf State.poly]

theorem wipeSelected_b2b : (wipeSelected mask s).b2b = if mask.getLsbD 3 then B2bCtx.zero else s.b2b := by
  simp [wipeSelected, apply_wipeIf State.b2b]

theorem wipeSelected_sha : (wipeSelected mask s).sha = if mask.getLsbD 4 then ShaCtx.zero else s.sha := by
  simp [wipeSelected, apply_wipeIf State.sha]

theorem wipeSelected_hmac : (wipeSelected mask s).hmac = if mask.getLsbD 5 then HmacCtx.zero else s.hmac := by
  simp [wipeSelected, apply_wipeIf State.hmac]

/-- The parts of the state that no mask bit selects, STATUS and RLEN apart. -/
def unselectable (s : State) : W32 × W32 × List HostMove × Bytes × Nat :=
  (s.ctrLo, s.ctrHi, s.pending, s.readData, s.draws)

theorem wipeSelected_unselectable : unselectable (wipeSelected mask s) = unselectable s := by
  rw [wipeSelected]
  iterate 6 rw [apply_wipeIf_of_kept (part := unselectable) rfl]

theorem wipeSelected_frame :
    (wipeSelected mask s).ctrLo = s.ctrLo ∧ (wipeSelected mask s).ctrHi = s.ctrHi ∧
      (wipeSelected mask s).pending = s.pending ∧ (wipeSelected mask s).readData = s.readData ∧
      (wipeSelected mask s).draws = s.draws := by
  simpa only [unselectable, Prod.mk.injEq] using wipeSelected_unselectable mask s

/-- LIVE bit `j` belongs to the context that mask bit `j + 2` selects (R29, R320). -/
theorem wipeSelected_live_getLsbD (j : Nat) :
    (wipeSelected mask s).live.getLsbD j = (s.live.getLsbD j && !(decide (j < 4) && mask.getLsbD (j + 2))) := by
  rw [wipeSelected, wipeIf_live_getLsbD (c := .hmac) rfl, wipeIf_live_getLsbD (c := .sha) rfl,
    wipeIf_live_getLsbD (c := .b2b) rfl, wipeIf_live_getLsbD (c := .poly) rfl,
    apply_wipeIf_of_kept (part := State.live) rfl, apply_wipeIf_of_kept (part := State.live) rfl]
  match j with
  | 0 | 1 | 2 | 3 => simp [liveBit]
  | k + 4 => simp [liveBit]

/-- A buffer that a mask bit zeroes, read byte by byte. -/
theorem memRead_ite_nil (selected : Bool) (m : Memory) (a : Nat) :
    memRead (if selected then [] else m) a = if selected then 0#8 else memRead m a :=
  apply_ite (memRead · a) _ _ _

end Sys2Proof.Machine

namespace Sys2Proof.Proofs

open Sys2Proof.Machine Sys2Proof.Claims

/-- Settles O23, part by part: each of the six effects writes its own part of the state and keeps the others. -/
theorem wipeZeroesTheSelectedState : Obligations.WipeZeroesTheSelectedState := by
  refine ⟨encoding_of_row rowOf_wipe fun flags len => (rowForm_wipe flags len).symm, fun mask s => ?_⟩
  refine ⟨_, finish_nil (wipeSelected mask s), fun a => ?ib, fun a => ?ob, wipeSelected_poly mask s,
    wipeSelected_b2b mask s, wipeSelected_sha mask s, wipeSelected_hmac mask s, wipeSelected_live_getLsbD mask s,
    rfl, rfl, wipeSelected_frame mask s⟩
  case ib => rw [← memRead_ite_nil, ← wipeSelected_ib]
  case ob => rw [← memRead_ite_nil, ← wipeSelected_ob]

end Sys2Proof.Proofs
end

section
/-! The endings of a command (60_exceptions.md): with which code each can end, and what the code says of the state before it. -/

namespace Sys2Proof.Machine

open Sys2Proof.Claims

/-! ## Completion codes (R330) -/

theorem codeBits_inj {c d : Code} : codeBits c = codeBits d ↔ c = d := by
  cases c <;> cases d <;> simp [codeBits]

theorem code_of_statusWord_eq {c d : Code} {f g : Bool} (h : statusWord c f = statusWord d g) : c = d := by
  rw [← codeBits_inj, ← statusCode_statusWord c f, h, statusCode_statusWord]

theorem raise_eq_failed (c : Code) (s : State) : raise c s = failed (statusWord c false) s := rfl

/-! ## What each code says of the command and the state before it (R97, R331 to R334) -/

/-- The command `i` in the state `s` can end with this code in this state. -/
inductive Ends (i : Instr) (s : State) : Code → State → Prop
  | ok (v : Bytes) (rf : Bool) (u : State) : Ends i s .ok (done v rf u)
  | illegal (hwf : i.wellFormed = false) : Ends i s .illegal (raise .illegal s)
  | seq {c : Stream} (hc : continues i = some c) (hidle : isLive c s = false) : Ends i s .seq (raise .seq s)
  | decodeFail (hi : i = .geSmulVar true) (hdec : geDecode (ibBytes s 32 32) = none) :
      Ends i s .decodeFail (raise .decodeFail s)

/-- Every next state that this answer holds is an ending of the command. -/
def EndsIn (i : Instr) (s : State) (r : Result) : Prop := ∀ t, r = .next t → ∃ c, Ends i s c t

variable {i : Instr} {s t : State}

theorem endsIn_done (v : Bytes) (rf : Bool) (u : State) : EndsIn i s (.next (done v rf u)) := by
  rintro _ ⟨⟩
  exact ⟨.ok, .ok v rf u⟩

theorem endsIn_finish (v : Bytes) (u : State) : EndsIn i s (finish v u) := endsIn_done v false u

theorem endsIn_inRange {ok : Bool} {body : Result} (hok : i.wellFormed = ok) (h : EndsIn i s body) :
    EndsIn i s (inRange ok s body) := by
  intro t ht
  obtain ⟨-, hbody⟩ | ⟨hbad, rfl⟩ := inRange_next ht
  · exact h t hbody
  · exact ⟨.illegal, .illegal (hok.trans hbad)⟩

theorem endsIn_whenLive {c : Stream} {body : Result} (hc : continues i = some c) (h : EndsIn i s body) :
    EndsIn i s (whenLive c s body) := by
  intro t ht
  obtain ⟨-, hbody⟩ | ⟨hidle, rfl⟩ := whenLive_next ht
  · exact h t hbody
  · exact ⟨.seq, .seq hc hidle⟩

theorem endsIn_execMmul (s : State) : EndsIn .mmul s (execMmul s) := by
  simp only [execMmul]
  split <;> exact endsIn_finish _ _

theorem endsIn_smulCompressed (s : State) : EndsIn (.geSmulVar true) s (smulCompressed s) := by
  cases hdec : geDecode (ibBytes s 32 32) with
  | none =>
    rw [smulCompressed_of_none hdec]
    rintro _ ⟨⟩
    exact ⟨.decodeFail, .decodeFail rfl hdec⟩
  | some pt =>
    rw [smulCompressed_of_some hdec]
    exact endsIn_finish _ _

theorem endsIn_smulExtended (s : State) : EndsIn (.geSmulVar false) s (smulExtended s) := by
  simp only [smulExtended]
  split <;> exact endsIn_finish _ _

theorem exec_geSmulVar_true (s : State) : exec (.geSmulVar true) s = smulCompressed s := by
  rw [exec, execGeSmulVar, if_pos rfl]

theorem exec_geSmulVar_false (s : State) : exec (.geSmulVar false) s = smulExtended s := by
  rw [exec, execGeSmulVar, if_neg Bool.false_ne_true]

theorem endsIn_exec (i : Instr) (s : State) : EndsIn i s (exec i s) := by
  cases i with
  | mmul => exact endsIn_execMmul s
  | geSmulVar cin =>
    cases cin with
    | true =>
      rw [exec_geSmulVar_true]
      exact endsIn_smulCompressed s
    | false =>
      rw [exec_geSmulVar_false]
      exact endsIn_smulExtended s
  | feIsqrt => exact endsIn_done _ _ _
  | wipe _ | cc20H | p1305Init | s512Init | a2Fill _ | feInv | bred | bmad | xLadder _ _ | geAdd _ | geSmulBase =>
    exact endsIn_finish _ _
  | cc20Xor _ _ _ | b2bInit _ _ | hmacInit _ => exact endsIn_inRange rfl (endsIn_finish _ _)
  | p1305Update _ | b2bUpdate _ | s512Update _ | hmacUpdate _ =>
    exact endsIn_inRange rfl (endsIn_whenLive rfl (endsIn_finish _ _))
  | p1305Final | b2bFinal | s512Final | hmacFinal => exact endsIn_whenLive rfl (endsIn_finish _ _)

theorem Ends.status_eq {c : Code} (h : Ends i s c t) : ∃ rf, t.status = statusWord c rf := by
  cases h with
  | ok v rf u => exact ⟨rf, rfl⟩
  | illegal _ | seq _ _ | decodeFail _ _ => exact ⟨false, rfl⟩

/-- STATUS tells which ending it was. -/
theorem ends_of_status {c : Code} {rf : Bool} (h : exec i s = .next t) (hst : t.status = statusWord c rf) :
    Ends i s c t := by
  obtain ⟨d, hd⟩ := endsIn_exec i s t h
  obtain ⟨f, hf⟩ := hd.status_eq
  rwa [code_of_statusWord_eq (hst.symm.trans hf)]

/-- An ending whose code is not OK has the failure effect (R334). -/
theorem Ends.eq_raise {c : Code} (h : Ends i s c t) (hc : c ≠ .ok) : t = raise c s := by
  cases h with
  | ok v rf u => exact absurd rfl hc
  | illegal _ | seq _ _ | decodeFail _ _ => rfl

/-- A command word whose CODE is not OK has the failure effect (R334, R96). -/
theorem issue_eq_raise {w : W32} (h : issue w s = .next t) (hcode : statusCode t.status ≠ 0#4) :
    ∃ c, c ≠ .ok ∧ t = raise c s := by
  obtain ⟨_, -, hillegal⟩ | ⟨i, -, hexec⟩ := issue_cases w s
  · exact ⟨.illegal, nofun, Host.Outcome.next.inj (h.symm.trans hillegal)⟩
  · obtain ⟨c, hc⟩ := endsIn_exec i s t (hexec.symm.trans h)
    obtain ⟨rf, hrf⟩ := hc.status_eq
    have hfail : c ≠ .ok := by
      rintro rfl
      rw [hrf, statusCode_statusWord] at hcode
      exact hcode rfl
    exact ⟨c, hfail, hc.eq_raise hfail⟩

theorem statusWord_failure_mem {c : Code} (hc : c ≠ .ok) : statusWord c false ∈ [0x10#32, 0x20#32, 0x30#32] := by
  cases c with
  | ok => exact absurd rfl hc
  | illegal | seq | decodeFail => decide

/-- The shape of UPDATE and FINAL: the range condition, then the check of LIVE (R95 steps 3 and 4). -/
theorem exec_of_continues {c : Stream} (hc : continues i = some c) (s : State) :
    ∃ body, exec i s = inRange i.wellFormed s (whenLive c s body) := by
  cases i with
  | p1305Update _ | b2bUpdate _ | s512Update _ | hmacUpdate _ | p1305Final | b2bFinal | s512Final | hmacFinal =>
    cases hc
    exact ⟨_, rfl⟩
  | wipe _ | cc20Xor _ _ _ | cc20H | p1305Init | b2bInit _ _ | s512Init | hmacInit _ | a2Fill _ | feInv | feIsqrt | mmul
  | bred | bmad | xLadder _ _ | geAdd _ | geSmulBase | geSmulVar _ => cases hc

theorem exec_of_idle {c : Stream} (hc : continues i = some c) (hwf : i.wellFormed = true) (hidle : isLive c s = false) :
    exec i s = .next (failed 0x20#32 s) := by
  obtain ⟨body, hexec⟩ := exec_of_continues hc s
  rw [hexec, hwf, inRange, if_pos rfl, whenLive_of_idle hidle]

end Sys2Proof.Machine

namespace Sys2Proof.Proofs

open Sys2Proof.Machine Sys2Proof.Claims

/-- Settles O15: an ending that is not OK is `raise`. -/
theorem failedCommandsChangeOnlyStatusAndRlen : Obligations.FailedCommandsChangeOnlyStatusAndRlen := by
  intro w s t h hcode
  obtain ⟨c, hc, rfl⟩ := issue_eq_raise h hcode
  exact ⟨rfl, statusWord_failure_mem hc, statusRf_statusWord c false, statusBusy_statusWord c false⟩

/-- Settles O18. -/
theorem seqExactlyWithoutALiveContext : Obligations.SeqExactlyWithoutALiveContext := by
  refine fun i s => ⟨fun c hc hwf hidle => exec_of_idle hc hwf hidle, fun t h hst => ?_⟩
  cases ends_of_status h (hst.trans statusWord_seq.symm) with
  | seq hc hidle => exact ⟨_, hc, hidle⟩

end Sys2Proof.Proofs
end

section
/-! The legal words (R94, R331): for the OP of each command, FLAGS and LEN make a legal word exactly where `LegalFields` says so,
and an OP of no command makes none. -/

namespace Sys2Proof.Machine

open Sys2Proof.Claims

/-! ## The fields of a word (R91) -/

theorem append_fields (w : W32) : lenOf w ++ flagsOf w ++ opOf w = w := by
  have hhigh : lenOf w ++ flagsOf w = w.extractLsb' 8 24 := BitVec.extractLsb'_append_extractLsb'_eq_extractLsb' rfl
  rw [hhigh]
  exact (BitVec.extractLsb'_append_extractLsb'_eq_extractLsb' rfl).trans BitVec.extractLsb'_eq_self

theorem opOf_toNat (w : W32) : (opOf w).toNat = w.toNat % 256 := by simp [opOf]

theorem flagsOf_toNat (w : W32) : (flagsOf w).toNat = w.toNat / 256 % 256 := by
  simp [flagsOf, Nat.shiftRight_eq_div_pow]

theorem lenOf_toNat (w : W32) : (lenOf w).toNat = w.toNat / 65536 := by
  rw [lenOf, BitVec.extractLsb'_toNat, Nat.shiftRight_eq_div_pow]
  omega

theorem wellFormed_of_decode {w : W32} {i : Instr} (h : decode w = .ok i) : i.wellFormed = true := by
  unfold decode at h
  split at h
  · cases h
  · split at h
    · cases h
    · split at h
      · cases h
      · split at h
        · next hwf => cases h; exact hwf
        · cases h

/-! ## The words of one OP -/

/-- The words of this OP are legal or ILLEGAL as R94's table says. -/
def ReadByTable (op : BitVec 8) : Prop :=
  ∀ (flags : BitVec 8) (len : BitVec 16),
    (LegalFields op.toNat flags.toNat len.toNat → ∃ i, decode (len ++ flags ++ op) = .ok i) ∧
      (¬LegalFields op.toNat flags.toNat len.toNat → ∀ s, issue (len ++ flags ++ op) s = .next (failed 0x10#32 s))

theorem readByTable_of_encoding {op : BitVec 8} {form : BitVec 8 → BitVec 16 → Option Instr} (henc : Encoding op form)
    (hlegal : ∀ flags len, LegalFields op.toNat flags.toNat len.toNat ↔ (form flags len).isSome) : ReadByTable op := by
  intro flags len
  rw [hlegal]
  have hread := henc flags len
  cases h : form flags len with
  | some i =>
    rw [h] at hread
    exact ⟨fun _ => ⟨i, hread⟩, fun hno => absurd rfl hno⟩
  | none =>
    rw [h] at hread
    exact ⟨nofun, fun _ => hread⟩

/-- Format N (R92). -/
theorem readByTable_formN {op : BitVec 8} {i : Instr}
    (hrow : rowOf op = some ⟨0#16 ++ 0#8 ++ op, 0xFFFF#16 ++ 0xFF#8 ++ 0xFF#8, fun _ => some i⟩)
    (hwf : i.wellFormed = true) (hlegal : ∀ flags len, LegalFields op.toNat flags len ↔ flags = 0 ∧ len = 0) :
    ReadByTable op :=
  readByTable_of_encoding (encoding_formN hwf hrow) fun flags len => by simp [hlegal, formN]

/-- Format L with a chunk of at most 4096 bytes (R92). -/
theorem readByTable_formL {op : BitVec 8} {mk : BitVec 16 → Instr}
    (hrow : rowOf op = some ⟨0#16 ++ 0#8 ++ op, 0#16 ++ 0xFF#8 ++ 0xFF#8, fun w => some (mk (lenOf w))⟩)
    (hwf : ∀ len, (mk len).wellFormed = chunkLenOk len)
    (hlegal : ∀ flags len, LegalFields op.toNat flags len ↔ flags = 0 ∧ len ≤ 4096) : ReadByTable op :=
  readByTable_of_encoding (encoding_formL (max := 4096) hwf hrow) fun flags len => by simp [hlegal, formL]

/-- Format F with FLAGS[0] (R92). -/
theorem readByTable_formBit {op : BitVec 8} {mk : Bool → Instr}
    (hrow : rowOf op =
      some ⟨0#16 ++ 0#8 ++ op, 0xFFFF#16 ++ 0xFE#8 ++ 0xFF#8, fun w => some (mk ((flagsOf w).getLsbD 0))⟩)
    (hwf : ∀ bit, (mk bit).wellFormed = true)
    (hlegal : ∀ flags len, LegalFields op.toNat flags len ↔ flags < 2 ∧ len = 0) : ReadByTable op :=
  readByTable_of_encoding (encoding_formBit hwf hrow) fun flags len => by simp [hlegal, formBit]

theorem convOf_isSome_iff (b : BitVec 2) : (convOf b).isSome ↔ b.toNat ≠ 3 := by
  revert b
  decide

theorem readByTable_cc20Xor : ReadByTable 0x10#8 := by
  refine readByTable_of_encoding (encoding_of_row rowOf_cc20Xor fun _ _ => rfl) fun flags len => ?_
  have hconv : (flags.extractLsb' 0 2).toNat = flags.toNat % 4 := by simp
  have hform : (rowForm cc20XorRow (len ++ flags ++ 0x10#8)).isSome ↔
      flags.toNat < 8 ∧ flags.toNat % 4 ≠ 3 ∧ len.toNat ≤ 1024 := by
    rw [rowForm_cc20Xor, ← hconv, ← convOf_isSome_iff]
    split
    · next h => simp [h]
    · next h => exact ⟨nofun, fun ⟨hflags, _, hlen⟩ => absurd ⟨hflags, hlen⟩ h⟩
  simp [hform, LegalFields]

theorem readByTable_b2bInit : ReadByTable 0x30#8 :=
  readByTable_of_encoding (encoding_of_row rowOf_b2bInit fun _ _ => rfl) fun flags len => by
    simp [rowForm_b2bInit, LegalFields]

theorem readByTable_wipe : ReadByTable 0x01#8 :=
  readByTable_of_encoding (encoding_of_row rowOf_wipe fun _ _ => rfl) fun flags len => by
    simp [rowForm_wipe, LegalFields]

def xLadderRow : OpRow :=
  ⟨0#16 ++ 0#8 ++ 0x90#8, 0xFFFF#16 ++ 0xFC#8 ++ 0xFF#8, fun w =>
    some (.xLadder ((flagsOf w).getLsbD 0) ((flagsOf w).getLsbD 1))⟩

theorem rowOf_xLadder : rowOf 0x90#8 = some xLadderRow := rfl

theorem and_FC_eq_zero_iff (flags : BitVec 8) : flags &&& 0xFC#8 = 0#8 ↔ flags.toNat < 4 := by
  revert flags
  decide

theorem rowForm_xLadder (flags : BitVec 8) (len : BitVec 16) :
    rowForm xLadderRow (len ++ flags ++ 0x90#8) =
      if flags.toNat < 4 ∧ len.toNat = 0 then some (.xLadder (flags.getLsbD 0) (flags.getLsbD 1)) else none := by
  obtain ⟨-, hflags, -⟩ := Laws.fields_of_append len flags 0x90#8
  simp only [rowForm, xLadderRow, append_and_mask_eq_iff, hflags, and_FFFF_eq_zero_iff, and_FC_eq_zero_iff,
    and_comm (a := len.toNat = 0), Option.filter_some, Instr.wellFormed, if_true]

theorem readByTable_xLadder : ReadByTable 0x90#8 :=
  readByTable_of_encoding (encoding_of_row rowOf_xLadder fun _ _ => rfl) fun flags len => by
    simp [rowForm_xLadder, LegalFields]

theorem readByTable_opBits (i : Instr) : ReadByTable (opBits i) := by
  cases i with
  | wipe _ => exact readByTable_wipe
  | cc20Xor _ _ _ => exact readByTable_cc20Xor
  | b2bInit _ _ => exact readByTable_b2bInit
  | xLadder _ _ => exact readByTable_xLadder
  | p1305Update n | b2bUpdate n | s512Update n | hmacInit n | hmacUpdate n =>
    rw [opBits]
    exact readByTable_formL rfl (fun _ => rfl) fun flags len => by simp [LegalFields]
  | a2Fill b | geAdd b | geSmulVar b =>
    rw [opBits]
    exact readByTable_formBit rfl (fun _ => rfl) fun flags len => by simp [LegalFields]
  | cc20H | p1305Init | p1305Final | b2bFinal | s512Init | s512Final | hmacFinal | feInv | feIsqrt | mmul | bred | bmad
  | geSmulBase =>
    exact readByTable_formN rfl rfl fun flags len => by simp [LegalFields, opBits]

/-! ## The OPs of no command (R93) -/

/-- One command for each row of the table, in its order. -/
def oneOfEach : List Instr :=
  [.wipe 0#6, .cc20Xor .djb false 0#16, .cc20H, .p1305Init, .p1305Update 0#16, .p1305Final, .b2bInit 0#7 0#16, .b2bUpdate 0#16,
    .b2bFinal, .s512Init, .s512Update 0#16, .s512Final, .hmacInit 0#16, .hmacUpdate 0#16, .hmacFinal, .a2Fill false, .feInv,
    .feIsqrt, .mmul, .bred, .bmad, .xLadder false false, .geAdd false, .geSmulBase, .geSmulVar false]

theorem opTable_ops : opTable.map (fun r => opOf r.pattern) = oneOfEach.map opBits := rfl

theorem rowOf_eq_none_iff {op : BitVec 8} : rowOf op = none ↔ op ∉ oneOfEach.map opBits := by
  rw [← opTable_ops]
  simp [rowOf]

theorem mem_ops_of_legalFields {op : BitVec 8} {flags len : Nat} (h : LegalFields op.toNat flags len) :
    op ∈ oneOfEach.map opBits := by
  simp only [LegalFields, List.mem_cons, List.not_mem_nil, or_false] at h
  simp only [oneOfEach, opBits, List.map_cons, List.map_nil, List.mem_cons]
  bv_omega

theorem readByTable (op : BitVec 8) : ReadByTable op := by
  by_cases hop : op ∈ oneOfEach.map opBits
  · obtain ⟨i, -, rfl⟩ := List.mem_map.1 hop
    exact readByTable_opBits i
  · intro flags len
    have hdec : decode (len ++ flags ++ op) = .error .reservedOp := by
      rw [decode, (Laws.fields_of_append len flags op).1, rowOf_eq_none_iff.2 hop]
    exact ⟨fun hlegal => absurd (mem_ops_of_legalFields hlegal) hop, fun _ => issue_of_decode_error hdec⟩

end Sys2Proof.Machine

namespace Sys2Proof.Proofs

open Sys2Proof.Machine Sys2Proof.Claims

/-- Settles O14, OP by OP. -/
theorem illegalExactlyForIllegalWords : Obligations.IllegalExactlyForIllegalWords := by
  intro w s
  obtain ⟨hlegal, hillegal⟩ := readByTable (opOf w) (flagsOf w) (lenOf w)
  rw [append_fields, opOf_toNat, flagsOf_toNat, lenOf_toNat] at hlegal hillegal
  refine ⟨fun h => hillegal h s, fun h => ?_⟩
  obtain ⟨i, hdec⟩ := hlegal h
  obtain ⟨t, hexec⟩ := exec_answers i s
  have hissue : issue w s = exec i s := by rw [issue, hdec]
  refine ⟨i, t, hdec, hissue, hissue.trans hexec, fun hst => ?_⟩
  cases ends_of_status hexec (hst.trans statusWord_illegal.symm) with
  | illegal hwf => exact absurd (wellFormed_of_decode hdec) (by simp [hwf])

end Sys2Proof.Proofs
end

section
/-! Squares mod `p` (R233, R288, R333): the flag of `feInvSqrt` is quadratic residuosity, by Euler's criterion, and a compressed
point decodes exactly where the value under the root is a square. -/

namespace Sys2Proof.Machine

open Sys2Proof.Claims

/-! ## Squares modulo a prime -/

section

variable {p : ℕ}

/-- Squareness in the field of residues, said with integers. -/
theorem isSquare_natCast_iff (x : ℕ) : IsSquare (x : ZMod p) ↔ ∃ z : ℤ, z * z % (p : ℤ) = (x : ℤ) % (p : ℤ) := by
  simp only [← ZMod.intCast_eq_intCast_iff', Int.cast_mul, Int.cast_natCast]
  constructor
  · rintro ⟨r, hr⟩
    obtain ⟨z, rfl⟩ := ZMod.intCast_surjective r
    exact ⟨z, hr.symm⟩
  · rintro ⟨z, hz⟩
    exact ⟨z, hz.symm⟩

theorem natCast_eq_iff_of_lt {a b : ℕ} (ha : a < p) (hb : b < p) : (a : ZMod p) = b ↔ a = b := by
  rw [ZMod.natCast_eq_natCast_iff', Nat.mod_eq_of_lt ha, Nat.mod_eq_of_lt hb]

/-- Euler's criterion by way of `q`, a root of `x^((p-1)/2)`: `x` is a square exactly where it is 0 or `q` is 1 or -1. -/
theorem isSquare_iff_of_sq_eq [Fact p.Prime] {x q : ℕ} (hx : x < p) (hq : q < p)
    (hsq : (q : ZMod p) ^ 2 = (x : ZMod p) ^ (p / 2)) : IsSquare (x : ZMod p) ↔ q = 1 ∨ q = p - 1 ∨ x = 0 := by
  have hp : 1 < p := (Fact.out : p.Prime).one_lt
  have hneg : ((p - 1 : ℕ) : ZMod p) = -1 := by simp [Nat.cast_sub hp.le]
  have hone : (q : ZMod p) = 1 ↔ q = 1 := by rw [← natCast_eq_iff_of_lt hq hp, Nat.cast_one]
  have hminus : (q : ZMod p) = -1 ↔ q = p - 1 := by rw [← natCast_eq_iff_of_lt hq (by omega), hneg]
  by_cases h0 : x = 0
  · simp [h0]
  · have hx0 : (x : ZMod p) ≠ 0 := by rwa [ne_eq, ← Nat.cast_zero, natCast_eq_iff_of_lt hx (by omega)]
    rw [ZMod.euler_criterion p hx0, ← hsq, sq_eq_one_iff, hone, hminus]
    simp [h0]

end

/-! ## The flag of FE_ISQRT (R233) -/

/-- The flag says whether the operand is a square: `q = t^2 * x` is `x^((p-1)/4)`. -/
theorem feInvSqrt_flag_iff {x : Nat} (hx : x < fieldP) :
    (feInvSqrt x).2 = true ↔ ∃ z : ℤ, z * z % (fieldP : ℤ) = x := by
  have : Fact fieldP.Prime := ⟨fieldP_prime⟩
  have hexp : ((fieldP - 5) / 8 * 2 + 1) * 2 = fieldP / 2 := by decide
  have hsq : (((x ^ ((fieldP - 5) / 8) % fieldP) ^ 2 * x % fieldP : ℕ) : ZMod fieldP) ^ 2 =
      (x : ZMod fieldP) ^ (fieldP / 2) := by
    rw [← hexp, ZMod.natCast_mod, Nat.cast_mul, Nat.cast_pow, ZMod.natCast_mod, Nat.cast_pow, ← pow_mul, ← pow_succ,
      ← pow_mul]
  rw [feInvSqrt_eq rfl rfl, decide_eq_true_eq, ← isSquare_iff_of_sq_eq hx (Nat.mod_lt _ fieldP_pos) hsq,
    isSquare_natCast_iff, Int.emod_eq_of_lt (Int.natCast_nonneg x) (Int.ofNat_lt.2 hx)]

/-! ## Decoding a point (R288, R333) -/

/-- What stands under the root when a point with this y is decoded. -/
def decodeRadicand (y : Nat) : Nat := fmul (fsub (fsq y) 1) (fadd (fmul edD (fsq y)) 1)

theorem decodeRadicand_lt (y : Nat) : decodeRadicand y < fieldP := fmul_lt _ _

theorem decodeRadicand_eq (y : Nat) :
    (decodeRadicand y : ℤ) = ((y : ℤ) ^ 2 - 1) * ((edD : ℤ) * (y : ℤ) ^ 2 + 1) % (fieldP : ℤ) := by
  simp only [decodeRadicand, fmul, fadd, fsq, Int.natCast_emod, Int.natCast_mul, Int.natCast_add, fsub_eq, pow_two]
  have hsq : (y : ℤ) * y % fieldP ≡ y * y [ZMOD fieldP] := Int.mod_modEq _ _
  have hu := (Int.mod_modEq _ _).trans (hsq.sub_right 1)
  have hv := (Int.mod_modEq _ _).trans (((Int.mod_modEq _ _).trans (hsq.mul_left edD)).add_right 1)
  exact hu.mul hv

theorem geDecode_eq_none_iff (c : Bytes) : geDecode c = none ↔ (feInvSqrt (decodeRadicand (feIn c))).2 = false := by
  unfold geDecode decodeRadicand
  simp

theorem exec_geSmulVar_true_eq_failed_iff (s : State) :
    exec (.geSmulVar true) s = .next (failed 0x30#32 s) ↔ geDecode (ibBytes s 32 32) = none := by
  refine ⟨fun h => ?_, fun h => ?_⟩
  · cases ends_of_status h statusWord_decodeFail.symm with
    | decodeFail _ hdec => exact hdec
  · rw [exec_geSmulVar_true, smulCompressed_of_none h, fail, raise_eq_failed, statusWord_decodeFail]

end Sys2Proof.Machine

namespace Sys2Proof.Proofs

open Sys2Proof.Machine Sys2Proof.Claims

/-- Settles O19. -/
theorem decodeFailExactlyForNonSquares : Obligations.DecodeFailExactlyForNonSquares := by
  refine ⟨fun s => ?_, fun i s t h hst => ?_⟩
  · have hy : feIn (ibBytes s 32 32) = feOperand s 32 := rfl
    rw [exec_geSmulVar_true_eq_failed_iff, geDecode_eq_none_iff, hy, ← Bool.not_eq_true,
      feInvSqrt_flag_iff (decodeRadicand_lt _), decodeRadicand_eq]
  · cases ends_of_status h (hst.trans statusWord_decodeFail.symm) with
    | decodeFail hi _ => exact hi

end Sys2Proof.Proofs
end

section
/-! The endings with OK (R97): how many result bytes there are, which command sets RF, and which parts of the state a command
writes before it ends. -/

namespace Sys2Proof.Machine

open Sys2Proof.Claims

/-! ## The state in which a command delivers its result -/

/-- What the command `i` in the state `s` may deliver: the bytes `v` and the flag `rf`, in the state `u` that it has
prepared (10_state.md sections 2 and 4). -/
structure Prepares (i : Instr) (s : State) (v : Bytes) (rf : Bool) (u : State) : Prop where
  length : v.length ≤ Config.obBytes
  flag : rf = true → i = .feIsqrt
  ib : u.ib = s.ib ∨ u.ib = [] ∧ ∃ mask, i = .wipe mask ∧ mask.getLsbD 0 = true
  ob : u.ob = s.ob ∨ u.ob = [] ∧ ∃ mask, i = .wipe mask
  counter : u.ctrLo = s.ctrLo ∧ u.ctrHi = s.ctrHi ∨ ∃ conv ks len, i = .cc20Xor conv ks len
  pending : u.pending = s.pending

variable {i : Instr} {s t u : State} {v : Bytes}

/-- The parts of the state that only WIPE and CC20_XOR write before their result. -/
def resultFree (s : State) : Memory × Memory × W32 × W32 × List HostMove :=
  (s.ib, s.ob, s.ctrLo, s.ctrHi, s.pending)

theorem prepares_of_resultFree {rf : Bool} (hlen : v.length ≤ Config.obBytes) (hrf : rf = true → i = .feIsqrt)
    (hu : resultFree u = resultFree s) : Prepares i s v rf u := by
  simp only [resultFree, Prod.mk.injEq] at hu
  obtain ⟨hib, hob, hlo, hhi, hpending⟩ := hu
  exact ⟨hlen, hrf, .inl hib, .inl hob, .inl ⟨hlo, hhi⟩, hpending⟩

theorem prepares_cc20Xor (conv : Conv) (ks : Bool) (len : BitVec 16) (n : W64) (s : State)
    (hlen : v.length ≤ Config.obBytes) :
    Prepares (.cc20Xor conv ks len) s v false (ccReturnCounter conv n s) :=
  ⟨hlen, nofun, .inl rfl, .inl rfl, .inr ⟨conv, ks, len, rfl⟩, rfl⟩

theorem prepares_wipe (mask : BitVec 6) (s : State) : Prepares (.wipe mask) s [] false (wipeSelected mask s) where
  length := Nat.zero_le _
  flag := nofun
  ib := by
    rw [wipeSelected_ib]
    cases hbit : mask.getLsbD 0 with
    | false => exact .inl rfl
    | true => exact .inr ⟨rfl, mask, rfl, hbit⟩
  ob := by
    rw [wipeSelected_ob]
    cases mask.getLsbD 1 with
    | false => exact .inl rfl
    | true => exact .inr ⟨rfl, mask, rfl⟩
  counter := by
    obtain ⟨hlo, hhi, -⟩ := wipeSelected_frame mask s
    exact .inl ⟨hlo, hhi⟩
  pending := by
    obtain ⟨-, -, hpending, -⟩ := wipeSelected_frame mask s
    exact hpending

/-! ## The number of result bytes (R97) -/

theorem ccOutput_ibBytes_length (p : CcParams) (ks : Bool) (s : State) (n : Nat) :
    (ccOutput p ks (ibBytes s 64 n) n).length = n := by
  have h := ccOutput_length p ks (ibBytes s 64 n)
  rwa [show (ibBytes s 64 n).length = n from memReadBytes_length _ _ _] at h

theorem polyTag_length (c : PolyCtx) : (polyTag c).length = 16 := tole_length 16 _

theorem b2Digest_length_le (c : B2bCtx) : (b2Digest c).length ≤ 64 := by
  rw [b2Digest_eq, List.length_take, flatMap_bytes64_length, Vector.length_toList]
  omega

@[simp] theorem feOut_length (n : Nat) : (feOut n).length = 32 := tole_length 32 _

@[simp] theorem pointBytes_length (q : Point) : (pointBytes q).length = 128 := by simp [pointBytes]

@[simp] theorem geOut_length (q : Point) : (geOut q).length = 160 := by simp [geOut, geCompress]

/-! ## How a command ends -/

/-- A command fails and changes STATUS and RLEN alone (R334), or it delivers a result in the state it has prepared (R97). -/
inductive Outcomes (i : Instr) (s : State) : State → Prop
  | failed (c : Code) (hc : c ≠ .ok) : Outcomes i s (raise c s)
  | delivered {v : Bytes} {rf : Bool} {u : State} (h : Prepares i s v rf u) : Outcomes i s (done v rf u)

/-- Every next state that this answer holds is an outcome of the command. -/
def AllOutcomes (i : Instr) (s : State) (r : Result) : Prop := ∀ t, r = .next t → Outcomes i s t

theorem allOutcomes_fail {c : Code} (hc : c ≠ .ok) : AllOutcomes i s (fail c s) := by
  rintro _ ⟨⟩
  exact .failed c hc

theorem allOutcomes_finish (h : Prepares i s v false u) : AllOutcomes i s (finish v u) := by
  rintro _ ⟨⟩
  exact .delivered h

theorem allOutcomes_finish_of_resultFree (hlen : v.length ≤ Config.obBytes) (hu : resultFree u = resultFree s) :
    AllOutcomes i s (finish v u) :=
  allOutcomes_finish (prepares_of_resultFree hlen nofun hu)

theorem allOutcomes_inRange {ok : Bool} {body : Result} (h : ok = true → AllOutcomes i s body) :
    AllOutcomes i s (inRange ok s body) := by
  intro t ht
  obtain ⟨hok, hbody⟩ | ⟨-, rfl⟩ := inRange_next ht
  · exact h hok t hbody
  · exact .failed _ nofun

theorem allOutcomes_whenLive {c : Stream} {body : Result} (h : AllOutcomes i s body) :
    AllOutcomes i s (whenLive c s body) := by
  intro t ht
  obtain ⟨-, hbody⟩ | ⟨-, rfl⟩ := whenLive_next ht
  · exact h t hbody
  · exact .failed _ nofun

theorem le_obBytes_of_eq {n k : Nat} (h : n = k) (hk : k ≤ 1024) : n ≤ Config.obBytes := h ▸ hk

theorem allOutcomes_execMmul (s : State) : AllOutcomes .mmul s (execMmul s) := by
  simp only [execMmul]
  split <;> exact allOutcomes_finish_of_resultFree (le_obBytes_of_eq (tole_length 32 _) (by decide)) rfl

theorem allOutcomes_smulCompressed (s : State) : AllOutcomes (.geSmulVar true) s (smulCompressed s) := by
  cases hdec : geDecode (ibBytes s 32 32) with
  | none =>
    rw [smulCompressed_of_none hdec]
    exact allOutcomes_fail nofun
  | some pt =>
    rw [smulCompressed_of_some hdec]
    exact allOutcomes_finish_of_resultFree (le_obBytes_of_eq (geOut_length _) (by decide)) rfl

theorem allOutcomes_smulExtended (s : State) : AllOutcomes (.geSmulVar false) s (smulExtended s) := by
  simp only [smulExtended]
  split
  · exact allOutcomes_finish_of_resultFree (le_obBytes_of_eq (geOut_length _) (by decide)) rfl
  · exact allOutcomes_finish_of_resultFree (le_obBytes_of_eq (tole_length 160 _) (by decide)) rfl

theorem allOutcomes_exec (i : Instr) (s : State) : AllOutcomes i s (exec i s) := by
  cases i with
  | wipe mask => exact allOutcomes_finish (prepares_wipe mask s)
  | cc20Xor conv ks len =>
    refine allOutcomes_inRange fun hok => allOutcomes_finish (prepares_cc20Xor conv ks len _ s ?_)
    rw [ccOutput_ibBytes_length]
    exact of_decide_eq_true hok
  | cc20H => exact allOutcomes_finish_of_resultFree (le_obBytes_of_eq (ccH_length _ _) (by decide)) rfl
  | p1305Init | s512Init => exact allOutcomes_finish_of_resultFree (Nat.zero_le _) rfl
  | b2bInit _ _ | hmacInit _ =>
    exact allOutcomes_inRange fun _ => allOutcomes_finish_of_resultFree (Nat.zero_le _) rfl
  | p1305Update _ | b2bUpdate _ | s512Update _ | hmacUpdate _ =>
    exact allOutcomes_inRange fun _ =>
      allOutcomes_whenLive (allOutcomes_finish_of_resultFree (Nat.zero_le _) rfl)
  | p1305Final =>
    exact allOutcomes_whenLive
      (allOutcomes_finish_of_resultFree (le_obBytes_of_eq (polyTag_length _) (by decide)) rfl)
  | b2bFinal =>
    exact allOutcomes_whenLive
      (allOutcomes_finish_of_resultFree ((b2Digest_length_le s.b2b).trans (by decide)) rfl)
  | s512Final | hmacFinal =>
    exact allOutcomes_whenLive
      (allOutcomes_finish_of_resultFree (le_obBytes_of_eq (shaFinish_length _) (by decide)) rfl)
  | a2Fill xor => exact allOutcomes_finish_of_resultFree (le_obBytes_of_eq (a2Block_length xor _ _ _) le_rfl) rfl
  | feIsqrt =>
    rintro _ ⟨⟩
    exact .delivered (prepares_of_resultFree (le_obBytes_of_eq (feOut_length _) (by decide)) (fun _ => rfl) rfl)
  | mmul => exact allOutcomes_execMmul s
  | feInv | bred | bmad | xLadder _ _ =>
    exact allOutcomes_finish_of_resultFree (le_obBytes_of_eq (tole_length 32 _) (by decide)) rfl
  | geAdd _ => exact allOutcomes_finish_of_resultFree (le_obBytes_of_eq (pointBytes_length _) (by decide)) rfl
  | geSmulBase => exact allOutcomes_finish_of_resultFree (le_obBytes_of_eq (geOut_length _) (by decide)) rfl
  | geSmulVar cin =>
    cases cin with
    | true =>
      rw [exec_geSmulVar_true]
      exact allOutcomes_smulCompressed s
    | false =>
      rw [exec_geSmulVar_false]
      exact allOutcomes_smulExtended s

theorem outcomes_of_exec (h : exec i s = .next t) : Outcomes i s t := allOutcomes_exec i s t h

/-- A command that ends with OK has delivered a result. -/
theorem prepares_of_exec_ok (h : exec i s = .next t) (hok : statusCode t.status = 0#4) :
    ∃ v rf u, t = done v rf u ∧ Prepares i s v rf u := by
  cases outcomes_of_exec h with
  | failed c hc =>
    rw [raise_status, statusCode_statusWord] at hok
    exact absurd (codeBits_inj.1 (hok : codeBits c = codeBits .ok)) hc
  | delivered hp => exact ⟨_, _, _, rfl, hp⟩

theorem exec_pending (h : exec i s = .next t) : t.pending = s.pending := by
  cases outcomes_of_exec h with
  | failed c hc => rfl
  | delivered hp => exact hp.pending

theorem toNat_rlen_done (rf : Bool) (u : State) (hlen : v.length ≤ Config.obBytes) :
    (done v rf u).rlen.toNat = v.length := by
  have hmax : Config.obBytes < 2 ^ 32 := by decide
  rw [done_rlen, BitVec.toNat_ofNat, Nat.mod_eq_of_lt (hlen.trans_lt hmax)]

end Sys2Proof.Machine

namespace Sys2Proof.Proofs

open Sys2Proof.Machine Sys2Proof.Claims

/-- Settles O16: the result goes to a state in which OB is as it was. -/
theorem successWritesOnlyTheResultBytes : Obligations.SuccessWritesOnlyTheResultBytes := by
  intro i s t h hok hw
  obtain ⟨v, rf, u, rfl, hp⟩ := prepares_of_exec_ok h hok
  have hob : u.ob = s.ob := hp.ob.resolve_right fun ⟨_, mask, hi⟩ => hw mask hi
  rw [toNat_rlen_done rf u hp.length]
  refine ⟨hp.length, statusBusy_statusWord _ _, fun a ha => ?_⟩
  rw [memRead_done, if_neg (Nat.not_lt.2 ha), hob]

/-- Settles O20: a failure writes none of them, and a result is delivered in a state with the flag, the counter and IB of its
command. -/
theorem eachOfThemHasOneWriter : Obligations.EachOfThemHasOneWriter := by
  intro i s t h
  cases outcomes_of_exec h with
  | failed c hc =>
    refine ⟨fun hrf => ?_, fun hctr => ?_, fun hib => absurd rfl hib⟩
    · rw [raise_status, statusRf_statusWord] at hrf
      cases hrf
    · exact hctr.elim (absurd rfl) (absurd rfl)
  | @delivered v rf u hp =>
    refine ⟨fun hrf => hp.flag ?_, fun hctr => ?_, fun hib => ?_⟩
    · rwa [done_status, statusRf_statusWord] at hrf
    · obtain ⟨conv, ks, len, rfl⟩ := hp.counter.resolve_left fun ⟨hlo, hhi⟩ => hctr.elim (absurd hlo) (absurd hhi)
      have hrf : rf = false := Bool.eq_false_iff.2 fun hrf => nomatch hp.flag hrf
      exact ⟨conv, ks, len, rfl, by rw [done_status, hrf, statusWord_ok]⟩
    · obtain ⟨-, hi⟩ := hp.ib.resolve_left hib
      exact hi

end Sys2Proof.Proofs
end

section
/-! Good states (10_state.md, 60_exceptions.md section 1): the invariant as a part for the buffers, one for the registers and one
for each context, and what each kind of step does to these parts. A command keeps the contexts that are not its unit's
because it does not write them (R30). -/

namespace Sys2Proof.Machine

open Sys2Proof.Claims

/-! ## The parts of the invariant -/

/-- The Poly1305 context (R32). -/
structure PolyCtx.Ok (c : PolyCtx) : Prop where
  h : c.h < p1305
  r : c.r &&& clampMask = c.r
  buf : c.buf.length ≤ 15

/-- The BLAKE2b context (R33). -/
structure B2bCtx.Ok (c : B2bCtx) : Prop where
  buf : c.buf.length ≤ 128
  outlen : c.outlen ≤ Config.b2bMax

/-- The HMAC context (R35). -/
structure HmacCtx.Ok (c : HmacCtx) : Prop where
  inner : c.inner.Ok
  kblock : c.kblock.length = 128

/-- The part of the invariant for one context: its ranges, and its zeros where it is not live (R31 to R35). -/
def ContextOk : Stream → State → Prop
  | .poly, s => s.poly.Ok ∧ (isLive .poly s = false → s.poly = PolyCtx.zero)
  | .b2b, s => s.b2b.Ok ∧ (isLive .b2b s = true → 1 ≤ s.b2b.outlen) ∧ (isLive .b2b s = false → s.b2b = B2bCtx.zero)
  | .sha, s => s.sha.Ok ∧ (isLive .sha s = false → s.sha = ShaCtx.zero)
  | .hmac, s => s.hmac.Ok ∧ (isLive .hmac s = false → s.hmac = HmacCtx.zero)

/-- STATUS and RLEN (R26, R27, R330, R334). -/
structure ResultOk (s : State) : Prop where
  status : s.status ∈ [0x00#32, 0x02#32, 0x10#32, 0x20#32, 0x30#32]
  rlen : s.rlen.toNat ≤ Config.obBytes
  rlenFail : statusCode s.status ≠ 0#4 → s.rlen = 0#32

theorem inv_iff (s : State) :
    s.Inv ↔ Memory.wf Config.ibBytes s.ib ∧ Memory.wf Config.obBytes s.ob ∧ ResultOk s ∧ s.live.toNat < 16 ∧
      ∀ c, ContextOk c s := by
  constructor
  · refine fun h => ⟨h.ib, h.ob, ⟨h.status, h.rlen, h.rlenFail⟩, h.live, fun c => ?_⟩
    cases c with
    | poly => exact ⟨⟨h.polyH, h.polyR, h.polyBuf⟩, h.polyIdle⟩
    | b2b => exact ⟨⟨h.b2bBuf, h.b2bOutlen⟩, h.b2bOutlenLive, h.b2bIdle⟩
    | sha => exact ⟨h.sha, h.shaIdle⟩
    | hmac => exact ⟨⟨h.hmacInner, h.kblock⟩, h.hmacIdle⟩
  · rintro ⟨hib, hob, hres, hlive, hctx⟩
    obtain ⟨hpoly, hpolyIdle⟩ := hctx .poly
    obtain ⟨hb2b, hb2bLive, hb2bIdle⟩ := hctx .b2b
    obtain ⟨hsha, hshaIdle⟩ := hctx .sha
    obtain ⟨hhmac, hhmacIdle⟩ := hctx .hmac
    exact {
      ib := hib, ob := hob, status := hres.status, rlen := hres.rlen, rlenFail := hres.rlenFail, live := hlive
      polyH := hpoly.h, polyR := hpoly.r, polyBuf := hpoly.buf, b2bBuf := hb2b.buf, b2bOutlen := hb2b.outlen
      b2bOutlenLive := hb2bLive, sha := hsha, hmacInner := hhmac.inner, kblock := hhmac.kblock
      polyIdle := hpolyIdle, b2bIdle := hb2bIdle, shaIdle := hshaIdle, hmacIdle := hhmacIdle }

/-! ## The contexts' ranges: their zeros, a fresh start, and more bytes -/

theorem polyOk_zero : PolyCtx.zero.Ok := ⟨by decide, by decide, by decide⟩

theorem b2bOk_zero : B2bCtx.zero.Ok := ⟨by decide, by decide⟩

theorem shaOk_zero : ShaCtx.zero.Ok := ⟨by decide, by decide⟩

theorem hmacOk_zero : HmacCtx.zero.Ok := ⟨shaOk_zero, List.length_replicate⟩

theorem polyOk_init (key : Bytes) : (polyInit key).Ok where
  h := (by decide : 0 < p1305)
  r := by rw [polyInit, BitVec.and_assoc, BitVec.and_self]
  buf := Nat.zero_le _

theorem foldl_polyAccum_lt (r : W128) (bs : List Bytes) {h : Nat} (hh : h < p1305) :
    bs.foldl (polyAccum r) h < p1305 := by
  induction bs generalizing h with
  | nil => exact hh
  | cons b bs ih => exact ih (Nat.mod_lt _ (by decide))

theorem polyOk_update {c : PolyCtx} (hc : c.Ok) (m : Bytes) : (polyUpdate c m).Ok := by
  rw [polyUpdate_eq (Nat.lt_succ_of_le hc.buf)]
  exact ⟨foldl_polyAccum_lt _ _ hc.h, hc.r, by
    rw [polyAfter, rest_length]
    exact Nat.le_of_lt_succ (Nat.mod_lt _ (by decide))⟩

theorem b2bOk_init {outlen : Nat} {key : Bytes} (hout : outlen ≤ 64) (hkey : key.length ≤ 64) :
    (b2Init outlen key).Ok where
  buf := by
    rw [b2Init]
    split
    · exact (padTo_length 128 key (by omega)).le
    · exact Nat.zero_le _
  outlen := hout

theorem b2bOk_update {c : B2bCtx} (hc : c.Ok) (m : Bytes) : (b2Update c m).Ok := by
  rw [b2Update_eq hc.buf]
  refine ⟨?_, hc.outlen⟩
  rw [b2After, List.length_drop, b2Followed]
  omega

theorem b2Update_outlen {c : B2bCtx} (hc : c.Ok) (m : Bytes) : (b2Update c m).outlen = c.outlen := by
  rw [b2Update_eq hc.buf, b2After]

theorem shaOk_fresh : shaFresh.Ok := ⟨by decide, by decide⟩

/-- The bit count grows with the bytes that wait, mod 1024 (R183, R188). -/
theorem shaOk_absorb {c : ShaCtx} (hc : c.Ok) (m : Bytes) : (shaAbsorb c m).Ok := by
  rw [shaAbsorb_eq (Nat.lt_succ_of_le hc.buf)]
  refine ⟨shaAfter_buf_length_le c m, ?_⟩
  have hbits := hc.nbits
  rw [shaAfter, rest_length, List.length_append, BitVec.toNat_add, BitVec.toNat_ofNat]
  omega

theorem hmacOk_start (key : Bytes) : (hmacStart key).Ok :=
  ⟨shaOk_absorb shaOk_fresh _, hmacKeyBlock_length key⟩

/-! ## LIVE (R29) -/

theorem live_setLive_lt (c : Stream) {s : State} (h : s.live.toNat < 16) : (setLive c s).live.toNat < 16 := by
  have hbit : (1#32 <<< liveBit c).toNat < 2 ^ 4 := by cases c <;> decide
  rw [setLive_live, BitVec.toNat_or]
  exact Nat.or_lt_two_pow h hbit

theorem live_clearLive_lt (c : Stream) {s : State} (h : s.live.toNat < 16) : (clearLive c s).live.toNat < 16 := by
  rw [clearLive_live, BitVec.toNat_and]
  exact Nat.and_le_left.trans_lt h

theorem isLive_setLive_self (c : Stream) (s : State) : isLive c (setLive c s) = true := by
  rw [isLive_setLive]
  simp

theorem live_exec_lt {i : Instr} {s t : State} (hw : ∀ mask, i ≠ .wipe mask) (hs : s.live.toNat < 16)
    (h : exec i s = .next t) : t.live.toNat < 16 := by
  cases hu : unitOf i with
  | none => rwa [exec_live_of_no_unit hw hu h]
  | some c =>
    obtain hkeep | hset | hclear := exec_live_of_unit hu h
    · rwa [hkeep]
    · rw [hset]
      exact live_setLive_lt c hs
    · rw [hclear]
      exact live_clearLive_lt c hs

/-! ## A command keeps its own unit's context good (R141 to R143, R164 to R166, R184 to R186, R190 to R192) -/

variable {i : Instr} {s t : State}

theorem inRange_whenLive_next {ok : Bool} {c : Stream} {body : Result}
    (h : inRange ok s (whenLive c s body) = .next t) :
    isLive c s = true ∧ body = .next t ∨ ∃ code, t = raise code s := by
  obtain ⟨-, h⟩ | ⟨-, rfl⟩ := inRange_next h
  · obtain hbody | ⟨-, rfl⟩ := whenLive_next h
    · exact .inl hbody
    · exact .inr ⟨_, rfl⟩
  · exact .inr ⟨_, rfl⟩

theorem contextOk_raise {c : Stream} (code : Code) (h : ContextOk c s) : ContextOk c (raise code s) := by
  cases c <;> exact h

theorem polyOk_exec (hs : ContextOk .poly s) (hu : unitOf i = some .poly) (h : exec i s = .next t) :
    ContextOk .poly t := by
  obtain ⟨hok, hidle⟩ := hs
  cases i with
  | p1305Init =>
    cases h
    exact ⟨polyOk_init _, fun hno => nomatch (isLive_setLive_self .poly s).symm.trans hno⟩
  | p1305Update len =>
    obtain ⟨hlive, hbody⟩ | ⟨code, rfl⟩ := inRange_whenLive_next h
    · cases hbody
      exact ⟨polyOk_update hok _, fun hno => nomatch hlive.symm.trans hno⟩
    · exact contextOk_raise code ⟨hok, hidle⟩
  | p1305Final =>
    obtain ⟨-, hbody⟩ | ⟨-, rfl⟩ := whenLive_next h
    · cases hbody
      exact ⟨polyOk_zero, fun _ => rfl⟩
    · exact contextOk_raise _ ⟨hok, hidle⟩
  | _ => cases hu

theorem b2bOk_exec (hs : ContextOk .b2b s) (hu : unitOf i = some .b2b) (h : exec i s = .next t) : ContextOk .b2b t := by
  obtain ⟨hok, hout, hidle⟩ := hs
  cases i with
  | b2bInit outlen len =>
    obtain ⟨hrange, hbody⟩ | ⟨-, rfl⟩ := inRange_next h
    · obtain ⟨hmin, hmax, hlen⟩ := b2bParamsOk_iff.1 hrange
      have hkey : (ibData s len).length ≤ 64 := (memReadBytes_length _ _ _).trans_le hlen
      cases hbody
      exact ⟨b2bOk_init hmax hkey, fun _ => hmin, fun hno => nomatch (isLive_setLive_self .b2b s).symm.trans hno⟩
    · exact contextOk_raise (c := .b2b) _ ⟨hok, hout, hidle⟩
  | b2bUpdate len =>
    obtain ⟨hlive, hbody⟩ | ⟨code, rfl⟩ := inRange_whenLive_next h
    · cases hbody
      exact ⟨b2bOk_update hok _, fun _ => (hout hlive).trans_eq (b2Update_outlen hok _).symm,
        fun hno => nomatch hlive.symm.trans hno⟩
    · exact contextOk_raise (c := .b2b) code ⟨hok, hout, hidle⟩
  | b2bFinal =>
    obtain ⟨-, hbody⟩ | ⟨-, rfl⟩ := whenLive_next h
    · cases hbody
      refine ⟨b2bOk_zero, fun hyes => ?_, fun _ => rfl⟩
      have hno : isLive .b2b (endB2b s) = false := by
        rw [endB2b, isLive_clearLive]
        rfl
      exact nomatch hno.symm.trans hyes
    · exact contextOk_raise (c := .b2b) _ ⟨hok, hout, hidle⟩
  | _ => cases hu

theorem shaOk_exec (hs : ContextOk .sha s) (hu : unitOf i = some .sha) (h : exec i s = .next t) : ContextOk .sha t := by
  obtain ⟨hok, hidle⟩ := hs
  cases i with
  | s512Init =>
    cases h
    exact ⟨shaOk_fresh, fun hno => nomatch (isLive_setLive_self .sha s).symm.trans hno⟩
  | s512Update len =>
    obtain ⟨hlive, hbody⟩ | ⟨code, rfl⟩ := inRange_whenLive_next h
    · cases hbody
      exact ⟨shaOk_absorb hok _, fun hno => nomatch hlive.symm.trans hno⟩
    · exact contextOk_raise code ⟨hok, hidle⟩
  | s512Final =>
    obtain ⟨-, hbody⟩ | ⟨-, rfl⟩ := whenLive_next h
    · cases hbody
      exact ⟨shaOk_zero, fun _ => rfl⟩
    · exact contextOk_raise _ ⟨hok, hidle⟩
  | _ => cases hu

theorem hmacOk_exec (hs : ContextOk .hmac s) (hu : unitOf i = some .hmac) (h : exec i s = .next t) :
    ContextOk .hmac t := by
  obtain ⟨hok, hidle⟩ := hs
  cases i with
  | hmacInit len =>
    obtain ⟨-, hbody⟩ | ⟨-, rfl⟩ := inRange_next h
    · cases hbody
      exact ⟨hmacOk_start _, fun hno => nomatch (isLive_setLive_self .hmac s).symm.trans hno⟩
    · exact contextOk_raise (c := .hmac) _ ⟨hok, hidle⟩
  | hmacUpdate len =>
    obtain ⟨hlive, hbody⟩ | ⟨code, rfl⟩ := inRange_whenLive_next h
    · cases hbody
      exact ⟨⟨shaOk_absorb hok.inner _, hok.kblock⟩, fun hno => nomatch hlive.symm.trans hno⟩
    · exact contextOk_raise code ⟨hok, hidle⟩
  | hmacFinal =>
    obtain ⟨-, hbody⟩ | ⟨-, rfl⟩ := whenLive_next h
    · cases hbody
      exact ⟨hmacOk_zero, fun _ => rfl⟩
    · exact contextOk_raise _ ⟨hok, hidle⟩
  | _ => cases hu

/-! ## Every command keeps every context good -/

/-- A context that is not the unit's is not written (R30). -/
theorem contextOk_exec_of_other (hw : ∀ mask, i ≠ .wipe mask) {c : Stream} (hs : ContextOk c s) (hu : unitOf i ≠ some c)
    (h : exec i s = .next t) : ContextOk c t := by
  cases c with
  | poly =>
    obtain ⟨hctx, hlive, -⟩ := exec_leaves_slot polySlot hw hu h
    exact (congrArg₂ (fun (x : PolyCtx) l => x.Ok ∧ (l = false → x = .zero)) hctx hlive).mpr hs
  | b2b =>
    obtain ⟨hctx, hlive, -⟩ := exec_leaves_slot b2bSlot hw hu h
    exact (congrArg₂ (fun (x : B2bCtx) l => x.Ok ∧ (l = true → 1 ≤ x.outlen) ∧ (l = false → x = .zero)) hctx hlive).mpr hs
  | sha =>
    obtain ⟨hctx, hlive, -⟩ := exec_leaves_slot shaSlot hw hu h
    exact (congrArg₂ (fun (x : ShaCtx) l => x.Ok ∧ (l = false → x = .zero)) hctx hlive).mpr hs
  | hmac =>
    obtain ⟨hctx, hlive, -⟩ := exec_leaves_slot hmacSlot hw hu h
    exact (congrArg₂ (fun (x : HmacCtx) l => x.Ok ∧ (l = false → x = .zero)) hctx hlive).mpr hs

theorem contextOk_exec (hw : ∀ mask, i ≠ .wipe mask) {c : Stream} (hs : ContextOk c s) (h : exec i s = .next t) :
    ContextOk c t := by
  by_cases hu : unitOf i = some c
  · cases c with
    | poly => exact polyOk_exec hs hu h
    | b2b => exact b2bOk_exec hs hu h
    | sha => exact shaOk_exec hs hu h
    | hmac => exact hmacOk_exec hs hu h
  · exact contextOk_exec_of_other hw hs hu h

/-! ## WIPE (R320) -/

theorem isLive_wipeSelected (mask : BitVec 6) (c : Stream) (s : State) :
    isLive c (wipeSelected mask s) = (isLive c s && !mask.getLsbD (liveBit c + 2)) := by
  rw [isLive, wipeSelected_live_getLsbD, ← isLive]
  cases c <;> rfl

/-- A context that the mask selects is zero and not live, the others stay. -/
theorem contextOk_wipeSelected (mask : BitVec 6) {c : Stream} (hs : ContextOk c s) :
    ContextOk c (wipeSelected mask s) := by
  have hlive := isLive_wipeSelected mask c s
  cases c with
  | poly =>
    rw [ContextOk, hlive, wipeSelected_poly, liveBit]
    cases mask.getLsbD 2 with
    | false => simpa [ContextOk] using hs
    | true => exact ⟨polyOk_zero, fun _ => rfl⟩
  | b2b =>
    rw [ContextOk, hlive, wipeSelected_b2b, liveBit]
    cases mask.getLsbD 3 with
    | false => simpa [ContextOk] using hs
    | true => simpa using b2bOk_zero
  | sha =>
    rw [ContextOk, hlive, wipeSelected_sha, liveBit]
    cases mask.getLsbD 4 with
    | false => simpa [ContextOk] using hs
    | true => exact ⟨shaOk_zero, fun _ => rfl⟩
  | hmac =>
    rw [ContextOk, hlive, wipeSelected_hmac, liveBit]
    cases mask.getLsbD 5 with
    | false => simpa [ContextOk] using hs
    | true => exact ⟨hmacOk_zero, fun _ => rfl⟩

theorem live_wipeSelected_lt (mask : BitVec 6) (hs : s.live.toNat < 16) : (wipeSelected mask s).live.toNat < 16 := by
  have hbits : ∀ j, 4 ≤ j → s.live.toNat.testBit j = false := fun j hj =>
    Nat.testBit_lt_two_pow (lt_of_lt_of_le hs (Nat.pow_le_pow_right (n := 2) (by decide) hj))
  refine Nat.lt_pow_two_of_testBit (n := 4) _ fun j hj => ?_
  have hbit := wipeSelected_live_getLsbD mask s j
  rw [BitVec.getLsbD, BitVec.getLsbD, hbits j hj] at hbit
  exact hbit.trans (Bool.false_and _)

/-! ## Steps -/

theorem resultOk_raise (c : Code) (s : State) : ResultOk (raise c s) where
  status := by
    rw [raise_status]
    cases c <;> decide
  rlen := Nat.zero_le _
  rlenFail _ := rfl

theorem resultOk_done {v : Bytes} (hlen : v.length ≤ Config.obBytes) (rf : Bool) (u : State) : ResultOk (done v rf u) where
  status := by
    rw [done_status]
    cases rf <;> decide
  rlen := (toNat_rlen_done rf u hlen).trans_le hlen
  rlenFail hfail := by
    rw [done_status, statusCode_statusWord] at hfail
    exact absurd rfl hfail

theorem eq_done_of_exec_wipe {mask : BitVec 6} (h : exec (.wipe mask) s = .next t) : t = done [] false (wipeSelected mask s) :=
  finish_next.1 h

theorem inv_exec (hs : s.Inv) (h : exec i s = .next t) : t.Inv := by
  obtain ⟨hib, hob, -, hlive, hctx⟩ := (inv_iff s).1 hs
  have hrest : t.live.toNat < 16 ∧ ∀ c, ContextOk c t := by
    by_cases hw : ∀ mask, i ≠ .wipe mask
    · exact ⟨live_exec_lt hw hlive h, fun c => contextOk_exec hw (hctx c) h⟩
    · push Not at hw
      obtain ⟨mask, rfl⟩ := hw
      rw [eq_done_of_exec_wipe h]
      refine ⟨live_wipeSelected_lt mask hlive, fun c => ?_⟩
      have hc := contextOk_wipeSelected mask (hctx c)
      cases c <;> exact hc
  refine (inv_iff t).2 ?_
  cases outcomes_of_exec h with
  | failed c hc => exact ⟨hib, hob, resultOk_raise c s, hrest⟩
  | @delivered v rf u hp =>
    have huib : Memory.wf Config.ibBytes u.ib := by
      obtain hkeep | ⟨hnil, -⟩ := hp.ib
      · rwa [hkeep]
      · rw [hnil]
        exact nil_wf _
    have huob : Memory.wf Config.obBytes u.ob := by
      obtain hkeep | ⟨hnil, -⟩ := hp.ob
      · rwa [hkeep]
      · rw [hnil]
        exact nil_wf _
    exact ⟨huib, memWriteBytes_wf huob 0 v ((Nat.zero_add _).trans_le hp.length), resultOk_done hp.length rf u, hrest⟩

theorem inv_issue {w : W32} (hs : s.Inv) (h : issue w s = .next t) : t.Inv := by
  obtain ⟨_, -, hillegal⟩ | ⟨i, -, hexec⟩ := issue_cases w s
  · obtain ⟨hib, hob, -, hlive, hctx⟩ := (inv_iff s).1 hs
    cases hillegal.symm.trans h
    exact (inv_iff _).2 ⟨hib, hob, resultOk_raise _ s, hlive, fun c => contextOk_raise _ (hctx c)⟩
  · exact inv_exec hs (hexec.symm.trans h)

/-- The invariant says nothing of the fields that are the model's own. -/
theorem inv_withHost (hs : s.Inv) (pending : List HostMove) (readData : Bytes) (draws : Nat) :
    State.Inv { s with pending := pending, readData := readData, draws := draws } := { hs with }

theorem inv_withIb (hs : s.Inv) {m : Memory} (hm : Memory.wf Config.ibBytes m) : State.Inv { s with ib := m } :=
  { hs with ib := hm }

theorem inv_busWrite {off : Nat} {data : Bytes} (hs : s.Inv) (h : busWrite off data s = .next t) : t.Inv := by
  obtain ⟨-, -, hcmd⟩ | ⟨hlo, hhi, rfl⟩ | rfl := busWrite_next h
  · exact inv_issue hs hcmd
  · have hin : off - 0x1000 + data.length ≤ Config.ibBytes := by
      rw [Config.ibBytes]
      omega
    exact inv_withIb hs (memWriteBytes_wf hs.ib _ data hin)
  · exact hs

theorem inv_reset : State.reset.Inv := by
  refine (inv_iff _).2 ⟨nil_wf _, nil_wf _, ⟨by decide, Nat.zero_le _, fun _ => rfl⟩, by decide, fun c => ?_⟩
  cases c with
  | poly => exact ⟨polyOk_zero, fun _ => rfl⟩
  | b2b => exact ⟨b2bOk_zero, nofun, fun _ => rfl⟩
  | sha => exact ⟨shaOk_zero, fun _ => rfl⟩
  | hmac => exact ⟨hmacOk_zero, fun _ => rfl⟩

theorem inv_serve {m : HostMove} (hs : s.Inv) (h : serve m s = .next t) : t.Inv := by
  cases m with
  | write off data => exact inv_busWrite hs h
  | read off n =>
    obtain ⟨bytes, rfl⟩ := busRead_next h
    exact inv_withHost hs _ _ _
  | reset =>
    cases h
    exact inv_withHost inv_reset _ _ _

end Sys2Proof.Machine

namespace Sys2Proof.Proofs

open Sys2Proof.Machine

/-- Settles O3. -/
theorem resetStateIsGood : Obligations.ResetStateIsGood := inv_reset

/-- Settles O4: an idle block keeps its state, and each kind of host move keeps every part of the invariant. -/
theorem everyStepKeepsGoodStates : Obligations.EveryStepKeepsGoodStates := by
  intro s t hs h
  obtain ⟨-, rfl⟩ | ⟨m, rest, -, hserve⟩ := step_next h
  · exact hs
  · exact inv_serve (inv_withHost hs rest _ _) hserve

end Sys2Proof.Proofs
end

section
/-! The host's moves (20_memory.md): the ranges of R66, what a read answers and a write leaves, and that a step takes its move
from the list and nothing else of it. -/

namespace Sys2Proof.Machine

open Sys2Proof.Claims

variable {s t : State} {off a n : Nat} {data : Bytes}

/-! ## The ranges (R66) -/

theorem regionOf_ob (hlo : 0x2000 ≤ off) (hhi : off < 0x2400) : regionOf off = .ob := by
  rw [regionOf, if_neg (by omega), if_neg (by omega), if_pos hhi]

theorem regionOf_reserved (hlo : 0x2400 ≤ off) (hhi : off < 0x3000) : regionOf off = .reserved := by
  rw [regionOf, Config.windowBytes, if_neg (by omega), if_neg (by omega), if_neg (by omega), if_pos hhi]

theorem regionOf_outside (hlo : 0x3000 ≤ off) : regionOf off = .outside := by
  rw [regionOf, Config.windowBytes, if_neg (by omega), if_neg (by omega), if_neg (by omega), if_neg (by omega)]

/-! ## Writes, range by range (R62, R65) -/

theorem busWrite_ib_eq (hlo : 0x1000 ≤ off) (hhi : off < 0x2000) (hlen : 1 ≤ data.length) (s : State) :
    busWrite off data s =
      if off + data.length ≤ 0x2000 then .next { s with ib := memWriteBytes s.ib (off - 0x1000) data }
      else .refused .pastBufferEnd := by
  rw [busWrite, if_neg (by omega : ¬data.length = 0), regionOf_ib hlo hhi]

theorem busWrite_ob_eq (hlo : 0x2000 ≤ off) (hhi : off < 0x2400) (hlen : 1 ≤ data.length) (s : State) :
    busWrite off data s = if off + data.length ≤ 0x2400 then .next s else .refused .pastBufferEnd := by
  rw [busWrite, if_neg (by omega : ¬data.length = 0), regionOf_ob hlo hhi]

theorem busWrite_reserved_eq (hlo : 0x2400 ≤ off) (hhi : off < 0x3000) (hlen : 1 ≤ data.length) (s : State) :
    busWrite off data s = if off + data.length ≤ 0x3000 then .next s else .refused .outsideWindow := by
  rw [busWrite, if_neg (by omega : ¬data.length = 0), regionOf_reserved hlo hhi]
  rfl

theorem busWrite_outside (hlo : 0x3000 ≤ off) (hlen : 1 ≤ data.length) (s : State) :
    busWrite off data s = .refused .outsideWindow := by
  rw [busWrite, if_neg (by omega : ¬data.length = 0), regionOf_outside hlo]

/-- A register other than CMD ignores a write (R65). -/
theorem busWrite_register_ignored (hlo : 4 ≤ off) (hhi : off < 0x1000) (hword : off % 4 = 0 ∧ data.length = 4)
    (s : State) : busWrite off data s = .next s := by
  rw [busWrite_registers hhi (by omega), writeRegister, if_pos (wordAccess_iff.2 hword), if_neg (by omega)]

/-- A 4-byte write to CMD executes the word (R90, R95). -/
theorem busWrite_cmd (hlen : data.length = 4) (s : State) : busWrite 0 data s = issue (BitVec.ofNat 32 (le data)) s := by
  rw [busWrite_registers (by decide) (by omega), writeRegister, if_pos (wordAccess_iff.2 ⟨rfl, hlen⟩), if_pos rfl, le32]

/-! ## Reads, range by range (R61, R64, R65) -/

theorem busRead_ib_eq (hlo : 0x1000 ≤ off) (hhi : off < 0x2000) (n : Nat) (s : State) :
    busRead off n s =
      if off + n ≤ 0x2000 then answer (memReadBytes s.ib (off - 0x1000) n) s else .refused .pastBufferEnd := by
  rw [busRead, regionOf_ib hlo hhi]

theorem busRead_ob_eq (hlo : 0x2000 ≤ off) (hhi : off < 0x2400) (n : Nat) (s : State) :
    busRead off n s =
      if off + n ≤ 0x2400 then answer (memReadBytes s.ob (off - 0x2000) n) s else .refused .pastBufferEnd := by
  rw [busRead, regionOf_ob hlo hhi]

theorem busRead_reserved_eq (hlo : 0x2400 ≤ off) (hhi : off < 0x3000) (n : Nat) (s : State) :
    busRead off n s = if off + n ≤ 0x3000 then answer (zeros n) s else .refused .outsideWindow := by
  rw [busRead, regionOf_reserved hlo hhi]
  rfl

theorem busRead_outside (hlo : 0x3000 ≤ off) (n : Nat) (s : State) : busRead off n s = .refused .outsideWindow := by
  rw [busRead, regionOf_outside hlo]

theorem busRead_register (hhi : off < 0x1000) (halign : off % 4 = 0) (s : State) :
    busRead off 4 s = answer (bytes32 (registerValue s off)) s := by
  rw [busRead_registers hhi, if_pos (wordAccess_iff.2 ⟨halign, rfl⟩)]

/-- Past the last register everything reads 0 (R66). -/
theorem registerValue_reserved (hlo : 0x18 ≤ off) (s : State) : registerValue s off = 0#32 := by
  rw [registerValue, if_neg (by omega), if_neg (by omega), if_neg (by omega), if_neg (by omega), if_neg (by omega)]

/-- What a read answers depends neither on the moves to come nor on the bytes of the read before (R64). -/
theorem busRead_withHost (off n : Nat) (s : State) (pending : List HostMove) (readData : Bytes) :
    busRead off n { s with pending := pending, readData := readData } =
      mapNext (fun t => { t with pending := pending }) (busRead off n s) := by
  have hregister : registerValue { s with pending := pending, readData := readData } off = registerValue s off := rfl
  unfold busRead
  rw [hregister]
  cases regionOf off with
  | registers | ib | ob | reserved =>
    simp only [apply_ite (mapNext _)]
    rfl
  | outside => rfl

/-! ## A step serves one move (R73) -/

theorem serve_pending {m : HostMove} (h : serve m s = .next t) : t.pending = s.pending := by
  cases m with
  | write off data =>
    obtain ⟨-, -, hcmd⟩ | ⟨-, -, rfl⟩ | rfl := busWrite_next h
    · obtain ⟨_, -, hillegal⟩ | ⟨i, -, hexec⟩ := issue_cases (le32 data) s
      · cases hillegal.symm.trans hcmd
        rfl
      · exact exec_pending (hexec.symm.trans hcmd)
    · rfl
    · rfl
  | read off n =>
    obtain ⟨bytes, rfl⟩ := busRead_next h
    rfl
  | reset =>
    cases h
    rfl

end Sys2Proof.Machine

namespace Sys2Proof.Proofs

open Sys2Proof.Machine Sys2Proof.Claims

/-- Settles O2: a reset move leaves the fields of the reset state. -/
theorem resetMoveLeavesEveryPartZero : Obligations.ResetMoveLeavesEveryPartZero := by
  intro s more hp
  refine ⟨applyReset { s with pending := more }, ?_, resetLeavesEveryPartZero, rfl⟩
  rw [step_of_pending hp, serve]

/-- Settles O5. -/
theorem commandWriteRunsTheDecodedCommand : Obligations.CommandWriteRunsTheDecodedCommand := by
  intro s data more hp hlen
  rw [step_of_pending hp, serve, busWrite_cmd hlen]
  refine ⟨fun i hdec => ?_, fun e hdec => issue_of_decode_error hdec _⟩
  rw [issue, hdec]

/-- Settles O6. -/
theorem hostMovesAreServedOneByOne : Obligations.HostMovesAreServedOneByOne := by
  refine ⟨fun s hp => ?_, fun s t m more hp h => ?_⟩
  · rw [step, serveNext, hp]
  · rw [step_of_pending hp] at h
    exact serve_pending h

/-- Settles O8: a read answers from a part of the state that it leaves, so the same read answers the same again. -/
theorem readsReturnTheStoredBytes : Obligations.ReadsReturnTheStoredBytes := by
  refine ⟨fun s a n more hin hp hn => ?ib, fun s a n more hin hp hn => ?ob, fun s off v more hv hp => ?register,
    fun s t off n more hp h => ?frame⟩
  case ib =>
    rw [step_of_pending hp, serve, busRead_ib_eq (by omega) (by omega), if_pos (by omega), Nat.add_sub_cancel_left]
    rfl
  case ob =>
    rw [step_of_pending hp, serve, busRead_ob_eq (by omega) (by omega), if_pos (by omega), Nat.add_sub_cancel_left]
    rfl
  case register =>
    simp only [List.mem_cons, Prod.mk.injEq, List.not_mem_nil, or_false] at hv
    obtain ⟨rfl, rfl⟩ | ⟨rfl, rfl⟩ | ⟨rfl, rfl⟩ | ⟨rfl, rfl⟩ | ⟨rfl, rfl⟩ | ⟨rfl, rfl⟩ := hv
    all_goals
      rw [step_of_pending hp, serve, busRead_register (by decide) rfl]
      rfl
  case frame =>
    rw [step_of_pending hp] at h
    obtain ⟨bytes, rfl⟩ := busRead_next h
    refine ⟨rfl, fun u hu => ?_⟩
    have hagain := busRead_withHost off n { s with pending := more } more bytes
    rw [show busRead off n { s with pending := more } = _ from h, mapNext_next] at hagain
    rw [step_of_pending rfl, serve] at hu
    exact congrArg State.readData (Host.Outcome.next.inj (hu.symm.trans hagain))

/-- Settles O9, range by range. -/
theorem ignoredAndRefusedAccesses : Obligations.IgnoredAndRefusedAccesses := by
  refine ⟨fun s off data more hp hlen hoff => ?write, fun s off n more hp hoff => ?read,
    fun s off data n more hlen hn hp => ⟨fun hoff => ?pastEnd, fun hoff => ?outside⟩⟩
  case write =>
    rw [step_of_pending hp, serve]
    obtain ⟨hlo, hhi⟩ | ⟨hlo, hhi⟩ | ⟨hlo, hhi, hword⟩ := hoff
    · rw [busWrite_ob_eq hlo (by omega) hlen, if_pos hhi]
    · rw [busWrite_reserved_eq hlo (by omega) hlen, if_pos hhi]
    · exact busWrite_register_ignored hlo hhi hword _
  case read =>
    rw [step_of_pending hp, serve]
    obtain ⟨hlo, hhi, hend⟩ | ⟨hlo, hhi, halign, rfl⟩ := hoff
    · rw [busRead_reserved_eq hlo hhi, if_pos hend]
      rfl
    · rw [busRead_register hhi halign, registerValue_reserved hlo]
      rfl
  case pastEnd =>
    subst hn
    obtain hp | hp := hp
    · rw [step_of_pending hp, serve]
      obtain ⟨hlo, hhi, hend⟩ | ⟨hlo, hhi, hend⟩ := hoff
      · rw [busWrite_ib_eq hlo hhi hlen, if_neg (by omega)]
      · rw [busWrite_ob_eq hlo hhi hlen, if_neg (by omega)]
    · rw [step_of_pending hp, serve]
      obtain ⟨hlo, hhi, hend⟩ | ⟨hlo, hhi, hend⟩ := hoff
      · rw [busRead_ib_eq hlo hhi, if_neg (by omega)]
      · rw [busRead_ob_eq hlo hhi, if_neg (by omega)]
  case outside =>
    subst hn
    by_cases hout : 0x3000 ≤ off
    · obtain hp | hp := hp
      · rw [step_of_pending hp, serve, busWrite_outside hout hlen]
      · rw [step_of_pending hp, serve, busRead_outside hout]
    · obtain hp | hp := hp
      · rw [step_of_pending hp, serve, busWrite_reserved_eq (by omega) (by omega) hlen, if_neg (by omega)]
      · rw [step_of_pending hp, serve, busRead_reserved_eq (by omega) (by omega), if_neg (by omega)]

/-- Settles O17. -/
theorem everyCommandCompletes : Obligations.EveryCommandCompletes := ⟨issue_answers, exec_answers⟩

end Sys2Proof.Proofs
end

section
/-! Encoding and decoding (30_encoding.md sections 1 to 3): how the words of each command's OP are read, and that this reading and
the command's own fields are each other's inverse. -/

namespace Sys2Proof.Machine

open Sys2Proof.Claims

/-! ## How the words of one OP are read (R92 to R94) -/

/-- WIPE: MASK is FLAGS[5:0] (R94). -/
def formWipe (flags : BitVec 8) (len : BitVec 16) : Option Instr :=
  if flags.toNat < 64 ∧ len.toNat = 0 then some (.wipe (BitVec.ofNat 6 flags.toNat)) else none

/-- CC20_XOR: CONV is FLAGS[1:0], KS is FLAGS[2] (R94). -/
def formCc20Xor (flags : BitVec 8) (len : BitVec 16) : Option Instr :=
  if flags.toNat < 8 ∧ len.toNat ≤ 1024 then
    (convOf (flags.extractLsb' 0 2)).map fun c => .cc20Xor c (flags.toNat / 4 == 1) len
  else none

/-- B2B_INIT: OUTLEN is FLAGS[6:0] (R94). -/
def formB2bInit (flags : BitVec 8) (len : BitVec 16) : Option Instr :=
  if 1 ≤ flags.toNat ∧ flags.toNat ≤ 64 ∧ len.toNat ≤ 64 then some (.b2bInit (BitVec.ofNat 7 flags.toNat) len) else none

/-- X_LADDER: TRIM is FLAGS[0], W is FLAGS[1] (R94). -/
def formXLadder (flags : BitVec 8) (len : BitVec 16) : Option Instr :=
  if flags.toNat < 4 ∧ len.toNat = 0 then some (.xLadder (flags.toNat % 2 == 1) (flags.toNat / 2 == 1)) else none

/-- The command that FLAGS and LEN make with the OP of this command; none where they make an illegal word. -/
def formOf : Instr → BitVec 8 → BitVec 16 → Option Instr
  | .wipe _ => formWipe
  | .cc20Xor _ _ _ => formCc20Xor
  | .b2bInit _ _ => formB2bInit
  | .xLadder _ _ => formXLadder
  | .p1305Update _ => formL 4096 .p1305Update
  | .b2bUpdate _ => formL 4096 .b2bUpdate
  | .s512Update _ => formL 4096 .s512Update
  | .hmacInit _ => formL 4096 .hmacInit
  | .hmacUpdate _ => formL 4096 .hmacUpdate
  | .a2Fill _ => formBit .a2Fill
  | .geAdd _ => formBit .geAdd
  | .geSmulVar _ => formBit .geSmulVar
  | .cc20H => formN .cc20H
  | .p1305Init => formN .p1305Init
  | .p1305Final => formN .p1305Final
  | .b2bFinal => formN .b2bFinal
  | .s512Init => formN .s512Init
  | .s512Final => formN .s512Final
  | .hmacFinal => formN .hmacFinal
  | .feInv => formN .feInv
  | .feIsqrt => formN .feIsqrt
  | .mmul => formN .mmul
  | .bred => formN .bred
  | .bmad => formN .bmad
  | .geSmulBase => formN .geSmulBase

/-- The two sub-fields of X_LADDER as the digits of FLAGS. -/
theorem xLadder_flags (flags : BitVec 8) (h : flags.toNat < 4) :
    flags.getLsbD 0 = (flags.toNat % 2 == 1) ∧ flags.getLsbD 1 = (flags.toNat / 2 == 1) := by
  revert flags
  decide

theorem encoding_xLadder : Encoding 0x90#8 formXLadder := by
  refine encoding_of_row rowOf_xLadder fun flags len => ?_
  rw [rowForm_xLadder, formXLadder]
  split
  · next h =>
    obtain ⟨htrim, hw⟩ := xLadder_flags flags h.1
    rw [htrim, hw]
  · rfl

theorem encoding_formOf (i : Instr) : Encoding (opBits i) (formOf i) := by
  cases i with
  | wipe _ => exact encoding_of_row rowOf_wipe fun flags len => (rowForm_wipe flags len).symm
  | cc20Xor _ _ _ => exact encoding_of_row rowOf_cc20Xor fun flags len => (rowForm_cc20Xor flags len).symm
  | b2bInit _ _ => exact encoding_of_row rowOf_b2bInit fun flags len => (rowForm_b2bInit flags len).symm
  | xLadder _ _ => exact encoding_xLadder
  | p1305Update n | b2bUpdate n | s512Update n | hmacInit n | hmacUpdate n =>
    rw [opBits, formOf]
    exact encoding_formL (fun _ => rfl) rfl
  | a2Fill b | geAdd b | geSmulVar b =>
    rw [opBits, formOf]
    exact encoding_formBit (fun _ => rfl) rfl
  | cc20H | p1305Init | p1305Final | b2bFinal | s512Init | s512Final | hmacFinal | feInv | feIsqrt | mmul | bred | bmad
  | geSmulBase => exact encoding_formN rfl rfl

/-- What a word decodes to is what its OP's form makes of its FLAGS and LEN: otherwise it would be ILLEGAL, and no well-formed
command ends with that. -/
theorem form_of_decode {op : BitVec 8} {form : BitVec 8 → BitVec 16 → Option Instr} (henc : Encoding op form)
    {flags : BitVec 8} {len : BitVec 16} {i : Instr} (h : decode (len ++ flags ++ op) = .ok i) :
    form flags len = some i := by
  have hread := henc flags len
  cases hform : form flags len with
  | some j =>
    rw [hform] at hread
    exact congrArg some (Except.ok.inj (hread.symm.trans h))
  | none =>
    rw [hform] at hread
    have hissue : exec i State.reset = .next (failed 0x10#32 State.reset) := by
      rw [← hread State.reset, issue, h]
    cases ends_of_status hissue statusWord_illegal.symm with
    | illegal hwf => exact nomatch (wellFormed_of_decode h).symm.trans hwf

/-! ## From the command to its fields and back -/

theorem toNat_append_ofBool (b : Bool) : (0#7 ++ BitVec.ofBool b).toNat < 2 ∧ ((0#7 ++ BitVec.ofBool b).toNat == 1) = b := by
  revert b
  decide

theorem formBit_self (mk : Bool → Instr) (b : Bool) : formBit mk (0#7 ++ BitVec.ofBool b) 0#16 = some (mk b) := by
  obtain ⟨hlt, heq⟩ := toNat_append_ofBool b
  rw [formBit, if_pos ⟨hlt, rfl⟩, heq]

theorem formL_self (mk : BitVec 16 → Instr) {len : BitVec 16} (h : chunkLenOk len = true) :
    formL 4096 mk 0#8 len = some (mk len) := by
  rw [formL, if_pos ⟨rfl, of_decide_eq_true h⟩]

theorem cc20Xor_flags (conv : Conv) (ks : Bool) :
    (0#5 ++ BitVec.ofBool ks ++ convBits conv).toNat < 8 ∧
      convOf ((0#5 ++ BitVec.ofBool ks ++ convBits conv).extractLsb' 0 2) = some conv ∧
      ((0#5 ++ BitVec.ofBool ks ++ convBits conv).toNat / 4 == 1) = ks := by
  cases conv <;> revert ks <;> decide

theorem xLadder_flagBits (trim w : Bool) :
    (0#6 ++ BitVec.ofBool w ++ BitVec.ofBool trim).toNat < 4 ∧
      ((0#6 ++ BitVec.ofBool w ++ BitVec.ofBool trim).toNat % 2 == 1) = trim ∧
      ((0#6 ++ BitVec.ofBool w ++ BitVec.ofBool trim).toNat / 2 == 1) = w := by
  revert trim w
  decide

theorem toNat_zero_append {n k : Nat} (x : BitVec n) : (0#k ++ x).toNat = x.toNat := by simp

/-- A well-formed command is what its own fields make. -/
theorem formOf_self {i : Instr} (h : i.wellFormed = true) : formOf i (flagBits i) (lenBits i) = some i := by
  cases i with
  | wipe mask =>
    rw [formOf, formWipe, flagBits, toNat_zero_append, if_pos ⟨mask.isLt, rfl⟩, BitVec.ofNat_toNat, BitVec.setWidth_eq]
  | cc20Xor conv ks len =>
    obtain ⟨hlt, hconv, hks⟩ := cc20Xor_flags conv ks
    rw [formOf, formCc20Xor, flagBits, if_pos ⟨hlt, of_decide_eq_true h⟩, hconv, hks]
    rfl
  | b2bInit outlen len =>
    rw [formOf, formB2bInit, flagBits, lenBits, toNat_zero_append, if_pos (b2bParamsOk_iff.1 h), BitVec.ofNat_toNat,
      BitVec.setWidth_eq]
  | xLadder trim w =>
    obtain ⟨hlt, htrim, hw⟩ := xLadder_flagBits trim w
    rw [formOf, formXLadder, flagBits, if_pos ⟨hlt, rfl⟩, htrim, hw]
  | p1305Update _ | b2bUpdate _ | s512Update _ | hmacInit _ | hmacUpdate _ => exact formL_self _ h
  | a2Fill b | geAdd b | geSmulVar b => exact formBit_self _ b
  | cc20H | p1305Init | p1305Final | b2bFinal | s512Init | s512Final | hmacFinal | feInv | feIsqrt | mmul | bred | bmad
  | geSmulBase => rfl

theorem zero_append_ofNat_toNat {k n : Nat} {flags : BitVec (k + n)} (h : flags.toNat < 2 ^ n) :
    0#k ++ BitVec.ofNat n flags.toNat = flags := by
  apply BitVec.eq_of_toNat_eq
  rw [toNat_zero_append, BitVec.toNat_ofNat, Nat.mod_eq_of_lt h]

theorem bit_flags_of_lt_two (flags : BitVec 8) (h : flags.toNat < 2) : 0#7 ++ BitVec.ofBool (flags.toNat == 1) = flags := by
  revert flags
  decide

theorem xLadder_flags_of_lt_four (flags : BitVec 8) (h : flags.toNat < 4) :
    0#6 ++ BitVec.ofBool (flags.toNat / 2 == 1) ++ BitVec.ofBool (flags.toNat % 2 == 1) = flags := by
  revert flags
  decide

theorem cc20Xor_flags_of_lt_eight (flags : BitVec 8) (h : flags.toNat < 8) (conv : Conv)
    (hconv : convOf (flags.extractLsb' 0 2) = some conv) :
    0#5 ++ BitVec.ofBool (flags.toNat / 4 == 1) ++ convBits conv = flags := by
  cases conv <;> revert flags <;> decide

/-- The fields of a word: what the OP's form makes of FLAGS and LEN has this OP, these FLAGS and this LEN. -/
def HasFields (i : Instr) (op flags : BitVec 8) (len : BitVec 16) : Prop :=
  opBits i = op ∧ flagBits i = flags ∧ lenBits i = len

variable {op flags : BitVec 8} {len : BitVec 16} {i j : Instr}

theorem hasFields_of_formN (hj : HasFields j op 0#8 0#16) (h : formN j flags len = some i) : HasFields i op flags len := by
  rw [formN, Option.ite_none_right_eq_some] at h
  obtain ⟨⟨hflags, hlen⟩, ⟨⟩⟩ := h
  rwa [BitVec.eq_of_toNat_eq (y := 0#8) hflags, BitVec.eq_of_toNat_eq (y := 0#16) hlen]

theorem hasFields_of_formL {mk : BitVec 16 → Instr} (hmk : ∀ n, HasFields (mk n) op 0#8 n)
    (h : formL 4096 mk flags len = some i) : HasFields i op flags len := by
  rw [formL, Option.ite_none_right_eq_some] at h
  obtain ⟨⟨hflags, -⟩, ⟨⟩⟩ := h
  rw [BitVec.eq_of_toNat_eq (y := 0#8) hflags]
  exact hmk len

theorem hasFields_of_formBit {mk : Bool → Instr} (hmk : ∀ b, HasFields (mk b) op (0#7 ++ BitVec.ofBool b) 0#16)
    (h : formBit mk flags len = some i) : HasFields i op flags len := by
  rw [formBit, Option.ite_none_right_eq_some] at h
  obtain ⟨⟨hflags, hlen⟩, ⟨⟩⟩ := h
  have hfields := hmk (flags.toNat == 1)
  rwa [bit_flags_of_lt_two flags hflags, ← BitVec.eq_of_toNat_eq (x := len) (y := 0#16) hlen] at hfields

/-- What the form of a command's OP makes of FLAGS and LEN has these fields. -/
theorem hasFields_of_formOf (h : formOf j flags len = some i) : HasFields i (opBits j) flags len := by
  cases j with
  | wipe _ =>
    rw [formOf, formWipe, Option.ite_none_right_eq_some] at h
    obtain ⟨⟨hflags, hlen⟩, ⟨⟩⟩ := h
    exact ⟨rfl, zero_append_ofNat_toNat hflags, (BitVec.eq_of_toNat_eq hlen).symm⟩
  | cc20Xor _ _ _ =>
    rw [formOf, formCc20Xor, Option.ite_none_right_eq_some, Option.map_eq_some_iff] at h
    obtain ⟨⟨hflags, -⟩, conv, hconv, rfl⟩ := h
    exact ⟨rfl, cc20Xor_flags_of_lt_eight flags hflags conv hconv, rfl⟩
  | b2bInit _ _ =>
    rw [formOf, formB2bInit, Option.ite_none_right_eq_some] at h
    obtain ⟨⟨-, hflags, -⟩, ⟨⟩⟩ := h
    exact ⟨rfl, zero_append_ofNat_toNat (hflags.trans_lt (by decide)), rfl⟩
  | xLadder _ _ =>
    rw [formOf, formXLadder, Option.ite_none_right_eq_some] at h
    obtain ⟨⟨hflags, hlen⟩, ⟨⟩⟩ := h
    exact ⟨rfl, xLadder_flags_of_lt_four flags hflags, (BitVec.eq_of_toNat_eq hlen).symm⟩
  | p1305Update n | b2bUpdate n | s512Update n | hmacInit n | hmacUpdate n =>
    rw [formOf] at h
    refine hasFields_of_formL (fun _ => ?_) h
    exact ⟨rfl, rfl, rfl⟩
  | a2Fill b | geAdd b | geSmulVar b =>
    rw [formOf] at h
    refine hasFields_of_formBit (fun _ => ?_) h
    exact ⟨rfl, rfl, rfl⟩
  | cc20H | p1305Init | p1305Final | b2bFinal | s512Init | s512Final | hmacFinal | feInv | feIsqrt | mmul | bred | bmad
  | geSmulBase => exact hasFields_of_formN ⟨rfl, rfl, rfl⟩ h

theorem encode_of_hasFields (h : HasFields i op flags len) : encode i = len ++ flags ++ op := by
  obtain ⟨rfl, rfl, rfl⟩ := h
  rfl

/-- A word that decodes has the OP of a command (R93). -/
theorem exists_opBits_of_decode {w : W32} (h : decode w = .ok i) : ∃ j, opBits j = opOf w := by
  have hop : opOf w ∈ oneOfEach.map opBits := by
    by_contra hno
    rw [decode, rowOf_eq_none_iff.2 hno] at h
    cases h
  obtain ⟨j, -, hj⟩ := List.mem_map.1 hop
  exact ⟨j, hj⟩

theorem encode_of_decode {w : W32} (h : decode w = .ok i) : encode i = w := by
  obtain ⟨j, hj⟩ := exists_opBits_of_decode h
  rw [← append_fields w, ← hj] at h ⊢
  exact encode_of_hasFields (hasFields_of_formOf (form_of_decode (encoding_formOf j) h))

theorem decode_encode (h : i.wellFormed = true) : decode (encode i) = .ok i := by
  have hread := encoding_formOf i (flagBits i) (lenBits i)
  rwa [formOf_self h] at hread

end Sys2Proof.Machine

namespace Sys2Proof.Proofs

open Sys2Proof.Machine

/-- Settles O11, format by format. -/
theorem decodeOfEncodeIsTheCommand : Obligations.DecodeOfEncodeIsTheCommand := fun _ => decode_encode

/-- Settles O12: the command that a word's OP, FLAGS and LEN make has these fields itself. -/
theorem encodeOfDecodeIsTheWord : Obligations.EncodeOfDecodeIsTheWord :=
  fun _ _ h => ⟨encode_of_decode h, wellFormed_of_decode h⟩

/-- Settles O13, each legal word as the word of its command. -/
theorem writtenOutWordsDecode : Obligations.WrittenOutWordsDecode :=
  ⟨decode_encode (i := .cc20Xor .ietf false 114#16) rfl, decode_encode (i := .b2bInit 64#7 0#16) rfl,
    decode_encode (i := .b2bInit 32#7 16#16) rfl, decode_encode (i := .s512Update 3#16) rfl,
    decode_encode (i := .p1305Update 4096#16) rfl, decode_encode (i := .xLadder true false) rfl,
    decode_encode (i := .geSmulVar true) rfl, decode_encode (i := .wipe 0x3F#6) rfl,
    decode_encode (i := .a2Fill true) rfl, decode_encode (i := .geAdd true) rfl, rfl, rfl, rfl, rfl⟩

end Sys2Proof.Proofs
end

section
/-! Operands (R10, R23): a command but WIPE answers the same for two contents of IB that agree on the offsets its rule names. -/

namespace Sys2Proof.Machine

open Sys2Proof.Claims

/-! ## The state with another content of IB -/

/-- The state with the content `m` in IB. -/
def withIb (m : Memory) (s : State) : State := { s with ib := m }

/-- Two contents of IB agree on the offsets that a command's rule names. -/
def AgreeOnOperands (i : Instr) (m : Memory) (s : State) : Prop := ∀ a, readsIb i a → memRead m a = memRead s.ib a

variable {i : Instr} {m : Memory} {s : State}

/-! As with `ContextMap.apply`, a proof `(rfl)` in brackets keeps simp from unfolding under the arithmetic of a command. -/

@[simp] theorem mapNext_withIb_finish (v : Bytes) (u : State) :
    mapNext (withIb m) (finish v u) = finish v (withIb m u) := (rfl)

@[simp] theorem mapNext_withIb_fail (c : Code) : mapNext (withIb m) (fail c s) = fail c (withIb m s) := (rfl)

@[simp] theorem mapNext_withIb_inRange (ok : Bool) (body : Result) :
    mapNext (withIb m) (inRange ok s body) = inRange ok (withIb m s) (mapNext (withIb m) body) := by
  cases ok <;> rfl

@[simp] theorem mapNext_withIb_whenLive (c : Stream) (body : Result) :
    mapNext (withIb m) (whenLive c s body) = whenLive c (withIb m s) (mapNext (withIb m) body) := by
  have hlive : isLive c (withIb m s) = isLive c s := rfl
  rw [whenLive, whenLive, hlive, apply_ite (mapNext (withIb m)), mapNext_withIb_fail]

/-! ## The operands (R10, R71) -/

theorem memReadBytes_of_agree (h : AgreeOnOperands i m s) {a n : Nat} (hr : ∀ x, a ≤ x → x < a + n → readsIb i x) :
    memReadBytes m a n = memReadBytes s.ib a n :=
  memReadBytes_congr _ _ _ _ fun x hlo hhi => h x (hr x hlo hhi)

theorem ibBytes_withIb (h : AgreeOnOperands i m s) {a n : Nat} (hr : ∀ x, a ≤ x → x < a + n → readsIb i x) :
    ibBytes (withIb m s) a n = ibBytes s a n := memReadBytes_of_agree h hr

theorem ibScalar_withIb (h : AgreeOnOperands i m s) {a : Nat} (hr : ∀ x, a ≤ x → x < a + 32 → readsIb i x) :
    ibScalar (withIb m s) a = ibScalar s a := congrArg le (ibBytes_withIb h hr)

theorem ibData_withIb {len : BitVec 16} (h : AgreeOnOperands i m s) (hr : ∀ x, x < len.toNat → readsIb i x) :
    ibData (withIb m s) len = ibData s len := ibBytes_withIb h fun x _ hhi => hr x (by omega)

/-! ## CC20_XOR: each convention reads its own part of the nonce and of the counter (R122), KS = 1 no text (R125) -/

section

variable {conv : Conv} {ks : Bool} {len : BitVec 16}

theorem ccOperands_withIb (h : AgreeOnOperands (.cc20Xor conv ks len) m s) :
    ccOperands conv (withIb m s) = ccOperands conv s := by
  have hkey : memReadBytes m 0 32 = memReadBytes s.ib 0 32 :=
    memReadBytes_of_agree h fun x _ hhi => .inl (by omega)
  cases conv with
  | djb =>
    have hn0 : memReadBytes m 32 4 = memReadBytes s.ib 32 4 :=
      memReadBytes_of_agree h fun x _ hhi => by simp only [readsIb]; omega
    have hn1 : memReadBytes m 36 4 = memReadBytes s.ib 36 4 :=
      memReadBytes_of_agree h fun x _ hhi => by simp only [readsIb]; omega
    have hctr : memReadBytes m 56 8 = memReadBytes s.ib 56 8 :=
      memReadBytes_of_agree h fun x _ hhi => by simp only [readsIb]; omega
    simp [ccOperands, ccParams, ibBytes, withIb, slice_memReadBytes, hkey, hn0, hn1, hctr]
  | ietf =>
    have hn0 : memReadBytes m 32 4 = memReadBytes s.ib 32 4 :=
      memReadBytes_of_agree h fun x _ hhi => by simp only [readsIb]; omega
    have hn1 : memReadBytes m 36 4 = memReadBytes s.ib 36 4 :=
      memReadBytes_of_agree h fun x _ hhi => by simp only [readsIb]; omega
    have hn2 : memReadBytes m 40 4 = memReadBytes s.ib 40 4 :=
      memReadBytes_of_agree h fun x _ hhi => by simp only [readsIb]; omega
    have hctr : memReadBytes m 56 4 = memReadBytes s.ib 56 4 :=
      memReadBytes_of_agree h fun x _ hhi => by simp only [readsIb]; omega
    simp only [ccOperands, ccParams, ibBytes, withIb, le_memReadBytes_eight_mod]
    simp [slice_memReadBytes, hkey, hn0, hn1, hn2, hctr]
  | x =>
    have hnonce : memReadBytes m 32 24 = memReadBytes s.ib 32 24 :=
      memReadBytes_of_agree h fun x _ hhi => by simp only [readsIb]; omega
    have hctr : memReadBytes m 56 8 = memReadBytes s.ib 56 8 :=
      memReadBytes_of_agree h fun x _ hhi => by simp only [readsIb]; omega
    simp only [ccOperands, ibBytes, withIb, hkey, hnonce, hctr]

theorem ccOutput_withIb (h : AgreeOnOperands (.cc20Xor conv ks len) m s) (p : CcParams) :
    ccOutput p ks (ibBytes (withIb m s) 64 len.toNat) len.toNat = ccOutput p ks (ibBytes s 64 len.toNat) len.toNat := by
  cases ks with
  | true => rfl
  | false => rw [ibBytes_withIb h fun x hlo hhi => .inr (.inr ⟨rfl, hlo, hhi⟩)]

theorem execCc20Xor_withIb (h : AgreeOnOperands (.cc20Xor conv ks len) m s) :
    execCc20Xor conv ks len (withIb m s) = mapNext (withIb m) (execCc20Xor conv ks len s) := by
  simp only [execCc20Xor, ccOperands_withIb h, ccOutput_withIb h, mapNext_withIb_inRange, mapNext_withIb_finish]
  rfl

end

/-! ## A2_FILL, MMUL and the curve commands -/

/-- With XOR = 0 the old block is not read (R213). -/
theorem a2Block_false_congr (prev ref old old' : Bytes) : a2Block false prev ref old = a2Block false prev ref old' := by
  simp only [a2Block, Bool.false_eq_true, if_false]

theorem execA2Fill_withIb {xor : Bool} (h : AgreeOnOperands (.a2Fill xor) m s) :
    execA2Fill xor (withIb m s) = mapNext (withIb m) (execA2Fill xor s) := by
  have hprev : ibBytes (withIb m s) 0 1024 = ibBytes s 0 1024 :=
    ibBytes_withIb h fun x _ hhi => .inl (by omega)
  have href : ibBytes (withIb m s) 1024 1024 = ibBytes s 1024 1024 :=
    ibBytes_withIb h fun x _ hhi => .inl (by omega)
  rw [execA2Fill, execA2Fill, mapNext_withIb_finish, hprev, href]
  cases xor with
  | false => rw [a2Block_false_congr]
  | true => rw [ibBytes_withIb h fun x _ hhi => .inr ⟨rfl, by omega⟩]

theorem execMmul_withIb (h : AgreeOnOperands .mmul m s) : execMmul (withIb m s) = mapNext (withIb m) (execMmul s) := by
  have ha : ibScalar (withIb m s) 0 = ibScalar s 0 := ibScalar_withIb h fun x _ hhi => by rw [readsIb]; omega
  have hb : ibScalar (withIb m s) 32 = ibScalar s 32 := ibScalar_withIb h fun x _ hhi => by rw [readsIb]; omega
  simp only [execMmul, ha, hb, apply_ite (mapNext (withIb m)), mapNext_withIb_finish]
  rfl

theorem smulCompressed_withIb (h : AgreeOnOperands (.geSmulVar true) m s) :
    smulCompressed (withIb m s) = mapNext (withIb m) (smulCompressed s) := by
  have hk : ibScalar (withIb m s) 0 = ibScalar s 0 := ibScalar_withIb h fun x _ hhi => by simp [readsIb]; omega
  have hpt : ibBytes (withIb m s) 32 32 = ibBytes s 32 32 := ibBytes_withIb h fun x _ hhi => by simp [readsIb]; omega
  have hdec : geDecode (ibBytes (withIb m s) 32 32) = geDecode (ibBytes s 32 32) := by rw [hpt]
  cases hd : geDecode (ibBytes s 32 32) with
  | none => rw [smulCompressed_of_none hd, smulCompressed_of_none (hdec.trans hd), mapNext_withIb_fail]
  | some pt => rw [smulCompressed_of_some hd, smulCompressed_of_some (hdec.trans hd), hk, mapNext_withIb_finish]

theorem smulExtended_withIb (h : AgreeOnOperands (.geSmulVar false) m s) :
    smulExtended (withIb m s) = mapNext (withIb m) (smulExtended s) := by
  have hk : ibScalar (withIb m s) 0 = ibScalar s 0 := ibScalar_withIb h fun x _ hhi => by simp [readsIb]; omega
  have hpt : ibBytes (withIb m s) 32 128 = ibBytes s 32 128 := ibBytes_withIb h fun x _ hhi => by simp [readsIb]; omega
  simp only [smulExtended, hk, hpt, apply_ite (mapNext (withIb m)), mapNext_withIb_finish]
  rfl

/-! ## Every command -/

/-- The stream commands read the LEN bytes at `IB[0]`, or none. -/
theorem exec_withIb_of_unit {c : Stream} (hu : unitOf i = some c) (h : AgreeOnOperands i m s) :
    exec i (withIb m s) = mapNext (withIb m) (exec i s) := by
  cases i with
  | p1305Init =>
    have hkey : ibBytes (withIb m s) 0 32 = ibBytes s 0 32 := ibBytes_withIb h fun x _ hhi => by rw [readsIb]; omega
    rw [exec, exec, execP1305Init, hkey]
    rfl
  | b2bInit _ len | hmacInit len =>
    have hkey : ibData (withIb m s) len = ibData s len := ibData_withIb h fun _ hx => hx
    simp only [exec, execB2bInit, execHmacInit, hkey, mapNext_withIb_inRange, mapNext_withIb_finish]
    rfl
  | p1305Update len | b2bUpdate len | s512Update len | hmacUpdate len =>
    have hdata : ibData (withIb m s) len = ibData s len := ibData_withIb h fun _ hx => hx
    simp only [exec, execP1305Update, execB2bUpdate, execS512Update, execHmacUpdate, hdata, mapNext_withIb_inRange,
      mapNext_withIb_whenLive, mapNext_withIb_finish]
    rfl
  | p1305Final | b2bFinal | s512Final | hmacFinal =>
    simp only [exec, execP1305Final, execB2bFinal, execS512Final, execHmacFinal, mapNext_withIb_whenLive,
      mapNext_withIb_finish]
    rfl
  | s512Init => rfl
  | _ => cases hu

theorem exec_withIb_of_no_unit (hw : ∀ mask, i ≠ .wipe mask) (hu : unitOf i = none) (h : AgreeOnOperands i m s) :
    exec i (withIb m s) = mapNext (withIb m) (exec i s) := by
  have hbytes : ∀ a n, (∀ x, a ≤ x → x < a + n → readsIb i x) → ibBytes (withIb m s) a n = ibBytes s a n :=
    fun a n hr => ibBytes_withIb h hr
  cases i with
  | wipe mask => exact absurd rfl (hw mask)
  | cc20Xor conv ks len => exact execCc20Xor_withIb h
  | a2Fill xor => exact execA2Fill_withIb h
  | mmul => rw [exec, exec, execMmul_withIb h]
  | geSmulVar cin =>
    cases cin with
    | true => rw [exec_geSmulVar_true, exec_geSmulVar_true, smulCompressed_withIb h]
    | false => rw [exec_geSmulVar_false, exec_geSmulVar_false, smulExtended_withIb h]
  | cc20H =>
    rw [exec, exec, execCc20H, execCc20H, hbytes 0 32 fun x _ hhi => by rw [readsIb]; omega,
      hbytes 32 16 fun x _ hhi => by rw [readsIb]; omega, mapNext_withIb_finish]
  | feInv =>
    rw [exec, exec, execFeInv, execFeInv, hbytes 0 32 fun x _ hhi => by rw [readsIb]; omega, mapNext_withIb_finish]
  | feIsqrt =>
    rw [exec, exec, execFeIsqrt, execFeIsqrt, hbytes 0 32 fun x _ hhi => by rw [readsIb]; omega, mapNext_next]
    rfl
  | bred =>
    rw [exec, exec, execBred, execBred, hbytes 0 64 fun x _ hhi => by rw [readsIb]; omega, mapNext_withIb_finish]
  | bmad =>
    have hscalar : ∀ a, a + 32 ≤ 96 → ibScalar (withIb m s) a = ibScalar s a :=
      fun a ha => ibScalar_withIb h fun x _ hhi => by rw [readsIb]; omega
    rw [exec, exec, execBmad, execBmad, hscalar 0 (by omega), hscalar 32 (by omega), hscalar 64 (by omega),
      mapNext_withIb_finish]
  | xLadder trim w =>
    have hk : ibBytes (withIb m s) 0 32 = ibBytes s 0 32 := hbytes 0 32 fun x _ hhi => by rw [readsIb]; omega
    have hu : ibBytes (withIb m s) 32 32 = ibBytes s 32 32 := hbytes 32 32 fun x _ hhi => by rw [readsIb]; omega
    simp only [exec, execXLadder, hk, hu, mapNext_withIb_finish]
  | geAdd sub =>
    rw [exec, exec, execGeAdd, execGeAdd, hbytes 0 128 fun x _ hhi => by rw [readsIb]; omega,
      hbytes 128 128 fun x _ hhi => by rw [readsIb]; omega, mapNext_withIb_finish]
  | geSmulBase =>
    rw [exec, exec, execGeSmulBase, execGeSmulBase, ibScalar_withIb h fun x _ hhi => by rw [readsIb]; omega,
      mapNext_withIb_finish]
  | p1305Init | p1305Update _ | p1305Final | b2bInit _ _ | b2bUpdate _ | b2bFinal | s512Init | s512Update _ | s512Final
  | hmacInit _ | hmacUpdate _ | hmacFinal => cases hu

theorem exec_withIb (hw : ∀ mask, i ≠ .wipe mask) (h : AgreeOnOperands i m s) :
    exec i (withIb m s) = mapNext (withIb m) (exec i s) := by
  cases hu : unitOf i with
  | none => exact exec_withIb_of_no_unit hw hu h
  | some c => exact exec_withIb_of_unit hu h

end Sys2Proof.Machine

namespace Sys2Proof.Proofs

open Sys2Proof.Machine Sys2Proof.Claims

/-- Settles O22, command by command: its operands are the same bytes. -/
theorem unnamedInputBytesHaveNoInfluence : Obligations.UnnamedInputBytesHaveNoInfluence := by
  intro i s t m hw hagree h
  have hmap := exec_withIb hw hagree
  rwa [h, mapNext_next] at hmap

end Sys2Proof.Proofs
end

section
/-! Laws of the streams (41_poly1305.md, 42_blake2b.md, 43_sha512_hmac.md): an UPDATE absorbs its bytes one after the other, so
only their order matters; the tag as one polynomial; the hash and the MAC of a whole message. -/

namespace Sys2Proof.Machine

open Sys2Proof.Claims

/-! ## UPDATE of any stream (R142, R165, R185, R191) -/

/-- The state after a stream has absorbed the bytes `v`. -/
def absorb : Stream → Bytes → State → State
  | .poly, v, s => { s with poly := polyUpdate s.poly v }
  | .b2b, v, s => { s with b2b := b2Update s.b2b v }
  | .sha, v, s => { s with sha := shaAbsorb s.sha v }
  | .hmac, v, s => { s with hmac := { s.hmac with inner := shaAbsorb s.hmac.inner v } }

theorem shaAbsorb_append (c : ShaCtx) (v w : Bytes) : shaAbsorb c (v ++ w) = shaAbsorb (shaAbsorb c v) w := by
  rw [shaAbsorb, List.foldl_append, ← shaAbsorb, ← shaAbsorb]

theorem absorb_append (c : Stream) (v w : Bytes) (s : State) : absorb c (v ++ w) s = absorb c w (absorb c v s) := by
  cases c with
  | poly => rw [absorb, absorb, absorb, polyUpdate, List.foldl_append, ← polyUpdate, ← polyUpdate]
  | b2b => rw [absorb, absorb, absorb, b2Update, List.foldl_append, ← b2Update, ← b2Update]
  | sha | hmac => rw [absorb, absorb, absorb, shaAbsorb_append]

theorem exec_updateOf (c : Stream) {len : BitVec 16} (hlen : len.toNat ≤ 4096) (s : State) :
    exec (updateOf c len) s = whenLive c s (finish [] (absorb c (memReadBytes s.ib 0 len.toNat) s)) := by
  cases c with
  | poly => exact exec_p1305Update hlen s
  | b2b => exact exec_b2bUpdate hlen s
  | sha => exact exec_s512Update hlen s
  | hmac => exact exec_hmacUpdate hlen s

/-- Absorbing reads and writes neither IB nor the result registers. -/
theorem absorb_withIb (c : Stream) (v : Bytes) (m : Memory) (s : State) :
    absorb c v (withIb m s) = withIb m (absorb c v s) := by
  cases c <;> rfl

theorem absorb_done_nil (c : Stream) (v : Bytes) (s : State) :
    absorb c v (done [] false s) = done [] false (absorb c v s) := by
  cases c <;> rfl

theorem isLive_absorb (c d : Stream) (v : Bytes) (s : State) : isLive d (absorb c v s) = isLive d s := by
  cases c <;> rfl

section

variable {c : Stream} {len : BitVec 16} {m : Memory} {s t : State}

/-- An UPDATE of a stream that is not live fails, whatever stands in IB. -/
theorem eq_of_update_idle (hlen : len.toNat ≤ 4096) (hidle : isLive c s = false)
    (h : exec (updateOf c len) (withIb m s) = .next t) : t = withIb m (failed 0x20#32 s) := by
  have hidle' : isLive c (withIb m s) = false := hidle
  rw [exec_updateOf c hlen, whenLive_of_idle hidle'] at h
  exact (Host.Outcome.next.inj h).symm

/-- An UPDATE of a live stream absorbs the first bytes of IB. -/
theorem eq_of_update_live (hlen : len.toNat ≤ 4096) (hlive : isLive c s = true)
    (h : exec (updateOf c len) (withIb m s) = .next t) :
    t = withIb m (done [] false (absorb c (memReadBytes m 0 len.toNat) s)) := by
  have hlive' : isLive c (withIb m s) = true := hlive
  rw [exec_updateOf c hlen, whenLive_of_live hlive', absorb_withIb, finish_next] at h
  exact h

end

/-! ## The tag as a polynomial (R140, R143) -/

/-- The number of block `i` of a message, its last one perhaps partial (R140). -/
def polyTerm (m : Bytes) (i : Nat) : Nat := le (slice m (16 * i) 16) + 2 ^ (8 * min 16 (m.length - 16 * i))

/-- Horner's rule: adding a term and multiplying by `r`, from the first term to the last. -/
theorem foldl_horner (f : Nat → Nat) (r p n : Nat) :
    (List.range n).foldl (fun h i => (h + f i) * r % p) 0 = (∑ i ∈ Finset.range n, f i * r ^ (n - i)) % p := by
  induction n with
  | zero => rfl
  | succ n ih =>
    have hpow : ∀ i ∈ Finset.range n, f i * r ^ (n + 1 - i) = f i * r ^ (n - i) * r := fun i hi => by
      rw [Nat.succ_sub (Finset.mem_range.1 hi).le, pow_succ, mul_assoc]
    rw [List.range_succ, List.foldl_append, ih, Finset.sum_range_succ, Finset.sum_congr rfl hpow, ← Finset.sum_mul,
      Nat.add_sub_cancel_left, pow_one, ← add_mul]
    exact ((Nat.mod_modEq _ _).add_right _).mul_right _

/-- The accumulator after the blocks `0` to `n-1` of a message. -/
def polySum (r : W128) (m : Bytes) (n : Nat) : Nat :=
  (List.range n).foldl (fun h i => (h + polyTerm m i) * r.toNat % p1305) 0

theorem foldl_polyAccum_blocks (r : W128) (m : Bytes) :
    (blocks 16 m).foldl (polyAccum r) 0 = polySum r m (m.length / 16) := by
  rw [blocks, List.foldl_map, polySum]
  refine List.foldl_ext _ _ _ fun h i hi => ?_
  have hfull : min 16 (m.length - 16 * i) = 16 := by
    have := List.mem_range.1 hi
    omega
  rw [polyAccum, polyTerm, hfull]

theorem rest_eq_slice {n : Nat} (hn : 0 < n) (m : Bytes) : rest n m = slice m (n * (m.length / n)) n := by
  have hlen : (rest n m).length ≤ n := by
    rw [rest_length]
    exact (Nat.mod_lt _ hn).le
  rw [slice, ← rest, List.take_of_length_le hlen]

/-- The partial block, if there is one, is the message's last block. -/
theorem polySum_last (r : W128) (m : Bytes) :
    (if rest 16 m = [] then polySum r m (m.length / 16)
      else (polySum r m (m.length / 16) + (le (rest 16 m) + 2 ^ (8 * (rest 16 m).length))) * r.toNat % p1305) =
      polySum r m ((m.length + 15) / 16) := by
  have hlen := rest_length 16 m
  split
  · next hnil =>
    rw [hnil, List.length_nil] at hlen
    congr 1
    omega
  · next hne =>
    have hpos := List.length_pos_iff.2 hne
    have hcount : (m.length + 15) / 16 = m.length / 16 + 1 := by omega
    have hpart : (rest 16 m).length = min 16 (m.length - 16 * (m.length / 16)) := by omega
    rw [hcount, polySum, polySum, List.range_succ, List.foldl_append, List.foldl_cons, List.foldl_nil, polyTerm, hpart,
      rest_eq_slice (by decide)]

theorem polyTag_update_init (key m : Bytes) :
    polyTag (polyUpdate (polyInit key) m) =
      tole 16 ((polySum (polyInit key).r m ((m.length + 15) / 16) + (polyInit key).pad.toNat) % 2 ^ 128) := by
  have hafter : polyUpdate (polyInit key) m = polyAfter (polyInit key) m := polyUpdate_eq (by decide : [].length < 16) m
  have hsum : (polyAfter (polyInit key) m).h = polySum (polyInit key).r m (m.length / 16) :=
    foldl_polyAccum_blocks _ m
  have hrest : (polyAfter (polyInit key) m).buf = rest 16 m := rfl
  have hr : (polyAfter (polyInit key) m).r = (polyInit key).r := rfl
  have hpad : (polyAfter (polyInit key) m).pad = (polyInit key).pad := rfl
  rw [hafter, polyTag_eq, hsum, hrest, hr, hpad, polySum_last]

/-! ## The hash of a whole message (R187, R189) -/

theorem tole_mod (n v : Nat) : tole n (v % 256 ^ n) = tole n v := by
  have h := tole_le (tole n v)
  rwa [tole_length, le_tole] at h

/-- The bit count of the padding is taken mod 2^128 (R183). -/
theorem shaPadded_mod (m : Bytes) (n : Nat) : shaPadded m (n % 2 ^ 128) = shaPadded m n := by
  have hcount : tobe 16 (n % 2 ^ 128) = tobe 16 n := congrArg List.reverse (tole_mod 16 n)
  rw [shaPadded, shaPadded, hcount]

theorem hmacMac_start_absorb (key m : Bytes) :
    hmacMac { hmacStart key with inner := shaAbsorb (hmacStart key).inner m } =
      sha512 (xorByte (hmacKeyBlock key) 0x5c#8 ++ sha512 (xorByte (hmacKeyBlock key) 0x36#8 ++ m)) := by
  rw [hmacMac, ← sha512, hmacStart, ← shaAbsorb_append, ← sha512]

end Sys2Proof.Machine

namespace Sys2Proof.Proofs

open Sys2Proof.Machine Sys2Proof.Claims

/-- Settles O48: a stream that is not live fails each time, and one that is absorbs the bytes in order. -/
theorem chunkingDoesNotMatter : Obligations.ChunkingDoesNotMatter := by
  intro c m1 m2 m12 n1 n2 n12 s t1 t2 t12 hsum hmax hbytes h1 h2 h12
  cases hlive : isLive c s with
  | false =>
    cases eq_of_update_idle (s := s) (by omega) hlive h1
    cases eq_of_update_idle (s := failed 0x20#32 s) (by omega) hlive h2
    cases eq_of_update_idle (s := s) hmax hlive h12
    rfl
  | true =>
    cases eq_of_update_live (s := s) (by omega) hlive h1
    cases eq_of_update_live (s := s) hmax hlive h12
    have hlive1 : isLive c (done [] false (absorb c (memReadBytes m1 0 n1.toNat) s)) = true :=
      (isLive_absorb c c _ s).trans hlive
    have ht2 := eq_of_update_live (by omega) hlive1 h2
    rw [absorb_done_nil, ← absorb_append, ← hbytes] at ht2
    exact ht2

/-- Settles O49: the blocks go through Horner's rule, the partial one as the last. -/
theorem polyTagIsThePolynomial : Obligations.PolyTagIsThePolynomial := by
  rintro key m n rfl
  rw [polyTag_update_init, polySum, foldl_horner]
  rfl

/-- Settles O50. -/
theorem shaStreamingIsTheOneShotHash : Obligations.ShaStreamingIsTheOneShotHash := by
  intro m
  rw [sha512_eq, shaPadded_mod]

/-- Settles O51: the inner hash goes on from the key block. -/
theorem hmacIsTheNestedHash : Obligations.HmacIsTheNestedHash := by
  intro key m kb hkb
  have hblock : hmacKeyBlock key = kb := by rw [hkb, hmacKeyBlock, padTo]
  rw [hmacMac_start_absorb, hblock, xorByte, xorByte]

end Sys2Proof.Proofs
end

section
/-! Laws of the reductions (46_scalar.md): two Montgomery products and one Barrett reduction give the same residue. -/

namespace Sys2Proof.Machine

theorem mul_lt_montgomery_bound {a b : Nat} (ha : a < groupL) (hb : b < groupL) : a * b < groupL * 2 ^ 256 :=
  calc a * b ≤ a * groupL := Nat.mul_le_mul_left a hb.le
    _ < groupL * groupL := Nat.mul_lt_mul_of_pos_right ha groupL_pos
    _ < groupL * 2 ^ 256 := Nat.mul_lt_mul_of_pos_left (by decide) groupL_pos

theorem groupL_coprime_two_pow (n : Nat) : Nat.Coprime groupL (2 ^ n) :=
  Nat.Coprime.pow_right n (by decide)

/-- The second product, by `2^512 mod L`, takes the factor `2^-256` of the first one away. -/
theorem montMul_montMul {a b : Nat} (ha : a < groupL) (hb : b < groupL) :
    montMul (montMul a b) (2 ^ 512 % groupL) = a * b % groupL := by
  have hab := mul_lt_montgomery_bound ha hb
  have hrr : 2 ^ 512 % groupL < groupL := Nat.mod_lt _ groupL_pos
  have hprod := mul_lt_montgomery_bound (montMul_lt hab) hrr
  have hfirst : montMul a b * 2 ^ 256 ≡ a * b [MOD groupL] := montMul_mul_mod hab
  have hsecond : montMul (montMul a b) (2 ^ 512 % groupL) * 2 ^ 256 ≡ a * b * 2 ^ 256 [MOD groupL] :=
    calc montMul (montMul a b) (2 ^ 512 % groupL) * 2 ^ 256
        ≡ montMul a b * (2 ^ 512 % groupL) [MOD groupL] := montMul_mul_mod hprod
      _ ≡ montMul a b * 2 ^ 512 [MOD groupL] := (Nat.mod_modEq _ _).mul_left _
      _ = montMul a b * 2 ^ 256 * 2 ^ 256 := by rw [mul_assoc, ← pow_add]
      _ ≡ a * b * 2 ^ 256 [MOD groupL] := hfirst.mul_right _
  have hres : montMul (montMul a b) (2 ^ 512 % groupL) ≡ a * b [MOD groupL] :=
    Nat.ModEq.cancel_right_of_coprime (groupL_coprime_two_pow 256) hsecond
  rw [← hres, Nat.mod_eq_of_lt (montMul_lt hprod)]

theorem groupL_lt : groupL < 2 ^ 256 := by decide

end Sys2Proof.Machine

namespace Sys2Proof.Proofs

open Sys2Proof.Machine

/-- Settles O56, by the residue that each of the two reductions gives. -/
theorem scalarReductionsAgree : Obligations.ScalarReductionsAgree := by
  refine ⟨fun a b ha hb => ?_, fun x hx => ?_⟩
  · have hab : a * b < 2 ^ 512 :=
      calc a * b < groupL * 2 ^ 256 := mul_lt_montgomery_bound ha hb
        _ < 2 ^ 256 * 2 ^ 256 := Nat.mul_lt_mul_of_pos_right groupL_lt (by decide)
        _ = 2 ^ 512 := by rw [← pow_add]
    rw [montMul_montMul ha hb, barrett_eq hab]
  · have hlt : x % groupL < groupL := Nat.mod_lt _ groupL_pos
    have hsmall : x % groupL < 2 ^ 512 := (Nat.mod_le x groupL).trans_lt hx
    rw [barrett_eq hx]
    exact ⟨hlt, by rw [barrett_eq hsmall, Nat.mod_mod], Nat.mod_mod x groupL⟩

end Sys2Proof.Proofs
end

section
/-! Laws of CC20_XOR (40_chacha20.md section 3): its output byte by byte, and when two calls meet the same keystream: with the
returned counter, on their own result, and under another convention. -/

namespace Sys2Proof.Machine

open Sys2Proof.Claims

/-! ## Bytes of buffers -/

/-- Two ranges, at any two places, that hold the same bytes. -/
theorem memReadBytes_eq_of_shift {m m' : Memory} {a b n : Nat} (h : ∀ j, j < n → memRead m (a + j) = memRead m' (b + j)) :
    memReadBytes m a n = memReadBytes m' b n := by
  induction n generalizing a b with
  | zero => rfl
  | succ n ih =>
    have hhead := h 0 (Nat.succ_pos n)
    have htail := @ih (a + 1) (b + 1) fun j hj => by
      have := h (j + 1) (Nat.succ_lt_succ hj)
      rwa [Nat.add_comm j 1, ← Nat.add_assoc, ← Nat.add_assoc] at this
    rw [memReadBytes, memReadBytes, htail]
    exact congrArg (· :: _) hhead

theorem memReadBytes_halves {m m' : Memory} {a b : Nat} (h : memReadBytes m a 8 = memReadBytes m' b 8) :
    memReadBytes m a 4 = memReadBytes m' b 4 ∧ memReadBytes m (a + 4) 4 = memReadBytes m' (b + 4) 4 := by
  rw [memReadBytes_append m a 4 4, memReadBytes_append m' b 4 4] at h
  exact List.append_inj h (by simp)

/-! ## A call that is answered (R125) -/

/-- Byte `j` of the output. -/
def ccOutByte (conv : Conv) (ks : Bool) (s : State) (j : Nat) : Byte :=
  if ks then ccByte conv s j else memRead s.ib (64 + j) ^^^ ccByte conv s j

variable {conv : Conv} {ks : Bool} {len : BitVec 16} {s s' t : State}

theorem cc20Xor_next (hlen : len.toNat ≤ 1024) (h : exec (.cc20Xor conv ks len) s = .next t) :
    (∀ j, j < len.toNat → memRead t.ob j = ccOutByte conv ks s j) ∧
      t.ctrLo = BitVec.ofNat 32 (ccReturned conv s len.toNat) ∧
      t.ctrHi = BitVec.ofNat 32 (ccReturned conv s len.toNat / 2 ^ 32) := by
  obtain ⟨t', out, hexec, hlength, hout, hframe, hob, -⟩ := Proofs.cc20XorAppliesTheKeystream.2 conv ks len s hlen
  cases hexec.symm.trans h
  refine ⟨fun j hj => ?_, by rw [hframe], by rw [hframe]⟩
  have hbyte := memReadBytes_getD t.ob 0 out.length j (hj.trans_eq hlength.symm)
  rw [hob, hout j hj, Nat.zero_add] at hbyte
  exact hbyte.symm

/-! ## The keystream depends on the key, the nonce and the counter of the block (R122, R124) -/

theorem ccBlockWords_congr {i i' : Nat} (hfield : ∀ a n, a + n ≤ 56 → memReadBytes s'.ib a n = memReadBytes s.ib a n)
    (hctr : (ccStart conv s' + i') % 2 ^ 64 = (ccStart conv s + i) % 2 ^ 64) :
    ccBlockWords conv s' i' = ccBlockWords conv s i := by
  cases conv with
  | djb | x =>
    simp only [ccStart] at hctr
    simp only [ccBlockWords, hctr, hfield, Nat.reduceAdd, Nat.reduceLeDiff]
  | ietf =>
    have hnonce : memReadBytes s'.ib 32 4 = memReadBytes s.ib 32 4 := hfield 32 4 (by omega)
    simp only [ccStart, hnonce] at hctr
    simp only [ccBlockWords, hnonce, hctr, hfield, Nat.reduceAdd, Nat.reduceLeDiff]

theorem ccByte_congr {j j' : Nat} (hword : ccBlockWords conv s' (j' / 64) = ccBlockWords conv s (j / 64))
    (hmod : j' % 64 = j % 64) : ccByte conv s' j' = ccByte conv s j := by
  rw [ccByte, ccByte, hword, hmod]

/-- The same operands give the same keystream. -/
theorem ccByte_of_same_operands (h : ∀ a, a < 64 → memRead s'.ib a = memRead s.ib a) (j : Nat) :
    ccByte conv s' j = ccByte conv s j := by
  have hbytes : ∀ a n, a + n ≤ 64 → memReadBytes s'.ib a n = memReadBytes s.ib a n :=
    fun a n han => memReadBytes_congr _ _ _ _ fun x _ hx => h x (by omega)
  have hstart : ccStart conv s' = ccStart conv s := by
    cases conv <;> simp [ccStart, hbytes]
  exact ccByte_congr (ccBlockWords_congr (fun a n han => hbytes a n (by omega)) (by rw [hstart])) rfl

/-! ## Chaining with the returned counter (R125, R128) -/

theorem ccReturned_lt (conv : Conv) (s : State) (n : Nat) : ccReturned conv s n < 2 ^ 64 := by
  cases conv with
  | djb | x => exact Nat.mod_lt _ (by decide)
  | ietf => exact (Nat.mod_lt _ (by decide)).trans (by decide : 2 ^ 32 < 2 ^ 64)

/-- The counter field that the host fills from CTR_LO and CTR_HI. -/
theorem le_counter_field {m : Memory} {r : Nat} (hr : r < 2 ^ 64)
    (h : memReadBytes m 56 8 = tole 4 (BitVec.ofNat 32 r).toNat ++ tole 4 (BitVec.ofNat 32 (r / 2 ^ 32)).toNat) :
    le (memReadBytes m 56 8) = r := by
  rw [h, le_append, le_tole, le_tole, tole_length, BitVec.toNat_ofNat, BitVec.toNat_ofNat]
  omega

/-- The second call starts `q` blocks further on, where the IETF counter does not wrap. -/
theorem ccStart_chained {q : Nat} (hnonce : memReadBytes s'.ib 32 4 = memReadBytes s.ib 32 4)
    (hctr : le (memReadBytes s'.ib 56 8) = ccReturned conv s (64 * q))
    (hwrap : conv = .ietf → le (memReadBytes s.ib 56 4) + q < 2 ^ 32) (i : Nat) :
    (ccStart conv s' + i) % 2 ^ 64 = (ccStart conv s + (q + i)) % 2 ^ 64 := by
  cases conv with
  | djb | x =>
    simp only [ccStart, ccReturned] at hctr ⊢
    omega
  | ietf =>
    have hlow := le_memReadBytes_eight_mod s'.ib 56
    have := hwrap rfl
    simp only [ccStart, ccReturned, hnonce] at hctr ⊢
    omega

theorem ccByte_chained {q : Nat} (hfield : ∀ a n, a + n ≤ 56 → memReadBytes s'.ib a n = memReadBytes s.ib a n)
    (hctr : le (memReadBytes s'.ib 56 8) = ccReturned conv s (64 * q))
    (hwrap : conv = .ietf → le (memReadBytes s.ib 56 4) + q < 2 ^ 32) (j : Nat) :
    ccByte conv s' j = ccByte conv s (64 * q + j) := by
  have hblock : (64 * q + j) / 64 = q + j / 64 := by omega
  refine ccByte_congr ?_ (by omega)
  rw [hblock]
  exact ccBlockWords_congr hfield (ccStart_chained (hfield 32 4 (by omega)) hctr hwrap _)

/-- The counter after both calls is that after one, but for the IETF convention. -/
theorem ccReturned_chained {q n1 n2 : Nat} (hn1 : n1 = 64 * q) (hconv : conv ≠ .ietf)
    (hctr : le (memReadBytes s'.ib 56 8) = ccReturned conv s n1) :
    ccReturned conv s' n2 = ccReturned conv s (n1 + n2) := by
  cases conv with
  | djb | x =>
    simp only [ccReturned] at hctr ⊢
    omega
  | ietf => exact absurd rfl hconv

/-! ## The other conventions as DJB (R122) -/

theorem ccBlockWords_x_eq_djb (hkey : memReadBytes s'.ib 0 32 = ccH (memReadBytes s.ib 0 32) (memReadBytes s.ib 32 16))
    (hnonce : memReadBytes s'.ib 32 8 = memReadBytes s.ib 48 8)
    (hctr : memReadBytes s'.ib 56 8 = memReadBytes s.ib 56 8) (i : Nat) :
    ccBlockWords .x s i = ccBlockWords .djb s' i := by
  obtain ⟨hn0, hn1⟩ := memReadBytes_halves hnonce
  simp only [ccBlockWords, hkey, hn0, hn1, hctr]

/-- The counter field of the DJB call holds the IETF counter and, above it, the first nonce word. -/
theorem le_ietf_counter_field
    (hctr : memReadBytes s'.ib 56 8 = memReadBytes s.ib 56 4 ++ memReadBytes s.ib 32 4) :
    le (memReadBytes s'.ib 56 8) = le (memReadBytes s.ib 56 4) + le (memReadBytes s.ib 32 4) * 2 ^ 32 := by
  rw [hctr, le_append, memReadBytes_length]
  omega

theorem ccBlockWords_ietf_eq_djb (hkey : memReadBytes s'.ib 0 32 = memReadBytes s.ib 0 32)
    (hnonce : memReadBytes s'.ib 32 8 = memReadBytes s.ib 36 8)
    (hctr : memReadBytes s'.ib 56 8 = memReadBytes s.ib 56 4 ++ memReadBytes s.ib 32 4) (i : Nat) :
    ccBlockWords .ietf s i = ccBlockWords .djb s' i := by
  obtain ⟨hn0, hn1⟩ := memReadBytes_halves hnonce
  simp only [ccBlockWords, hkey, hn0, hn1, le_ietf_counter_field hctr]

/-- Two calls on the same text, whose conventions make the same block words, give the same bytes. -/
theorem cc20Xor_same_output {conv' : Conv} {t' : State} (hlen : len.toNat ≤ 1024)
    (htext : ∀ j, 64 ≤ j → memRead s'.ib j = memRead s.ib j)
    (hwords : ∀ i, ccBlockWords conv s i = ccBlockWords conv' s' i)
    (h : exec (.cc20Xor conv ks len) s = .next t) (h' : exec (.cc20Xor conv' ks len) s' = .next t') :
    memReadBytes t.ob 0 len.toNat = memReadBytes t'.ob 0 len.toNat := by
  obtain ⟨hout, -, -⟩ := cc20Xor_next hlen h
  obtain ⟨hout', -, -⟩ := cc20Xor_next hlen h'
  refine memReadBytes_congr _ _ _ _ fun j _ hj => ?_
  have hbyte : ccByte conv s j = ccByte conv' s' j := by rw [ccByte, ccByte, hwords]
  rw [hout j (by omega), hout' j (by omega), ccOutByte, ccOutByte, hbyte, htext (64 + j) (by omega)]

end Sys2Proof.Machine

namespace Sys2Proof.Proofs

open Sys2Proof.Machine Sys2Proof.Claims

/-- Settles O52: block `i` of the second call is block `q + i` of the one call. -/
theorem cc20ChainingContinuesTheStream : Obligations.Cc20ChainingContinuesTheStream := by
  intro conv ks n1 n2 n12 s s' t1 t2 t12 q hn1 hsum hmax hwrap h1 hfield hctr htext h2 h12
  obtain ⟨hout1, hlo1, hhi1⟩ := cc20Xor_next (by omega) h1
  obtain ⟨hout2, hlo2, hhi2⟩ := cc20Xor_next (by omega) h2
  obtain ⟨hout12, hlo12, hhi12⟩ := cc20Xor_next hmax h12
  have hcounter : le (memReadBytes s'.ib 56 8) = ccReturned conv s n1.toNat := by
    rw [hlo1, hhi1] at hctr
    exact le_counter_field (ccReturned_lt _ _ _) hctr
  have hfields : ∀ a n, a + n ≤ 56 → memReadBytes s'.ib a n = memReadBytes s.ib a n :=
    fun a n han => memReadBytes_congr _ _ _ _ fun x _ hx => hfield x (by omega)
  refine ⟨?bytes, fun hconv => ?counter⟩
  case bytes =>
    rw [← hsum, memReadBytes_append]
    refine congrArg₂ (· ++ ·) ?_ ?_
    · exact memReadBytes_congr _ _ _ _ fun j _ hj => by rw [hout12 j (by omega), hout1 j (by omega)]
    · refine memReadBytes_eq_of_shift fun j hj => ?_
      have hbyte : ccByte conv s' j = ccByte conv s (n1.toNat + j) := by
        rw [hn1] at hcounter ⊢
        exact ccByte_chained hfields hcounter hwrap j
      rw [Nat.zero_add, Nat.zero_add, hout12 _ (by omega), hout2 j hj, ccOutByte, ccOutByte, hbyte, htext j hj,
        Nat.add_assoc]
  case counter =>
    have hreturned := ccReturned_chained (n2 := n2.toNat) hn1 hconv hcounter
    rw [hsum] at hreturned
    rw [hlo12, hlo2, hhi12, hhi2, hreturned]
    exact ⟨rfl, rfl⟩

/-- Settles O53: the second call xors the same keystream onto the first one's output. -/
theorem cc20XorUndoesItself : Obligations.Cc20XorUndoesItself := by
  intro conv len s s' t t' hlen h hoperands htext h'
  obtain ⟨hout, -, -⟩ := cc20Xor_next hlen h
  obtain ⟨hout', -, -⟩ := cc20Xor_next hlen h'
  refine memReadBytes_eq_of_shift fun j hj => ?_
  calc memRead t'.ob (0 + j)
      = memRead t.ob j ^^^ ccByte conv s' j := by rw [Nat.zero_add, hout' j hj, ← htext j hj]; rfl
    _ = memRead s.ib (64 + j) ^^^ ccByte conv s j ^^^ ccByte conv s j := by
      rw [hout j hj, ccByte_of_same_operands hoperands]
      rfl
    _ = memRead s.ib (64 + j) := by rw [BitVec.xor_assoc, BitVec.xor_self, BitVec.xor_zero]

/-- Settles O54: the block words are those of the DJB call, block by block. -/
theorem cc20ConventionsAgree : Obligations.Cc20ConventionsAgree := by
  intro ks len s s' t t' hlen htext h'
  obtain ⟨-, hlo', hhi'⟩ := cc20Xor_next hlen h'
  refine ⟨fun hkey hnonce hctr h => ?x, fun hkey hnonce hctr h => ?ietf⟩
  case x =>
    obtain ⟨-, hlo, hhi⟩ := cc20Xor_next hlen h
    have hreturned : ccReturned .x s len.toNat = ccReturned .djb s' len.toNat := by rw [ccReturned, ccReturned, hctr]
    refine ⟨cc20Xor_same_output hlen htext (ccBlockWords_x_eq_djb hkey hnonce hctr) h h', ?_, ?_⟩
    · rw [hlo, hlo', hreturned]
    · rw [hhi, hhi', hreturned]
  case ietf =>
    obtain ⟨-, hlo, hhi⟩ := cc20Xor_next hlen h
    have hcounter := le_ietf_counter_field hctr
    refine ⟨cc20Xor_same_output hlen htext (ccBlockWords_ietf_eq_djb hkey hnonce hctr) h h', ?_, ?_⟩
    · rw [hlo, hlo', ccReturned, ccReturned, hcounter]
      apply BitVec.eq_of_toNat_eq
      simp only [BitVec.toNat_ofNat]
      omega
    · rw [hhi, ccReturned, Nat.div_eq_of_lt (Nat.mod_lt _ (by decide))]

end Sys2Proof.Proofs
end

section
/-! Field values as elements of the prime field (45_field.md): each operation of R228 and R229 is that of `ZMod p`, and bytes are
equal where the values are; the laws of FE_ISQRT, and the constants of R6. -/

namespace Sys2Proof.Machine

open Sys2Proof.Claims

/-! ## The operations in `ZMod p` (R228, R229) -/

theorem fact_fieldP_prime : Fact fieldP.Prime := ⟨fieldP_prime⟩

@[simp] theorem natCast_fadd (a b : Nat) : (fadd a b : ZMod fieldP) = a + b := by
  rw [fadd, ZMod.natCast_mod, Nat.cast_add]

@[simp] theorem natCast_fsub (a b : Nat) : (fsub a b : ZMod fieldP) = a - b := by
  have h : ((fsub a b : ℤ) : ZMod fieldP) = ((a - b : ℤ) : ZMod fieldP) := by rw [fsub_eq, ZMod.intCast_mod]
  simpa using h

@[simp] theorem natCast_fneg (a : Nat) : (fneg a : ZMod fieldP) = -a := by
  rw [fneg, ZMod.natCast_mod, Nat.cast_sub (Nat.mod_lt a fieldP_pos).le, ZMod.natCast_self, ZMod.natCast_mod, zero_sub]

@[simp] theorem natCast_fmul (a b : Nat) : (fmul a b : ZMod fieldP) = a * b := by
  rw [fmul, ZMod.natCast_mod, Nat.cast_mul]

@[simp] theorem natCast_fsq (a : Nat) : (fsq a : ZMod fieldP) = a ^ 2 := by
  rw [fsq, ZMod.natCast_mod, Nat.cast_mul, pow_two]

@[simp] theorem natCast_fpow (a e : Nat) : (fpow a e : ZMod fieldP) = a ^ e := by
  rw [fpow_eq, ZMod.natCast_mod, Nat.cast_pow]

theorem natCast_eq_zero_iff_of_lt {a : Nat} (ha : a < fieldP) : (a : ZMod fieldP) = 0 ↔ a = 0 := by
  rw [← Nat.cast_zero, natCast_eq_iff_of_lt ha fieldP_pos]

theorem natCast_eq_one_iff_of_lt {a : Nat} (ha : a < fieldP) : (a : ZMod fieldP) = 1 ↔ a = 1 := by
  rw [← Nat.cast_one, natCast_eq_iff_of_lt ha fieldP_prime.one_lt]

theorem natCast_fieldP_sub {a : Nat} (ha : a ≤ fieldP) : ((fieldP - a : ℕ) : ZMod fieldP) = -a := by
  rw [Nat.cast_sub ha, ZMod.natCast_self, zero_sub]

/-- The power `p - 2` is the inverse, and 0 for 0 (R232). -/
theorem natCast_fpow_inverse (z : Nat) : (fpow z (fieldP - 2) : ZMod fieldP) = (z : ZMod fieldP)⁻¹ := by
  have := fact_fieldP_prime
  rw [natCast_fpow]
  by_cases hz : (z : ZMod fieldP) = 0
  · rw [hz, inv_zero, zero_pow (by decide)]
  · have hexp : fieldP - 2 + 1 = fieldP - 1 := by decide
    refine eq_inv_of_mul_eq_one_left ?_
    rw [← pow_succ, hexp, ZMod.pow_card_sub_one_eq_one hz]

theorem two_ne_zero_zmod : (2 : ZMod fieldP) ≠ 0 := by
  have h := (natCast_eq_zero_iff_of_lt (a := 2) (by decide)).not.2 (by decide)
  exact_mod_cast h

/-! ## Bytes of field values (R226, R227) -/

@[simp] theorem feBytes_length (v : ℤ) : (feBytes v).length = 32 := tole_length 32 _

theorem natCast_toNat_emod (v : ℤ) : (((v % (fieldP : ℤ)).toNat : ℕ) : ZMod fieldP) = v := by
  have hpos : (fieldP : ℤ) ≠ 0 := by exact_mod_cast fieldP_pos.ne'
  rw [← Int.cast_natCast, Int.toNat_of_nonneg (Int.emod_nonneg v hpos), ZMod.intCast_mod]

theorem toNat_emod_lt (v : ℤ) : (v % (fieldP : ℤ)).toNat < fieldP := by
  have hpos : (0 : ℤ) < fieldP := by exact_mod_cast fieldP_pos
  have := Int.emod_lt_of_pos v hpos
  omega

/-- Equal field values have equal bytes. -/
theorem feOut_congr {a b : Nat} (h : (a : ZMod fieldP) = b) : feOut a = feOut b := by
  rw [feOut, feOut, (ZMod.natCast_eq_natCast_iff' _ _ _).1 h]

theorem feOut_eq_feBytes {n : Nat} {v : ℤ} (h : (n : ZMod fieldP) = v) : feOut n = feBytes v := by
  rw [feOut_congr (h.trans (natCast_toNat_emod v).symm), feOut_of_lt (toNat_emod_lt v), feBytes]

theorem fieldP_lt : fieldP < 2 ^ 255 := by decide

theorem le_tole_of_lt {n : Nat} (h : n < fieldP) : le (tole 32 n) = n := by
  rw [le_tole]
  exact Nat.mod_eq_of_lt ((h.trans fieldP_lt).trans (by decide))

/-- The bytes of a field value, read as an operand, are that value. -/
theorem natCast_le_feBytes (v : ℤ) : ((le (feBytes v) % 2 ^ 255 % fieldP : ℕ) : ZMod fieldP) = v := by
  have hlt := toNat_emod_lt v
  rw [feBytes, le_tole_of_lt hlt, Nat.mod_eq_of_lt (hlt.trans fieldP_lt), ZMod.natCast_mod, natCast_toNat_emod]

/-! ## The square root of -1 (R6) -/

theorem powMod_one {n fuel a e : Nat} (he : e < 2 ^ fuel) : powMod n fuel a e 1 = a ^ e % n := by
  rw [powMod_eq n fuel a e 1 he, one_mul]

theorem sqrtm1_eq_powMod : sqrtm1 = powMod fieldP 256 2 ((fieldP - 1) / 4) 1 := by decide +kernel

theorem sqrtm1_eq : sqrtm1 = 2 ^ ((fieldP - 1) / 4) % fieldP := sqrtm1_eq_powMod.trans (powMod_one (by decide))

theorem sqrtm1_sq : (sqrtm1 : ZMod fieldP) ^ 2 = -1 := by
  have h : sqrtm1 ^ 2 % fieldP = (fieldP - 1) % fieldP := by decide +kernel
  rw [← Nat.cast_pow, (ZMod.natCast_eq_natCast_iff' _ _ _).2 h, natCast_fieldP_sub fieldP_prime.one_le, Nat.cast_one]

/-! ## FE_ISQRT (R233) -/

section

variable {F : Type*} [Field F] {i q : F}

/-- A fourth root of 1 is one of the four values that the checks tell apart. -/
theorem eq_of_pow_four_eq_one (hi : i ^ 2 = -1) (hq : q ^ 4 = 1) : q = 1 ∨ q = -1 ∨ q = i ∨ q = -i := by
  have hfactor : (q ^ 2 - 1) * (q ^ 2 - i ^ 2) = 0 := by
    rw [hi]
    linear_combination hq
  obtain h | h := mul_eq_zero.1 hfactor
  · obtain h1 | h1 := sq_eq_one_iff.1 (sub_eq_zero.1 h)
    · exact .inl h1
    · exact .inr (.inl h1)
  · exact .inr (.inr (sq_eq_sq_iff_eq_or_eq_neg.1 (sub_eq_zero.1 h)))

/-- The values whose square is 1 and those whose square is -1 are apart, and neither is its own negative. -/
theorem roots_apart (h2 : (2 : F) ≠ 0) (hi : i ^ 2 = -1) : (1 : F) ≠ -1 ∧ i ≠ 1 ∧ i ≠ -1 ∧ i ≠ -i := by
  have hone : (1 : F) ≠ -1 := fun h => h2 (by linear_combination h)
  refine ⟨hone, ?_, ?_, fun h => ?_⟩
  · rintro rfl
    exact hone (by linear_combination hi)
  · rintro rfl
    exact hone (by linear_combination hi)
  · have hzero : i = 0 := (mul_eq_zero.1 (by linear_combination h : 2 * i = 0)).resolve_left h2
    rw [hzero] at hi
    exact one_ne_zero (by linear_combination hi : (1 : F) = 0)

end

/-- The value squared, times the operand, is 1 where the flag is set and `sqrtm1` where it is not. -/
theorem feInvSqrt_sq_mul {x : Nat} (hx : x < fieldP) (h0 : x ≠ 0) :
    ((feInvSqrt x).1 : ZMod fieldP) ^ 2 * x = if (feInvSqrt x).2 then 1 else (sqrtm1 : ZMod fieldP) := by
  have := fact_fieldP_prime
  obtain ⟨r, hr⟩ : ∃ r, r = x ^ ((fieldP - 5) / 8) % fieldP := ⟨_, rfl⟩
  obtain ⟨q, hq⟩ : ∃ q, q = r ^ 2 * x % fieldP := ⟨_, rfl⟩
  have hqlt : q < fieldP := hq ▸ Nat.mod_lt _ fieldP_pos
  have hx0 : (x : ZMod fieldP) ≠ 0 := (natCast_eq_zero_iff_of_lt hx).not.2 h0
  have hrq : (r : ZMod fieldP) ^ 2 * x = q := by rw [hq, ZMod.natCast_mod, Nat.cast_mul, Nat.cast_pow]
  have hroot : (q : ZMod fieldP) ^ 4 = 1 := by
    have hexp : ((fieldP - 5) / 8 * 2 + 1) * 4 = fieldP - 1 := by decide
    rw [← hrq, hr, ZMod.natCast_mod, Nat.cast_pow, ← pow_mul, ← pow_succ, ← pow_mul, hexp,
      ZMod.pow_card_sub_one_eq_one hx0]
  have hone : q = 1 ↔ (q : ZMod fieldP) = 1 := (natCast_eq_one_iff_of_lt hqlt).symm
  have hminus : q = fieldP - 1 ↔ (q : ZMod fieldP) = -1 := by
    rw [← natCast_eq_iff_of_lt hqlt (by decide), natCast_fieldP_sub fieldP_prime.one_le, Nat.cast_one]
  have hminusI : q = fieldP - sqrtm1 ↔ (q : ZMod fieldP) = -sqrtm1 := by
    rw [← natCast_eq_iff_of_lt hqlt (by decide), natCast_fieldP_sub (by decide)]
  obtain ⟨h11, hi1, hi1', hii⟩ := roots_apart two_ne_zero_zmod sqrtm1_sq
  have hi := sqrtm1_sq
  rw [feInvSqrt_eq hr hq]
  simp only [hone, hminus, hminusI, h0, or_false, decide_eq_true_eq]
  obtain h | h | h | h := eq_of_pow_four_eq_one sqrtm1_sq hroot
  · rw [if_neg (by rw [h]; exact not_or.2 ⟨h11, fun e => hi1' (neg_eq_iff_eq_neg.1 e.symm)⟩), if_pos (.inl h), hrq, h]
  · rw [if_pos (.inl h), if_pos (.inr h), ZMod.natCast_mod, Nat.cast_mul]
    linear_combination (sqrtm1 : ZMod fieldP) ^ 2 * hrq + (sqrtm1 : ZMod fieldP) ^ 2 * h - hi
  · rw [if_neg (by rw [h]; exact not_or.2 ⟨hi1', hii⟩), if_neg (by rw [h]; exact not_or.2 ⟨hi1, hi1'⟩), hrq, h]
  · rw [if_pos (.inr h), if_neg (by
      rw [h]
      exact not_or.2 ⟨fun e => hi1' (neg_eq_iff_eq_neg.1 e), fun e => hi1 (neg_inj.1 e)⟩), ZMod.natCast_mod, Nat.cast_mul]
    linear_combination (sqrtm1 : ZMod fieldP) ^ 2 * hrq + (sqrtm1 : ZMod fieldP) ^ 2 * h - (sqrtm1 : ZMod fieldP) * hi

/-- The flag is Euler's criterion. -/
theorem feInvSqrt_flag_iff_euler {x : Nat} (hx : x < fieldP) :
    (feInvSqrt x).2 = true ↔ x ^ ((fieldP - 1) / 2) % fieldP = 0 ∨ x ^ ((fieldP - 1) / 2) % fieldP = 1 := by
  have := fact_fieldP_prime
  have hlt : x ^ ((fieldP - 1) / 2) % fieldP < fieldP := Nat.mod_lt _ fieldP_pos
  have hhalf : (fieldP - 1) / 2 = fieldP / 2 := by decide
  have hsquare : (feInvSqrt x).2 = true ↔ IsSquare (x : ZMod fieldP) := by
    rw [feInvSqrt_flag_iff hx, isSquare_natCast_iff, Int.emod_eq_of_lt (Int.natCast_nonneg x) (Int.ofNat_lt.2 hx)]
  rw [hsquare, ← natCast_eq_zero_iff_of_lt hlt, ← natCast_eq_one_iff_of_lt hlt, ZMod.natCast_mod, Nat.cast_pow, hhalf]
  by_cases h0 : (x : ZMod fieldP) = 0
  · rw [h0, zero_pow (by decide)]
    exact iff_of_true IsSquare.zero (.inl rfl)
  · rw [ZMod.euler_criterion fieldP h0, or_iff_right (pow_ne_zero _ h0)]

theorem feInvSqrt_flag_of_eq_zero {x : Nat} (h : x = 0) : (feInvSqrt x).2 = true := by
  rw [feInvSqrt_eq rfl rfl, decide_eq_true_eq]
  exact .inr (.inr h)

/-- What FE_ISQRT leaves in OB and in RF. -/
theorem feIsqrt_next {s t : State} (h : exec .feIsqrt s = .next t) :
    le (memReadBytes t.ob 0 32) = (feInvSqrt (feOperand s 0)).1 ∧ statusRf t.status = (feInvSqrt (feOperand s 0)).2 := by
  rw [exec_feIsqrt] at h
  cases h
  have hbytes := memReadBytes_done (feOut (feInvSqrt (feOperand s 0)).1) (feInvSqrt (feOperand s 0)).2 s
  rw [feOut_length] at hbytes
  rw [hbytes, feOut_of_lt (feInvSqrt_lt _), le_tole_of_lt (feInvSqrt_lt _), done_status, statusRf_statusWord]
  exact ⟨rfl, rfl⟩

end Sys2Proof.Machine

namespace Sys2Proof.Proofs

open Sys2Proof.Machine Sys2Proof.Claims

/-- Settles O55, in `ZMod p`: `q = t^2 * x` is a fourth root of 1. -/
theorem feIsqrtLaws : Obligations.FeIsqrtLaws := by
  intro s t x r h hx hr
  obtain ⟨hvalue, hflag⟩ := feIsqrt_next h
  have hxlt : x < fieldP := hx ▸ feOperand_lt s 0
  rw [← hx] at hvalue hflag
  rw [hr, hvalue, hflag]
  have hmod : ∀ n, n < fieldP → ((feInvSqrt x).1 ^ 2 * x % fieldP = n ↔
      ((feInvSqrt x).1 : ZMod fieldP) ^ 2 * x = n) := fun n hn => by
    rw [← natCast_eq_iff_of_lt (Nat.mod_lt _ fieldP_pos) hn, ZMod.natCast_mod, Nat.cast_mul, Nat.cast_pow]
  refine ⟨feInvSqrt_lt x, fun hrf h0 => ?_, fun hrf => ?_, feInvSqrt_flag_iff_euler hxlt⟩
  · rw [hmod 1 fieldP_prime.one_lt, feInvSqrt_sq_mul hxlt h0, if_pos hrf, Nat.cast_one]
  · have h0 : x ≠ 0 := fun h0 => nomatch (feInvSqrt_flag_of_eq_zero h0).symm.trans hrf
    rw [hmod sqrtm1 (by decide), feInvSqrt_sq_mul hxlt h0, if_neg (Bool.eq_false_iff.1 hrf)]

/-- Settles O60, equation by equation. -/
theorem constantsMeetTheirDefinitions : Obligations.ConstantsMeetTheirDefinitions :=
  ⟨fieldP_eq, by decide +kernel, by decide +kernel, by decide +kernel, by decide +kernel, sqrtm1_eq, rfl,
    by decide +kernel, by decide +kernel, by decide +kernel, rfl, by decide +kernel, by decide +kernel, mu_eq⟩

end Sys2Proof.Proofs
end

section
/-! curve25519_ladder (47_curve25519.md): a string of 32 bytes by its ends, the trimming as arithmetic, and the ladder of R272 in
`ZMod p` for the scalars and coordinates whose result is known without the curve. -/

namespace Sys2Proof.Machine

open Sys2Proof.Claims

/-! ## The first and the last byte of a 32-byte string (R8) -/

theorem exists_ends {c : Bytes} (h : c.length = 32) : ∃ lo mid hi, mid.length = 30 ∧ c = lo :: (mid ++ [hi]) := by
  obtain ⟨lo, rest, rfl⟩ := List.exists_cons_of_length_eq_add_one h
  have hrest : rest.length = 31 := Nat.succ_injective h
  obtain rfl | ⟨mid, hi, rfl⟩ := rest.eq_nil_or_concat'
  · cases hrest
  · exact ⟨lo, mid, hi, by simpa using hrest, rfl⟩

theorem le_ends {mid : Bytes} (h : mid.length = 30) (lo hi : Byte) :
    le (lo :: (mid ++ [hi])) = lo.toNat + 256 * (le mid + 256 ^ 30 * hi.toNat) := by
  rw [le, le_append, h]
  rfl

theorem getD_last {mid : Bytes} (h : mid.length = 30) (lo hi : Byte) : (lo :: (mid ++ [hi])).getD 31 0#8 = hi := by
  simp [List.getD_eq_getElem?_getD, h]

/-! ## Trimming (R270) -/

theorem and_F8_toNat (b : Byte) : (b &&& 0xF8#8).toNat = b.toNat - b.toNat % 8 := by
  revert b
  decide

theorem and_7F_or_40_toNat (b : Byte) : (b &&& 0x7F#8 ||| 0x40#8).toNat = b.toNat % 64 + 64 := by
  revert b
  decide

theorem trim_ends {mid : Bytes} (h : mid.length = 30) (lo hi : Byte) :
    trim (lo :: (mid ++ [hi])) = (lo &&& 0xF8#8) :: (mid ++ [hi &&& 0x7F#8 ||| 0x40#8]) := by
  simp [trim, List.getD_eq_getElem?_getD, h]

/-- Bits 0 to 2 and 255 are cleared, bit 254 is set. -/
theorem le_trim {c : Bytes} (h : c.length = 32) : le (trim c) = le c % 2 ^ 254 - le c % 8 + 2 ^ 254 := by
  obtain ⟨lo, mid, hi, hmid, rfl⟩ := exists_ends h
  have hlt := le_lt mid
  have hlo := lo.isLt
  have hhi := hi.isLt
  rw [hmid] at hlt
  rw [trim_ends hmid, le_ends hmid, le_ends hmid, and_F8_toNat, and_7F_or_40_toNat]
  omega

/-! ## The bits of the scalar (R272) -/

theorem bitAt_eq_testBit (k t : Nat) : bitAt k t = k.testBit t := by
  rw [Nat.testBit_eq_decide_div_mod_eq, bitAt]
  rfl

theorem mem_downFrom {t n : Nat} (h : t ∈ downFrom n) : t < n := by
  induction n with
  | zero => cases h
  | succ n ih =>
    obtain rfl | h := List.mem_cons.1 h
    · exact Nat.lt_succ_self _
    · exact (ih h).trans (Nat.lt_succ_self _)

/-- The last position is 0, the others are those of one bit less, one place up. -/
theorem downFrom_succ (n : Nat) : downFrom (n + 1) = (downFrom n).map (· + 1) ++ [0] := by
  induction n with
  | zero => rfl
  | succ n ih => exact congrArg ((n + 1) :: ·) ih

/-- The working values after the bits of `k` from `nb - 1` down to 0. -/
def ladderRun (k x1 nb : Nat) : LadderVars :=
  (downFrom nb).foldl (ladderStep k x1) { x2 := 1, z2 := 0, x3 := x1, z3 := 1, swap := false }

/-- The value `x2 * z2^(p-2)` after the last swap. -/
def ladderResult (v : LadderVars) : Nat := fmul (ladderSwap v.swap v).x2 (fpow (ladderSwap v.swap v).z2 (fieldP - 2))

theorem ladder_eq (k x1 nb : Nat) : ladder k x1 nb = ladderResult (ladderRun k x1 nb) := rfl

theorem ladder_mod (k x1 nb : Nat) : ladder k x1 nb = ladder (k % 2 ^ nb) x1 nb := by
  have hstep : ∀ v, ∀ t ∈ downFrom nb, ladderStep k x1 v t = ladderStep (k % 2 ^ nb) x1 v t := fun v t ht => by
    have hbit : bitAt (k % 2 ^ nb) t = bitAt k t := by
      rw [bitAt_eq_testBit, bitAt_eq_testBit, Nat.testBit_mod_two_pow, decide_eq_true (mem_downFrom ht), Bool.true_and]
    rw [ladderStep, ladderStep, hbit]
  rw [ladder_eq, ladder_eq, ladderRun, List.foldl_ext _ _ _ hstep, ladderRun]

/-! ## One step in `ZMod p` -/

section

variable (x1 : Nat) (v : LadderVars)

theorem ladderArith_x2 : ((ladderArith x1 v).x2 : ZMod fieldP) =
    ((v.x2 : ZMod fieldP) + v.z2) ^ 2 * ((v.x2 : ZMod fieldP) - v.z2) ^ 2 := by
  simp [ladderArith]

theorem ladderArith_z2 : ((ladderArith x1 v).z2 : ZMod fieldP) =
    4 * (v.x2 * v.z2) * (((v.x2 : ZMod fieldP) + v.z2) ^ 2 + a24 * (4 * (v.x2 * v.z2))) := by
  simp only [ladderArith, natCast_fmul, natCast_fsub, natCast_fsq, natCast_fadd]
  ring

theorem ladderArith_x3 : ((ladderArith x1 v).x3 : ZMod fieldP) =
    4 * ((v.x2 : ZMod fieldP) * v.x3 - v.z2 * v.z3) ^ 2 := by
  simp only [ladderArith, natCast_fmul, natCast_fsub, natCast_fsq, natCast_fadd]
  ring

theorem ladderArith_z3 : ((ladderArith x1 v).z3 : ZMod fieldP) =
    x1 * (4 * ((v.x3 : ZMod fieldP) * v.z2 - v.z3 * v.x2) ^ 2) := by
  simp only [ladderArith, natCast_fmul, natCast_fsub, natCast_fsq, natCast_fadd]
  ring

end

theorem natCast_ladderResult (v : LadderVars) :
    (ladderResult v : ZMod fieldP) =
      (ladderSwap v.swap v).x2 * ((ladderSwap v.swap v).z2 : ZMod fieldP)⁻¹ := by
  rw [ladderResult, natCast_fmul, natCast_fpow_inverse]

theorem ladderResult_lt (v : LadderVars) : ladderResult v < fieldP := fmul_lt _ _

theorem ladder_lt (k x1 nb : Nat) : ladder k x1 nb < fieldP := ladderResult_lt _

/-! ## Where all bits so far are 0: the pair `(x2 : z2)` is the neutral element, the pair `(x3 : z3)` is `x1` -/

/-- The working values before the first 1 bit. -/
structure AtStart (x1 : Nat) (v : LadderVars) : Prop where
  swap : v.swap = false
  z2 : (v.z2 : ZMod fieldP) = 0
  ratio : (v.x3 : ZMod fieldP) = x1 * v.z3
  nonzero : (x1 : ZMod fieldP) ≠ 0 → (v.x2 : ZMod fieldP) ≠ 0 ∧ (v.z3 : ZMod fieldP) ≠ 0

theorem four_ne_zero_zmod : (4 : ZMod fieldP) ≠ 0 := by
  have := fact_fieldP_prime
  have h := mul_ne_zero two_ne_zero_zmod two_ne_zero_zmod
  norm_num at h
  exact h

variable {k x1 nb t : Nat} {v : LadderVars}

theorem atStart_init (x1 : Nat) : AtStart x1 { x2 := 1, z2 := 0, x3 := x1, z3 := 1, swap := false } where
  swap := rfl
  z2 := Nat.cast_zero
  ratio := by rw [Nat.cast_one, mul_one]
  nonzero _ := by
    have := fact_fieldP_prime
    rw [Nat.cast_one]
    exact ⟨one_ne_zero, one_ne_zero⟩

/-- A step without a swap before it. -/
theorem ladderStep_of_not_swap {b : Bool} (hs : v.swap = false) (hb : bitAt k t = b) :
    ladderStep k x1 v t = ladderArith x1 { ladderSwap b v with swap := b } := by
  rw [ladderStep, hs, hb, Bool.false_xor]

theorem atStart_step (h : AtStart x1 v) (hb : bitAt k t = false) : AtStart x1 (ladderStep k x1 v t) := by
  have := fact_fieldP_prime
  rw [ladderStep_of_not_swap h.swap hb]
  refine ⟨rfl, ?_, ?_, fun hx1 => ?_⟩
  · rw [ladderArith_z2]
    simp [ladderSwap, h.z2]
  · rw [ladderArith_x3, ladderArith_z3]
    simp only [ladderSwap, Bool.false_eq_true, if_false, h.z2, h.ratio]
    ring
  · obtain ⟨hx2, hz3⟩ := h.nonzero hx1
    rw [ladderArith_x2, ladderArith_z3]
    simp [ladderSwap, h.z2, hx2, hz3, hx1, four_ne_zero_zmod]

theorem atStart_foldl {ts : List Nat} (hbits : ∀ t ∈ ts, bitAt k t = false) (h : AtStart x1 v) :
    AtStart x1 (ts.foldl (ladderStep k x1) v) := by
  induction ts generalizing v with
  | nil => exact h
  | cons t ts ih =>
    obtain ⟨ht, hts⟩ := List.forall_mem_cons.1 hbits
    exact ih hts (atStart_step h ht)

/-- With the scalar 0 the result is 0 (corner case (c)). -/
theorem ladder_zero_scalar (x1 nb : Nat) : ladder 0 x1 nb = 0 := by
  have hrun : AtStart x1 (ladderRun 0 x1 nb) :=
    atStart_foldl (fun t _ => by rw [bitAt_eq_testBit, Nat.zero_testBit]) (atStart_init x1)
  have := fact_fieldP_prime
  rw [ladder_eq, ← natCast_eq_zero_iff_of_lt (ladderResult_lt _), natCast_ladderResult, hrun.swap, ladderSwap,
    if_neg Bool.false_ne_true, hrun.z2, inv_zero, mul_zero]

/-- A 1 bit after them doubles the second pair, and the last swap takes it. -/
theorem ladderResult_of_last_bit (h : AtStart x1 v) (hx1 : (x1 : ZMod fieldP) ≠ 0) (hb : bitAt k t = true) :
    (ladderResult (ladderStep k x1 v t) : ZMod fieldP) = x1 := by
  have := fact_fieldP_prime
  obtain ⟨hx2, hz3⟩ := h.nonzero hx1
  have hswap : (ladderStep k x1 v t).swap = true := by
    rw [ladderStep_of_not_swap h.swap hb]
    rfl
  have hnum : ((ladderStep k x1 v t).x3 : ZMod fieldP) = 4 * (x1 * v.z3 * v.x2) ^ 2 := by
    rw [ladderStep_of_not_swap h.swap hb, ladderArith_x3]
    simp [ladderSwap, h.z2, h.ratio]
  have hden : ((ladderStep k x1 v t).z3 : ZMod fieldP) = x1 * (4 * (v.x2 * v.z3) ^ 2) := by
    rw [ladderStep_of_not_swap h.swap hb, ladderArith_z3]
    simp [ladderSwap, h.z2]
  have hfour := four_ne_zero_zmod
  rw [natCast_ladderResult, hswap, ladderSwap, if_pos rfl, hnum, hden]
  field_simp

/-- With the scalar 1 the result is `x1` (corner case (e)). -/
theorem ladder_one_scalar (hlt : x1 < fieldP) (h0 : x1 ≠ 0) (n : Nat) : ladder 1 x1 (n + 1) = x1 := by
  have hbits : ∀ t ∈ (downFrom n).map (· + 1), bitAt 1 t = false := fun t ht => by
    obtain ⟨t, -, rfl⟩ := List.mem_map.1 ht
    rw [bitAt_eq_testBit, Nat.testBit_succ, Nat.zero_testBit]
  rw [← natCast_eq_iff_of_lt (ladder_lt _ _ _) hlt, ladder_eq, ladderRun, downFrom_succ, List.foldl_append, List.foldl_cons,
    List.foldl_nil]
  exact ladderResult_of_last_bit (atStart_foldl hbits (atStart_init x1)) ((natCast_eq_zero_iff_of_lt hlt).not.2 h0) rfl

/-! ## Where `x1 = 0`: each of the two pairs stays the neutral element or 0 -/

/-- In both pairs one of the two values is 0. -/
def Degenerate (v : LadderVars) : Prop := (v.x2 * v.z2 : ZMod fieldP) = 0 ∧ (v.x3 * v.z3 : ZMod fieldP) = 0

theorem degenerate_ladderSwap (c : Bool) (h : Degenerate v) : Degenerate (ladderSwap c v) := by
  cases c with
  | false => exact h
  | true => exact ⟨h.2, h.1⟩

theorem degenerate_ladderArith (h : Degenerate v) : Degenerate (ladderArith 0 v) := by
  constructor
  · rw [ladderArith_z2, h.1]
    ring
  · rw [ladderArith_z3, Nat.cast_zero]
    ring

theorem degenerate_ladderStep (h : Degenerate v) (k t : Nat) : Degenerate (ladderStep k 0 v t) :=
  degenerate_ladderArith (degenerate_ladderSwap (v.swap ^^ bitAt k t) h)

theorem degenerate_ladderRun (k nb : Nat) : Degenerate (ladderRun k 0 nb) := by
  have hfold : ∀ (ts : List Nat) (v : LadderVars), Degenerate v → Degenerate (ts.foldl (ladderStep k 0) v) := by
    intro ts
    induction ts with
    | nil => exact fun _ h => h
    | cons t ts ih => exact fun v h => ih _ (degenerate_ladderStep h k t)
  exact hfold _ _ ⟨by simp, by simp⟩

/-- With `x1 = 0` the result is 0 for every scalar (corner case (d)). -/
theorem ladder_zero_coordinate (k nb : Nat) : ladder k 0 nb = 0 := by
  have := fact_fieldP_prime
  obtain ⟨hpair, -⟩ := degenerate_ladderSwap (ladderRun k 0 nb).swap (degenerate_ladderRun k nb)
  rw [ladder_eq, ← natCast_eq_zero_iff_of_lt (ladderResult_lt _), natCast_ladderResult]
  obtain hx | hz := mul_eq_zero.1 hpair
  · rw [hx, zero_mul]
  · rw [hz, inv_zero, mul_zero]

/-! ## X_LADDER (R271) -/

theorem exec_xLadder (trimmed w : Bool) (s : State) :
    exec (.xLadder trimmed w) s =
      finish (tole 32 (ladder (le (if trimmed then trim (memReadBytes s.ib 0 32) else memReadBytes s.ib 0 32))
        (feOperand s 32) (if w then 256 else 255))) s := by
  rw [exec, execXLadder, feOut_of_lt (ladder_lt _ _ _)]
  rfl

end Sys2Proof.Machine

namespace Sys2Proof.Proofs

open Sys2Proof.Machine Sys2Proof.Claims

/-- Settles O44: the trimmed scalar is the arithmetic one, and the result is canonical. -/
theorem xLadderMultipliesTheCoordinate : Obligations.XLadderMultipliesTheCoordinate := by
  refine ⟨encoding_xLadder, fun trimmed w s k hk => ⟨_, exec_xLadder trimmed w s, ?_⟩⟩
  have hscalar : le (if trimmed then trim (memReadBytes s.ib 0 32) else memReadBytes s.ib 0 32) = k := by
    rw [hk, apply_ite le, le_trim (memReadBytes_length _ _ _), scalarOperand]
  rw [hscalar]
  exact delivers_done _ s

/-- Settles O57: with no 1 bit the first pair stays neutral, with one at the end the second pair is `x1`. -/
theorem ladderOfSmallScalars : Obligations.LadderOfSmallScalars := by
  intro k x1 nb hlt hnb
  refine ⟨ladder_mod k x1 nb, fun hk => ?_, ladder_zero_coordinate k nb, fun h0 => ?_⟩
  · rw [ladder_mod, hk, ladder_zero_scalar]
  · obtain rfl | rfl := hnb <;> exact ladder_one_scalar hlt h0 _

end Sys2Proof.Proofs
end

section
/-! ed25519_point_add and ed25519_scalar_mult (48_ed25519.md): the addition formulas in `ZMod p`, valid points by the equation of
R285 and R286, the point that a compressed form decodes to, and the two multiplications' results. -/

namespace Sys2Proof.Machine

open Sys2Proof.Claims

/-! ## GE_ADD (R290) -/

theorem pointOf_ibBytes (s : State) (a : Nat) : pointOf (ibBytes s a 128) = pointOperand s a := by
  simp only [pointOf, pointOperand, feOperand, feIn, ibBytes]
  rw [slice_memReadBytes (by omega), slice_memReadBytes (by omega), slice_memReadBytes (by omega),
    slice_memReadBytes (by omega), Nat.add_zero]

theorem exec_geAdd (sub : Bool) (s : State) :
    exec (.geAdd sub) s = finish (pointBytes (geSum sub (pointOperand s 0) (pointOperand s 128))) s := by
  rw [exec, execGeAdd, pointOf_ibBytes, pointOf_ibBytes]

/-- The coordinates of a point in `ZMod p`. -/
structure PointValue where
  x : ZMod fieldP
  y : ZMod fieldP
  z : ZMod fieldP
  t : ZMod fieldP

def Point.value (q : Point) : PointValue := { x := q.x, y := q.y, z := q.z, t := q.t }

/-- The formulas of R290, where `u` and `v` stand for `Y2 + X2` and `Y2 - X2`, and `w` for `T2 * 2d`. -/
def addFormulas (p : PointValue) (u v z2 w : ZMod fieldP) : PointValue :=
  let a := (p.y + p.x) * u
  let b := (p.y - p.x) * v
  let c := p.t * w
  let d := 2 * p.z * z2
  { x := (a - b) * (d - c), y := (a + b) * (d + c), z := (d + c) * (d - c), t := (a - b) * (a + b) }

theorem geAddCached_value (q : Point) (c : Cached) :
    (geAddCached q c).value = addFormulas q.value c.yp c.ym c.z c.t2d := by
  simp only [Point.value, geAddCached, addFormulas, natCast_fmul, natCast_fsub, natCast_fadd, Nat.cast_ofNat]

theorem geSum_value (sub : Bool) (p q : Point) :
    (geSum sub p q).value =
      if sub then addFormulas p.value (q.y - q.x) (q.y + q.x) q.z (-(q.t * edD2))
      else addFormulas p.value (q.y + q.x) (q.y - q.x) q.z (q.t * edD2) := by
  cases sub with
  | false => simp only [geSum, geAddCached_value, geCache, natCast_fadd, natCast_fsub, natCast_fmul, Bool.false_eq_true, if_false]
  | true =>
    simp only [geSum, geAddCached_value, geCache, geCacheNeg, natCast_fadd, natCast_fsub, natCast_fmul, natCast_fneg, if_true]

/-- Points of the same value have the same bytes. -/
theorem pointBytes_congr {p q : Point} (h : p.value = q.value) : pointBytes p = pointBytes q := by
  simp only [Point.value, PointValue.mk.injEq] at h
  obtain ⟨hx, hy, hz, ht⟩ := h
  rw [pointBytes, pointBytes, feOut_congr hx, feOut_congr hy, feOut_congr hz, feOut_congr ht]

theorem pointBytes_eq_feBytes {q : Point} {x y z t : ℤ} (h : q.value = { x := x, y := y, z := z, t := t }) :
    pointBytes q = feBytes x ++ feBytes y ++ feBytes z ++ feBytes t := by
  simp only [Point.value, PointValue.mk.injEq] at h
  obtain ⟨hx, hy, hz, ht⟩ := h
  rw [pointBytes, feOut_eq_feBytes hx, feOut_eq_feBytes hy, feOut_eq_feBytes hz, feOut_eq_feBytes ht]

/-- The second operand of the addition that stands for a subtraction: X and T negated, the bytes canonical. -/
def NegatedOperand (s s' : State) : Prop :=
  memReadBytes s'.ib 128 128 =
    feBytes (-(feOperand s 128 : ℤ)) ++ feBytes (feOperand s 160) ++ feBytes (feOperand s 192) ++
      feBytes (-(feOperand s 224 : ℤ))

theorem slice_append_self {u v : Bytes} {m n : Nat} (hu : u.length = m) (hv : v.length = n) : slice (u ++ v) m n = v := by
  rw [slice, List.drop_left' hu, List.take_of_length_le hv.le]

/-- Four strings of 32 bytes in a row. -/
theorem slice_four {a b c d : Bytes} (ha : a.length = 32) (hb : b.length = 32) (hc : c.length = 32) (hd : d.length = 32) :
    slice (a ++ b ++ c ++ d) 0 32 = a ∧ slice (a ++ b ++ c ++ d) 32 32 = b ∧ slice (a ++ b ++ c ++ d) 64 32 = c ∧
      slice (a ++ b ++ c ++ d) 96 32 = d := by
  have hab : (a ++ b).length = 64 := by rw [List.length_append, ha, hb]
  have habc : (a ++ b ++ c).length = 96 := by rw [List.length_append, hab, hc]
  have hprefix : ∀ k, k + 32 ≤ 96 → slice (a ++ b ++ c ++ d) k 32 = slice (a ++ b ++ c) k 32 :=
    fun k hk => slice_append_of_le (hk.trans_eq habc.symm) d
  have hprefix2 : ∀ k, k + 32 ≤ 64 → slice (a ++ b ++ c) k 32 = slice (a ++ b) k 32 :=
    fun k hk => slice_append_of_le (hk.trans_eq hab.symm) c
  refine ⟨?_, ?_, ?_, slice_append_self habc hd⟩
  · rw [hprefix 0 (by omega), hprefix2 0 (by omega), slice_append_of_le ha.ge]
    exact slice_append_self (u := []) rfl ha
  · rw [hprefix 32 (by omega), hprefix2 32 (by omega), slice_append_self ha hb]
  · rw [hprefix 64 (by omega), slice_append_self hab hc]

/-- A field operand of which the bytes are those of a field value. -/
theorem natCast_feOperand {s : State} {a : Nat} {v : ℤ} (h : memReadBytes s.ib a 32 = feBytes v) :
    (feOperand s a : ZMod fieldP) = v := by
  rw [feOperand, h, natCast_le_feBytes]

theorem pointOperand_value_of_negated {s s' : State} (h : NegatedOperand s s') :
    (pointOperand s' 128).value =
      { x := -(feOperand s 128 : ZMod fieldP), y := feOperand s 160, z := feOperand s 192,
        t := -(feOperand s 224 : ZMod fieldP) } := by
  obtain ⟨hx, hy, hz, ht⟩ := slice_four (feBytes_length (-(feOperand s 128 : ℤ))) (feBytes_length (feOperand s 160))
    (feBytes_length (feOperand s 192)) (feBytes_length (-(feOperand s 224 : ℤ)))
  rw [← h, slice_memReadBytes (by omega)] at hx hy hz ht
  rw [Point.value, pointOperand, natCast_feOperand hx, natCast_feOperand hy, natCast_feOperand hz, natCast_feOperand ht]
  simp only [Int.cast_neg, Int.cast_natCast]

/-! ## Valid points (R285, R286) -/

theorem onCurve_iff (x y : Nat) :
    onCurve x y = true ↔ (y : ZMod fieldP) ^ 2 - (x : ZMod fieldP) ^ 2 =
      1 + edD * ((x : ZMod fieldP) ^ 2 * (y : ZMod fieldP) ^ 2) := by
  rw [onCurve, beq_iff_eq, ← natCast_eq_iff_of_lt (fsub_lt _ _) (fadd_lt _ _)]
  simp only [natCast_fsub, natCast_fadd, natCast_fmul, natCast_fsq, Nat.cast_one]

theorem natCast_eq_zero_iff_mod (a : Nat) : (a : ZMod fieldP) = 0 ↔ a % fieldP = 0 := by
  rw [ZMod.natCast_eq_zero_iff, Nat.dvd_iff_mod_eq_zero]

theorem validPoint_iff (q : Point) :
    ValidPoint q ↔ (q.z : ZMod fieldP) ≠ 0 ∧ (q.t : ZMod fieldP) * q.z = q.x * q.y ∧
      (q.y : ZMod fieldP) ^ 2 * (q.z : ZMod fieldP) ^ 2 =
        (q.z : ZMod fieldP) ^ 4 + edD * (q.x : ZMod fieldP) ^ 2 * (q.y : ZMod fieldP) ^ 2 +
          (q.x : ZMod fieldP) ^ 2 * (q.z : ZMod fieldP) ^ 2 := by
  rw [ValidPoint, ← ZMod.natCast_eq_natCast_iff', ← ZMod.natCast_eq_natCast_iff', ne_eq, ← natCast_eq_zero_iff_mod]
  push_cast
  rfl

/-- The curve equation of `(x/z, y/z)` multiplied by `z^4`. -/
theorem curve_mul_z_pow_four {F : Type*} [Field F] {x y z d : F} (hz : z ≠ 0) :
    (y * z⁻¹) ^ 2 - (x * z⁻¹) ^ 2 = 1 + d * ((x * z⁻¹) ^ 2 * (y * z⁻¹) ^ 2) ↔
      y ^ 2 * z ^ 2 = z ^ 4 + d * x ^ 2 * y ^ 2 + x ^ 2 * z ^ 2 := by
  field_simp
  constructor <;> intro h <;> linear_combination h

theorem pointValid_iff {q : Point} (hz : q.z < fieldP) : pointValid q = true ↔ ValidPoint q := by
  have := fact_fieldP_prime
  have hmul : fmul q.t q.z = fmul q.x q.y ↔ (q.t : ZMod fieldP) * q.z = q.x * q.y := by
    rw [← natCast_eq_iff_of_lt (fmul_lt _ _) (fmul_lt _ _), natCast_fmul, natCast_fmul]
  have hzero : q.z ≠ 0 ↔ (q.z : ZMod fieldP) ≠ 0 := (natCast_eq_zero_iff_of_lt hz).not.symm
  rw [validPoint_iff, pointValid, Bool.and_eq_true, Bool.and_eq_true, bne_iff_ne, beq_iff_eq, hmul, hzero, and_assoc,
    onCurve_iff]
  refine and_congr_right fun hne => and_congr_right fun _ => ?_
  rw [natCast_fmul, natCast_fmul, natCast_fpow_inverse, curve_mul_z_pow_four hne]

/-! ## Decoding (R288) -/

/-- `d` is not a square (R285). -/
theorem not_isSquare_edD : ¬IsSquare (edD : ZMod fieldP) := by
  have := fact_fieldP_prime
  have hd : (edD : ZMod fieldP) ≠ 0 := (natCast_eq_zero_iff_of_lt (by decide)).not.2 (by decide)
  have hpow : fpow edD (fieldP / 2) ≠ 1 := by decide +kernel
  rwa [ZMod.euler_criterion fieldP hd, ← natCast_fpow, natCast_eq_one_iff_of_lt (fpow_lt _ _)]

/-- So `d*y^2 + 1` is never 0: -1 is a square. -/
theorem edD_mul_sq_add_one_ne_zero (y : ZMod fieldP) : edD * y ^ 2 + 1 ≠ 0 := by
  have := fact_fieldP_prime
  intro h
  have hy : y ≠ 0 := by
    rintro rfl
    exact one_ne_zero (by linear_combination h : (1 : ZMod fieldP) = 0)
  refine not_isSquare_edD ⟨sqrtm1 * y⁻¹, ?_⟩
  have hi := sqrtm1_sq
  field_simp
  linear_combination h - hi

/-- The x that R288 takes for this y, before its sign is set. -/
def decodeX (y : Nat) : Nat := fmul (fsub (fsq y) 1) (feInvSqrt (decodeRadicand y)).1

theorem decodeX_lt (y : Nat) : decodeX y < fieldP := fmul_lt _ _

/-- The sign asked for: bit 255 of the string. -/
def decodeSign (c : Bytes) : Bool := (c.getD 31 0#8).getLsbD 7

/-- The point that a string decodes to. -/
theorem eq_of_geDecode_eq_some {c : Bytes} {pt : Point} (h : geDecode c = some pt) :
    (feInvSqrt (decodeRadicand (feIn c))).2 = true ∧
      ∃ x, x = (if isNeg (decodeX (feIn c)) != decodeSign c then fneg (decodeX (feIn c)) else decodeX (feIn c)) ∧
        pt = { x := x, y := feIn c, z := 1, t := fmul x (feIn c) } := by
  unfold geDecode at h
  simp only [Option.ite_none_right_eq_some, Option.some.injEq] at h
  obtain ⟨hflag, rfl⟩ := h
  exact ⟨hflag, _, rfl, rfl⟩

/-- `x^2 * (d*y^2 + 1) = y^2 - 1`: with `r^2 * u * v = 1`, the square of `u * r` times `v` is `u`. -/
theorem decodeX_sq {y : Nat} (hflag : (feInvSqrt (decodeRadicand y)).2 = true) :
    (decodeX y : ZMod fieldP) ^ 2 * (edD * (y : ZMod fieldP) ^ 2 + 1) = (y : ZMod fieldP) ^ 2 - 1 := by
  have := fact_fieldP_prime
  have hx : (decodeX y : ZMod fieldP) = ((y : ZMod fieldP) ^ 2 - 1) * (feInvSqrt (decodeRadicand y)).1 := by
    simp only [decodeX, natCast_fmul, natCast_fsub, natCast_fsq, Nat.cast_one]
  have hrad : (decodeRadicand y : ZMod fieldP) =
      ((y : ZMod fieldP) ^ 2 - 1) * (edD * (y : ZMod fieldP) ^ 2 + 1) := by
    simp only [decodeRadicand, natCast_fmul, natCast_fadd, natCast_fsub, natCast_fsq, Nat.cast_one]
  by_cases h0 : decodeRadicand y = 0
  · have hu : (y : ZMod fieldP) ^ 2 - 1 = 0 := by
      rw [h0, Nat.cast_zero] at hrad
      exact (mul_eq_zero.1 hrad.symm).resolve_right (edD_mul_sq_add_one_ne_zero _)
    rw [hx, hu]
    ring
  · have hr := feInvSqrt_sq_mul (decodeRadicand_lt y) h0
    rw [if_pos hflag, hrad] at hr
    rw [hx]
    linear_combination ((y : ZMod fieldP) ^ 2 - 1) * hr

/-! ## The sign (R230, R288) -/

theorem fneg_mod_two {x : Nat} (hlt : x < fieldP) (h0 : x ≠ 0) : fneg x % 2 = 1 - x % 2 := by
  have hodd : fieldP % 2 = 1 := by decide
  have hneg : fneg x = fieldP - x := by
    rw [fneg, Nat.mod_eq_of_lt hlt, Nat.mod_eq_of_lt (by omega)]
  omega

theorem getLsbD_seven (b : Byte) : (if b.getLsbD 7 then 1 else 0) = b.toNat / 128 := by
  revert b
  decide

theorem decodeSign_eq {c : Bytes} (h : c.length = 32) : (if decodeSign c then 1 else 0) = le c / 2 ^ 255 := by
  obtain ⟨lo, mid, hi, hmid, rfl⟩ := exists_ends h
  have hlt := le_lt mid
  have hlo := lo.isLt
  rw [hmid] at hlt
  rw [decodeSign, getD_last hmid, getLsbD_seven, le_ends hmid]
  omega

/-- A value that is not 0 gets the parity asked for. -/
theorem parity_of_sign {x : Nat} (hlt : x < fieldP) (sign : Bool)
    (h : (if isNeg x != sign then fneg x else x) ≠ 0) :
    (if isNeg x != sign then fneg x else x) % 2 = if sign then 1 else 0 := by
  have hx : x ≠ 0 := by
    rintro rfl
    rw [show fneg 0 = 0 from rfl, ite_self] at h
    exact h rfl
  have hneg := fneg_mod_two hlt hx
  have hpar : isNeg x = (x % 2 == 1) := rfl
  obtain hp | hp := Nat.mod_two_eq_zero_or_one x
  · cases sign <;> simp [hpar, hp, hneg]
  · cases sign <;> simp [hpar, hp, hneg]

/-! ## The multiplications (R300, R301) -/

theorem ibScalar_eq (s : State) (a : Nat) : ibScalar s a = scalarOperand s a := (rfl)

theorem geBase_eq : geBase = { x := baseX, y := baseY, z := 1, t := baseX * baseY % fieldP } := rfl

theorem exec_geSmulBase (s : State) :
    exec .geSmulBase s = finish (geOut (geSmul (scalarOperand s 0) geBase)) s := by
  rw [exec, execGeSmulBase, ibScalar_eq]

theorem exec_geSmulVar_of_decoded {s : State} {pt : Point} (h : geDecode (memReadBytes s.ib 32 32) = some pt) :
    exec (.geSmulVar true) s = finish (geOut (geSmul (scalarOperand s 0) pt)) s := by
  rw [exec_geSmulVar_true, smulCompressed_of_some h, ibScalar_eq]

theorem smulExtended_eq (s : State) :
    smulExtended s =
      if pointValid (pointOperand s 32) then finish (geOut (geSmul (scalarOperand s 0) (pointOperand s 32))) s
      else finish (tole 160 (Config.smulFree s.draws).toNat) (drawn s) := by
  simp only [smulExtended, pointOf_ibBytes, ibScalar_eq]

theorem pointValid_pointOperand (s : State) (a : Nat) :
    pointValid (pointOperand s a) = true ↔ ValidPoint (pointOperand s a) := pointValid_iff (feOperand_lt s _)

theorem exec_geSmulVar_of_valid {s : State} (h : ValidPoint (pointOperand s 32)) :
    exec (.geSmulVar false) s = finish (geOut (geSmul (scalarOperand s 0) (pointOperand s 32))) s := by
  rw [exec_geSmulVar_false, smulExtended_eq, if_pos ((pointValid_pointOperand s 32).2 h)]

/-- On an invalid point the bytes are a draw (log 5). -/
theorem exec_geSmulVar_of_invalid {s : State} (h : ¬ValidPoint (pointOperand s 32)) :
    exec (.geSmulVar false) s = finish (tole 160 (Config.smulFree s.draws).toNat) (drawn s) := by
  rw [exec_geSmulVar_false, smulExtended_eq, if_neg ((pointValid_pointOperand s 32).not.2 h)]

theorem rlen_done_geOut (q : Point) (s : State) : (done (geOut q) false s).rlen = 160#32 := by
  rw [done_rlen, geOut_length]

end Sys2Proof.Machine

namespace Sys2Proof.Proofs

open Sys2Proof.Machine Sys2Proof.Claims

/-- Settles O45: the four coordinates have the formulas' values in `ZMod p`, so their bytes are those of the integers. -/
theorem geAddReturnsTheFormulas : Obligations.GeAddReturnsTheFormulas := by
  refine ⟨encoding_formBit (fun _ => rfl) rfl, ?_⟩
  rintro sub s x1 y1 z1 t1 x2 y2 z2 t2 yp ym t2d a b c d rfl rfl rfl rfl rfl rfl rfl rfl hyp hym ht2d ha hb hc hd
  refine ⟨_, exec_geAdd sub s, ?_⟩
  rw [← pointBytes_eq_feBytes (q := geSum sub (pointOperand s 0) (pointOperand s 128))]
  · exact delivers_done _ s
  · rw [geSum_value, ha, hb, hc, hd, hyp, hym, ht2d]
    cases sub <;>
      simp only [addFormulas, Point.value, pointOperand, Int.cast_mul, Int.cast_add, Int.cast_sub, Int.cast_neg,
        Int.cast_natCast, Int.cast_ofNat, if_true, Bool.false_eq_true, if_false]

/-- Settles O46. -/
theorem geSmulBaseReturnsTheProduct : Obligations.GeSmulBaseReturnsTheProduct := by
  refine ⟨encoding_formN rfl rfl, fun s => ⟨_, exec_geSmulBase s, rlen_done_geOut _ s, ?_⟩⟩
  rw [← geBase_eq]
  exact delivers_done _ s

/-- Settles O47. -/
theorem geSmulVarReturnsTheProduct : Obligations.GeSmulVarReturnsTheProduct := by
  refine ⟨encoding_formBit (fun _ => rfl) rfl, fun s => ⟨?decoded, ?fails, ?valid, ?invalid⟩⟩
  case decoded =>
    intro pt hdec
    exact ⟨_, exec_geSmulVar_of_decoded hdec, rlen_done_geOut _ s, delivers_done _ s⟩
  case fails => exact (exec_geSmulVar_true_eq_failed_iff s).2
  case valid =>
    intro hvalid
    exact ⟨_, exec_geSmulVar_of_valid hvalid, rlen_done_geOut _ s, delivers_done _ s⟩
  case invalid =>
    intro hinvalid
    exact ⟨_, _, exec_geSmulVar_of_invalid hinvalid, tole_length 160 _, delivers_done _ (drawn s)⟩

/-- Settles O58: the x that is decoded meets the curve equation, and its sign is the one asked for. -/
theorem decodedPointsAreValid : Obligations.DecodedPointsAreValid := by
  intro c pt hlen hdec
  obtain ⟨hflag, x, hx, rfl⟩ := eq_of_geDecode_eq_some hdec
  have hsq : (x : ZMod fieldP) ^ 2 = (decodeX (feIn c) : ZMod fieldP) ^ 2 := by
    rw [hx]
    split
    · rw [natCast_fneg, neg_sq]
    · rfl
  have hlt : x < fieldP := by
    rw [hx]
    split
    · exact fneg_lt _
    · exact decodeX_lt _
  have hcurve := decodeX_sq hflag
  rw [← hsq] at hcurve
  have hvalid : ValidPoint { x := x, y := feIn c, z := 1, t := fmul x (feIn c) } := by
    have := fact_fieldP_prime
    rw [validPoint_iff]
    simp only [natCast_fmul, Nat.cast_one, mul_one, one_pow]
    exact ⟨one_ne_zero, trivial, by linear_combination -hcurve⟩
  refine ⟨hvalid, hlt, rfl, rfl, rfl, fun h0 => ?_⟩
  rw [← decodeSign_eq hlen]
  dsimp only at h0 ⊢
  rw [hx] at h0 ⊢
  exact parity_of_sign (decodeX_lt _) _ h0

/-- Settles O59: with X and T negated, `Y + X` and `Y - X` change places and `T * 2d` changes its sign. -/
theorem geSubIsAdditionOfTheNegative : Obligations.GeSubIsAdditionOfTheNegative := by
  intro s s' t t' hsame hneg h h'
  have hfirst : pointOperand s' 0 = pointOperand s 0 := by
    have hop : ∀ a, a + 32 ≤ 128 → feOperand s' a = feOperand s a := fun a ha => by
      rw [feOperand, feOperand, memReadBytes_congr _ _ _ _ fun x _ hx => hsame x (by omega)]
    simp only [pointOperand, hop 0 (by omega), hop (0 + 32) (by omega), hop (0 + 64) (by omega), hop (0 + 96) (by omega)]
  have hbytes : pointBytes (geSum true (pointOperand s 0) (pointOperand s 128)) =
      pointBytes (geSum false (pointOperand s' 0) (pointOperand s' 128)) := by
    have hvalue := pointOperand_value_of_negated hneg
    simp only [Point.value, PointValue.mk.injEq] at hvalue
    obtain ⟨hx, hy, hz, ht⟩ := hvalue
    refine pointBytes_congr ?_
    rw [hfirst, geSum_value, geSum_value, if_pos rfl, if_neg Bool.false_ne_true, hx, hy, hz, ht, neg_mul, sub_neg_eq_add,
      ← sub_eq_add_neg]
    rfl
  rw [exec_geAdd, finish_next] at h h'
  have hread := memReadBytes_done (pointBytes (geSum true (pointOperand s 0) (pointOperand s 128))) false s
  have hread' := memReadBytes_done (pointBytes (geSum false (pointOperand s' 0) (pointOperand s' 128))) false s'
  rw [pointBytes_length] at hread hread'
  rw [h, h', hread, hread', hbytes]

end Sys2Proof.Proofs
end
